-- ==== Sys2Proof/Word.lean ====
section
/-! DEFINITION. The word types of the core and the fixed-size table (00_scope.md R7, R8). -/

namespace Sys2Proof

/-- One octet (20_memory.md R61). -/
abbrev Byte := BitVec 8

/-- A signed 32-bit register, `ARITH_BITS` of 00_scope.md R5; its value is `toInt`. -/
abbrev Reg32 := BitVec 32

/-- A source position as the core meets it: the byte there, or no value where nothing has written the
position (70_reset_and_hazards.md R242). -/
abbrev Slot := Option Byte

/-- The table of `n` entries whose entry `j` is `f j`. -/
def tabulate {α : Type} {n : Nat} (f : Fin n → α) : Vector α n :=
  ⟨⟨List.ofFn f⟩, by simp⟩

@[simp] theorem getElem_tabulate {α : Type} {n : Nat} (f : Fin n → α) (j : Nat) (h : j < n) :
    (tabulate f)[j] = f ⟨j, h⟩ := by
  simp [tabulate]

end Sys2Proof
end

