-- ==== Sys2Proof/Config.lean ====
section
/-! DEFINITION. The implementation parameters of 00_scope.md R5 and R6, and the constants of R5. -/

namespace Sys2Proof

/-- What a sequence-run repeat byte of 0 does: `SEQ_REP_ZERO` (00_scope.md R5, 41_rle.md R151). -/
inductive SeqRepZero where
  | fault
  | noExtra
  | wrap255
  deriving DecidableEq, Repr

/-- The parameters the spec leaves to the implementation or the platform: `BUF_CAPACITY` and
`SEQ_REP_ZERO` (00_scope.md R5, R6), and the three placement bases (20_memory.md R74). -/
structure Config where
  bufCapacity : Nat
  seqRepZero : SeqRepZero
  regBase : Nat
  inBase : Nat
  resultBase : Nat
  deriving DecidableEq, Repr

/-- The defaults: `BUF_CAPACITY` and `SEQ_REP_ZERO` as 00_scope.md R5 gives them. The three bases are the
model's DESIGN CHOICE (log 2), unsafe: the spec fixes no value for them. -/
def Config.default : Config where
  bufCapacity := 16777215
  seqRepZero := .fault
  regBase := 0
  inBase := 0x1000000
  resultBase := 0x2000000

/-- `MAX_IN_LEN`, the largest input buffer in bytes (00_scope.md R5). -/
abbrev maxInLen : Nat := 16777215

/-- `MAX_ESCAPES` (00_scope.md R5). -/
abbrev maxEscapes : Nat := 10

/-- `MAX_WIDTHS` (00_scope.md R5). -/
abbrev maxWidths : Nat := 15

/-- `MAX_ALPHABET` (00_scope.md R5). -/
abbrev maxAlphabet : Nat := 256

/-- `VLE_ESCAPE_WIDTH`, the sentinel in `widths[]` (00_scope.md R5). -/
abbrev vleEscapeWidth : Byte := 0x40

/-- `ESC_INDEX_LIMIT`, and the number of entries of `escape_base[]` and `escape_limit[]` (00_scope.md R5). -/
abbrev escIndexLimit : Nat := 16

end Sys2Proof
end

