-- ==== Sys2Proof/Syntax.lean ====
section
/-! DEFINITION. The instructions of the core: one constructor for each row of opcode_table.json, which is
one token of the container format (00_scope.md R2, 30_encoding.md R105). The operands are the fields the row
and 30_encoding.md R86–R97 give the token; reserved bytes are no operands, since they are never examined
(30_encoding.md R100). -/

namespace Sys2Proof

/-- A token of the container format, or a loop-head step that reads no byte. -/
inductive Instr where
  /-- RUN_START (R115): no byte is read. -/
  | runStart
  /-- CHDR_SINGLE (R116): byte 0 with bit 7 clear; `low7` is its other bits. -/
  | chdrSingle (low7 : BitVec 7)
  /-- CHDR_MULTI (R117): byte 0 with bit 7 set; `pc` is the pass count in its other bits. -/
  | chdrMulti (pc : BitVec 7)
  /-- PASS_ENTRY (R118): no byte is read. -/
  | passEntry
  /-- PHDR_RLE (R119–R122): tag 0x01 and `sub_file_size`. -/
  | phdrRle (size : BitVec 24)
  /-- PHDR_VLE (R119–R121, R123): tag 0x02 and `sub_file_size`. -/
  | phdrVle (size : BitVec 24)
  /-- RHDR_NOSEQ (R135–R141): the escape bytes in index order. -/
  | rhdrNoseq (escs : List Byte)
  /-- RHDR_SEQ (R135–R142): the escape bytes in index order; the one at index 1 is the bracket. -/
  | rhdrSeq (escs : List Byte)
  /-- SEQ_LIT (R149): a byte that differs from the bracket. -/
  | seqLit (b : Byte)
  /-- SEQ_BLOCK (R150): the bracket, the body between the two brackets, the repeat byte. -/
  | seqBlock (brk : Byte) (body : List Byte) (rep : Byte)
  /-- RLE_LIT (R144): a byte that is no escape byte. -/
  | rleLit (b : Byte)
  /-- RLE_SRUN (R145): escape byte, run length, value. -/
  | rleSrun (esc n v : Byte)
  /-- RLE_IRUN_K2 (R147): escape byte, value; the run length is 1. -/
  | rleIrunK2 (esc v : Byte)
  /-- RLE_LRUN (R146): escape byte, 16-bit run length, value. -/
  | rleLrun (esc : Byte) (n : BitVec 16) (v : Byte)
  /-- RLE_IRUN_K4 (R147): escape byte, value; the run length is 3. -/
  | rleIrunK4 (esc v : Byte)
  /-- RLE_IRUN_K5 (R147): escape byte, value; the run length is 4. -/
  | rleIrunK5 (esc v : Byte)
  /-- RLE_IRUN_K6 (R147): escape byte, value; the run length is 5. -/
  | rleIrunK6 (esc v : Byte)
  /-- RLE_IRUN_K7 (R147): escape byte, value; the run length is 6. -/
  | rleIrunK7 (esc v : Byte)
  /-- RLE_IRUN_K8 (R147): escape byte, value; the run length is 7. -/
  | rleIrunK8 (esc v : Byte)
  /-- RLE_IRUN_K9 (R147): escape byte, value; the run length is 8. -/
  | rleIrunK9 (esc v : Byte)
  /-- RLE_IRUN_K10 (R147): escape byte, value; the run length is 9. -/
  | rleIrunK10 (esc v : Byte)
  /-- VLE_HDR (R170–R183): the per-width counts and the alphabet. The two window bytes are read by the
  meaning, from the code stream (R183). -/
  | vleHdr (counts alphabet : List Byte)
  /-- VLE_SHORT_W1 (R185): `pfx` is the prefix, the next 8 stream bits. -/
  | vleShortW1 (pfx : Byte)
  /-- VLE_SHORT_W2 (R185): `pfx` is the prefix. -/
  | vleShortW2 (pfx : Byte)
  /-- VLE_SHORT_W3 (R185): `pfx` is the prefix. -/
  | vleShortW3 (pfx : Byte)
  /-- VLE_SHORT_W4 (R185): `pfx` is the prefix. -/
  | vleShortW4 (pfx : Byte)
  /-- VLE_SHORT_W5 (R185): `pfx` is the prefix. -/
  | vleShortW5 (pfx : Byte)
  /-- VLE_SHORT_W6 (R185): `pfx` is the prefix. -/
  | vleShortW6 (pfx : Byte)
  /-- VLE_SHORT_W7 (R185): `pfx` is the prefix. -/
  | vleShortW7 (pfx : Byte)
  /-- VLE_SHORT_W8 (R185): `pfx` is the prefix. -/
  | vleShortW8 (pfx : Byte)
  /-- VLE_LONG (R187): `pfx` is the prefix, the first 8 bits of the code. -/
  | vleLong (pfx : Byte)
  /-- PASS_END (R125, R143, R184): no byte is read. -/
  | passEnd
  /-- PASS_CHAIN (R126): no byte is read. -/
  | passChain
  /-- RUN_DONE (R127): no byte is read. -/
  | runDone
  deriving DecidableEq, Repr

end Sys2Proof
end

