-- ==== Sys2Proof/WellFormed.lean ====
section
/-! DEFINITION. Which instruction terms are tokens of the format: the bounds a field's type does not
already impose (30_encoding.md R89, R93, R94, R101). -/

namespace Sys2Proof

/-- The number of symbols a list of per-width counts declares, the A of 30_encoding.md R94. -/
def countSum (counts : List Byte) : Nat :=
  (counts.map BitVec.toNat).sum

/-- The structural checks of the format:
at most 10 escape bytes, and at least 2 in sequence mode (30_encoding.md R89);
no bracket inside a block's body (R93);
at most 15 counts, at most 256 symbols, and as many alphabet bytes as the counts declare (R94).
The checks the spec makes when a token executes (pass count 0, repeat byte 0, a size above the capacity, a
direct table that overflows) belong to the meanings. -/
def Instr.wellFormed : Instr → Bool
  | .rhdrNoseq escs => decide (escs.length ≤ maxEscapes)
  | .rhdrSeq escs => decide (2 ≤ escs.length) && decide (escs.length ≤ maxEscapes)
  | .seqBlock brk body _ => !body.contains brk
  | .vleHdr counts alphabet =>
    decide (counts.length ≤ maxWidths) && decide (countSum counts ≤ maxAlphabet)
      && decide (alphabet.length = countSum counts)
  | .runStart | .chdrSingle _ | .chdrMulti _ | .passEntry | .phdrRle _ | .phdrVle _ | .seqLit _
  | .rleLit _ | .rleSrun _ _ _ | .rleIrunK2 _ _ | .rleLrun _ _ _ | .rleIrunK4 _ _ | .rleIrunK5 _ _
  | .rleIrunK6 _ _ | .rleIrunK7 _ _ | .rleIrunK8 _ _ | .rleIrunK9 _ _ | .rleIrunK10 _ _
  | .vleShortW1 _ | .vleShortW2 _ | .vleShortW3 _ | .vleShortW4 _ | .vleShortW5 _ | .vleShortW6 _
  | .vleShortW7 _ | .vleShortW8 _ | .vleLong _ | .passEnd | .passChain | .runDone => true

end Sys2Proof
end

