-- ==== Sys2Proof/Decode.lean ====
section
/-! DEFINITION. The decoder and the encoder. A token is picked in three steps (30_encoding.md R105): the
context, which `phase` gives; the selector, which is computed from the next byte and the core's tables; the
row. The operand bytes are then read in the order of the rule's pseudocode, so that the first failing check
is the one the rule meets first (60_exceptions.md R215). -/

namespace Sys2Proof

/-- A decoding context (30_encoding.md R85), with the registers and tables the selector is computed from.
`runStart`, `passEntry`, `pend` and the `full` heads read no byte. -/
inductive Ctx where
  /-- The first half of a step in CHDR (R115). -/
  | runStart
  /-- The container header (R86). -/
  | chdr
  /-- The first half of a step in PHDR (R118). -/
  | passEntry
  /-- A per-pass header (R87). -/
  | phdr
  /-- An RLE pass header (R88). -/
  | rhdr
  /-- A sequence-run token, with the bracket (R93). -/
  | seq (bracket : Byte)
  /-- A single-byte-run token; `full` is `wr = dst_len` (R91, 41_rle.md R143). -/
  | sbr (full : Bool) (lookup : Vector (Fin 11) 256)
  /-- A VLE pass header (R94). -/
  | vhdr
  /-- A VLE code; `full` is `wr = dst_len` (R97, 42_vle.md R184). -/
  | vdec (full : Bool) (widths : Vector Byte 256)
  /-- The end of a pass; `last` is `pass_index + 1 = pass_count` (40_driver.md R126, R127). -/
  | pend (last : Bool)
  deriving DecidableEq, Repr

/-- Why no token could be read. -/
inductive Reject where
  /-- The source ended inside a token or a header (20_memory.md R65, R67). -/
  | truncated
  /-- A byte the token needs was never written (70_reset_and_hazards.md R242). -/
  | unwritten
  /-- A bracketed block broke off after `got` body bytes: the source ended, or (`hole`) a byte it needs was
  never written. Each of those body bytes was emitted before the next was read (41_rle.md R150). -/
  | blockCut (got : Nat) (hole : Bool)
  /-- The tag is neither 0x01 nor 0x02; the size was read before it is judged (40_driver.md R120, R124). -/
  | badAlgorithmTag (size : BitVec 24)
  /-- The escape count is illegal (41_rle.md R137, R138). -/
  | badRLEEscapeTable
  /-- `widths_lengths` or the alphabet length is illegal (42_vle.md R170, R174). -/
  | badVLEHeader
  /-- The `widths[]` entry is neither 1 … 8 nor 0x40 (42_vle.md R193). -/
  | badVLECode
  deriving DecidableEq, Repr

/-- `LE16` (00_scope.md R9): the byte read first is the less significant. -/
def le16 (b0 b1 : Byte) : BitVec 16 :=
  b0.setWidth 16 ||| (b1.setWidth 16 <<< 8)

/-- `LE24` (00_scope.md R9): the byte read first is the least significant. -/
def le24 (b0 b1 b2 : Byte) : BitVec 24 :=
  b0.setWidth 24 ||| (b1.setWidth 24 <<< 8) ||| (b2.setWidth 24 <<< 16)

/-- Byte `i` of a value, byte 0 the least significant. -/
def byteOf {w : Nat} (v : BitVec w) (i : Nat) : Byte :=
  (v >>> (8 * i)).setWidth 8

/-- The high bit of a byte, mask 0x80 (00_scope.md R7). -/
def highBit (b : Byte) : Bool :=
  b.getLsbD 7

/-- The low 7 bits of a byte, mask 0x7F (00_scope.md R7). -/
def low7 (b : Byte) : BitVec 7 :=
  b.setWidth 7

/-- A byte from its high bit and its low 7 bits. -/
def mkByte (high : Bool) (low : BitVec 7) : Byte :=
  BitVec.ofBool high ++ low

/-- `ReadByte` on the slots that remain (20_memory.md R65). -/
def takeByte : List Slot → Except Reject (Byte × List Slot)
  | [] => .error .truncated
  | none :: _ => .error .unwritten
  | some b :: rest => .ok (b, rest)

/-- `n` successive `ReadByte`. -/
def takeBytes : Nat → List Slot → Except Reject (List Byte × List Slot)
  | 0, sl => .ok ([], sl)
  | n + 1, sl => do
    let (b, sl) ← takeByte sl
    let (bs, sl) ← takeBytes n sl
    .ok (b :: bs, sl)

/-- `Skip(n)` on the slots that remain (20_memory.md R67): the skipped bytes are not examined. -/
def skipSlots (n : Nat) (sl : List Slot) : Except Reject (List Slot) :=
  if sl.length < n then .error .truncated else .ok (sl.drop n)

/-- The container header (30_encoding.md R86, 40_driver.md R116, R117). -/
def decodeChdr (sl : List Slot) : Except Reject Instr := do
  let (b0, sl) ← takeByte sl
  if highBit b0 then
    let _ ← skipSlots 3 sl
    .ok (.chdrMulti (low7 b0))
  else
    .ok (.chdrSingle (low7 b0))

/-- A per-pass header (30_encoding.md R87, 40_driver.md R119, R120, R122–R124). -/
def decodePhdr (sl : List Slot) : Except Reject Instr := do
  let (tag, sl) ← takeByte sl
  let (s0, sl) ← takeByte sl
  let (s1, sl) ← takeByte sl
  let (s2, _) ← takeByte sl
  let size := le24 s0 s1 s2
  if tag = 0x01 then .ok (.phdrRle size)
  else if tag = 0x02 then .ok (.phdrVle size)
  else .error (.badAlgorithmTag size)

/-- An RLE pass header (30_encoding.md R88, R89, 41_rle.md R135–R139). -/
def decodeRhdr (sl : List Slot) : Except Reject Instr := do
  let sl ← skipSlots 4 sl
  let (escLen, sl) ← takeByte sl
  let n := (low7 escLen).toNat
  if n > maxEscapes then .error .badRLEEscapeTable
  else if highBit escLen = false ∧ n < 2 then .error .badRLEEscapeTable
  else
    let (escs, _) ← takeBytes n sl
    if highBit escLen then .ok (.rhdrNoseq escs) else .ok (.rhdrSeq escs)

/-- The body of a bracketed block up to its closing bracket, `got` body bytes having been read
(41_rle.md R150). -/
def takeBody (brk : Byte) : Nat → List Slot → Except Reject (List Byte × List Slot)
  | got, [] => .error (.blockCut got false)
  | got, none :: _ => .error (.blockCut got true)
  | got, some c :: sl =>
    if c = brk then .ok ([], sl)
    else do
      let (body, sl) ← takeBody brk (got + 1) sl
      .ok (c :: body, sl)

/-- The repeat byte after the closing bracket of a block of `got` body bytes (41_rle.md R150). -/
def takeRep (got : Nat) : List Slot → Except Reject Byte
  | [] => .error (.blockCut got false)
  | none :: _ => .error (.blockCut got true)
  | some rep :: _ => .ok rep

/-- A sequence-run token (30_encoding.md R93, 41_rle.md R148–R150). -/
def decodeSeq (bracket : Byte) (sl : List Slot) : Except Reject Instr := do
  let (b, sl) ← takeByte sl
  if b = bracket then
    let (body, sl) ← takeBody bracket 0 sl
    let rep ← takeRep body.length sl
    .ok (.seqBlock bracket body rep)
  else .ok (.seqLit b)

/-- An implicit-length run, by its selector `k` (30_encoding.md R91, R92). -/
def irunOf (k : Nat) (esc v : Byte) : Instr :=
  match k with
  | 2 => .rleIrunK2 esc v
  | 4 => .rleIrunK4 esc v
  | 5 => .rleIrunK5 esc v
  | 6 => .rleIrunK6 esc v
  | 7 => .rleIrunK7 esc v
  | 8 => .rleIrunK8 esc v
  | 9 => .rleIrunK9 esc v
  | _ => .rleIrunK10 esc v

/-- A single-byte-run token (30_encoding.md R91, R92, 41_rle.md R143–R147). -/
def decodeSbr (lookup : Vector (Fin 11) 256) (sl : List Slot) : Except Reject Instr := do
  let (b, sl) ← takeByte sl
  let k := (lookup[b.toNat]'b.isLt).val
  if k = 0 then .ok (.rleLit b)
  else if k = 1 then
    let (n, sl) ← takeByte sl
    let (v, _) ← takeByte sl
    .ok (.rleSrun b n v)
  else if k = 3 then
    let (lo, sl) ← takeByte sl
    let (hi, sl) ← takeByte sl
    let (v, _) ← takeByte sl
    .ok (.rleLrun b (le16 lo hi) v)
  else
    let (v, _) ← takeByte sl
    .ok (irunOf k b v)

/-- A VLE pass header up to the end of its alphabet (30_encoding.md R94, 42_vle.md R170, R173, R174, R177). -/
def decodeVhdr (sl : List Slot) : Except Reject Instr := do
  let (wl, sl) ← takeByte sl
  if highBit wl = false ∨ (low7 wl).toNat > maxWidths then .error .badVLEHeader
  else
    let (counts, sl) ← takeBytes (low7 wl).toNat sl
    if countSum counts > maxAlphabet then .error .badVLEHeader
    else
      let (alphabet, _) ← takeBytes (countSum counts) sl
      .ok (.vleHdr counts alphabet)

/-- A VLE code, by the `widths[]` entry of its prefix (30_encoding.md R97, 42_vle.md R184, R193). The one slot
read is the prefix, `word[15:8]`. -/
def decodeVdec (widths : Vector Byte 256) (sl : List Slot) : Except Reject Instr := do
  let (pfx, _) ← takeByte sl
  match (widths[pfx.toNat]'pfx.isLt).toNat with
  | 1 => .ok (.vleShortW1 pfx)
  | 2 => .ok (.vleShortW2 pfx)
  | 3 => .ok (.vleShortW3 pfx)
  | 4 => .ok (.vleShortW4 pfx)
  | 5 => .ok (.vleShortW5 pfx)
  | 6 => .ok (.vleShortW6 pfx)
  | 7 => .ok (.vleShortW7 pfx)
  | 8 => .ok (.vleShortW8 pfx)
  | 0x40 => .ok (.vleLong pfx)
  | _ => .error .badVLECode

/-- The token at the head of the slots, in a context (30_encoding.md R85, R105). -/
def decode : Ctx → List Slot → Except Reject Instr
  | .runStart, _ => .ok .runStart
  | .chdr, sl => decodeChdr sl
  | .passEntry, _ => .ok .passEntry
  | .phdr, sl => decodePhdr sl
  | .rhdr, sl => decodeRhdr sl
  | .seq bracket, sl => decodeSeq bracket sl
  | .sbr full lookup, sl => if full then .ok .passEnd else decodeSbr lookup sl
  | .vhdr, sl => decodeVhdr sl
  | .vdec full widths, sl => if full then .ok .passEnd else decodeVdec widths sl
  | .pend last, _ => .ok (if last then .runDone else .passChain)

/-! ### The encoder -/

/-- The bytes of a token, from the layouts of 30_encoding.md R86–R94. The reserved bytes of R86 and R88 are
written as 0 (any value is legal, R100). A VLE code is encoded as the prefix byte that selects it (R97). -/
def encode : Instr → List Byte
  | .runStart | .passEntry | .passEnd | .passChain | .runDone => []
  | .chdrSingle low => [mkByte false low]
  | .chdrMulti pc => [mkByte true pc, 0, 0, 0]
  | .phdrRle size => [0x01, byteOf size 0, byteOf size 1, byteOf size 2]
  | .phdrVle size => [0x02, byteOf size 0, byteOf size 1, byteOf size 2]
  | .rhdrNoseq escs => [0, 0, 0, 0, mkByte true (BitVec.ofNat 7 escs.length)] ++ escs
  | .rhdrSeq escs => [0, 0, 0, 0, mkByte false (BitVec.ofNat 7 escs.length)] ++ escs
  | .seqLit b => [b]
  | .seqBlock brk body rep => brk :: body ++ [brk, rep]
  | .rleLit b => [b]
  | .rleSrun esc n v => [esc, n, v]
  | .rleLrun esc n v => [esc, byteOf n 0, byteOf n 1, v]
  | .rleIrunK2 esc v | .rleIrunK4 esc v | .rleIrunK5 esc v | .rleIrunK6 esc v | .rleIrunK7 esc v
  | .rleIrunK8 esc v | .rleIrunK9 esc v | .rleIrunK10 esc v => [esc, v]
  | .vleHdr counts alphabet => mkByte true (BitVec.ofNat 7 counts.length) :: counts ++ alphabet
  | .vleShortW1 pfx | .vleShortW2 pfx | .vleShortW3 pfx | .vleShortW4 pfx | .vleShortW5 pfx
  | .vleShortW6 pfx | .vleShortW7 pfx | .vleShortW8 pfx | .vleLong pfx => [pfx]

/-- The encoded bytes as the slots a decoder meets. -/
def encodeSlots (i : Instr) : List Slot :=
  (encode i).map some

/-- What the loop head must find for a token: the row's context, with the row's selector where it has one
(30_encoding.md R91, R93, R97, R105). -/
inductive Head where
  | runStart | chdr | passEntry | phdr | rhdr
  /-- The next byte is `b`, which is not the bracket. -/
  | seqLit (b : Byte)
  /-- The next byte is `brk`, the bracket. -/
  | seqBlock (brk : Byte)
  /-- The next byte is `b`, and its `escape_lookup` entry is `k`. -/
  | sbr (b : Byte) (k : Nat)
  | vhdr
  /-- The prefix is `pfx`, and its `widths[]` entry is `w`. -/
  | vdec (pfx : Byte) (w : Nat)
  | passEnd | passChain | runDone
  deriving DecidableEq, Repr

/-- The head of a token. -/
def Instr.head : Instr → Head
  | .runStart => .runStart
  | .chdrSingle _ | .chdrMulti _ => .chdr
  | .passEntry => .passEntry
  | .phdrRle _ | .phdrVle _ => .phdr
  | .rhdrNoseq _ | .rhdrSeq _ => .rhdr
  | .seqLit b => .seqLit b
  | .seqBlock brk _ _ => .seqBlock brk
  | .rleLit b => .sbr b 0
  | .rleSrun esc _ _ => .sbr esc 1
  | .rleIrunK2 esc _ => .sbr esc 2
  | .rleLrun esc _ _ => .sbr esc 3
  | .rleIrunK4 esc _ => .sbr esc 4
  | .rleIrunK5 esc _ => .sbr esc 5
  | .rleIrunK6 esc _ => .sbr esc 6
  | .rleIrunK7 esc _ => .sbr esc 7
  | .rleIrunK8 esc _ => .sbr esc 8
  | .rleIrunK9 esc _ => .sbr esc 9
  | .rleIrunK10 esc _ => .sbr esc 10
  | .vleHdr _ _ => .vhdr
  | .vleShortW1 pfx => .vdec pfx 1
  | .vleShortW2 pfx => .vdec pfx 2
  | .vleShortW3 pfx => .vdec pfx 3
  | .vleShortW4 pfx => .vdec pfx 4
  | .vleShortW5 pfx => .vdec pfx 5
  | .vleShortW6 pfx => .vdec pfx 6
  | .vleShortW7 pfx => .vdec pfx 7
  | .vleShortW8 pfx => .vdec pfx 8
  | .vleLong pfx => .vdec pfx 0x40
  | .passEnd => .passEnd
  | .passChain => .passChain
  | .runDone => .runDone

/-- Whether a context finds a head. -/
def Ctx.finds (c : Ctx) (h : Head) : Bool :=
  match c with
  | .runStart => decide (h = .runStart)
  | .chdr => decide (h = .chdr)
  | .passEntry => decide (h = .passEntry)
  | .phdr => decide (h = .phdr)
  | .rhdr => decide (h = .rhdr)
  | .seq bracket =>
    match h with
    | .seqLit b => b != bracket
    | .seqBlock brk => brk == bracket
    | _ => false
  | .sbr full lookup =>
    match h with
    | .sbr b k => !full && decide ((lookup[b.toNat]'b.isLt).val = k)
    | .passEnd => full
    | _ => false
  | .vhdr => decide (h = .vhdr)
  | .vdec full widths =>
    match h with
    | .vdec pfx w => !full && decide ((widths[pfx.toNat]'pfx.isLt).toNat = w)
    | .passEnd => full
    | _ => false
  | .pend last => decide (h = if last then .runDone else .passChain)

/-- The tokens a context can select: those whose row names the context, and whose selector it finds
(30_encoding.md R105). -/
def Ctx.selects (c : Ctx) (i : Instr) : Bool :=
  c.finds i.head

/-! ### Table words -/

/-- Writes escape bytes into a lookup table in index order, from index `i` on
(`escape_lookup[E] = i + 1`, 30_encoding.md R90, 41_rle.md R139). -/
def populate : Nat → List Byte → Vector (Fin 11) 256 → Vector (Fin 11) 256
  | _, [], v => v
  | i, e :: es, v => populate (i + 1) es (v.set e.toNat (Fin.ofNat 11 (i + 1)) e.isLt)

/-- `escape_lookup` for a list of escape bytes (41_rle.md R139). -/
def buildLookup (escs : List Byte) : Vector (Fin 11) 256 :=
  populate 0 escs (Vector.replicate 256 0)

/-- A lookup table in which byte k selects k, for k in 1 … 10: escape bytes 01 … 0A. -/
def identityLookup : Vector (Fin 11) 256 :=
  buildLookup [1, 2, 3, 4, 5, 6, 7, 8, 9, 10]

/-- A `widths` table in which prefix w selects width w, for w in 1 … 8, and every other prefix is long. -/
def identityWidths : Vector Byte 256 :=
  tabulate fun p => if 1 ≤ p.val ∧ p.val ≤ 8 then BitVec.ofNat 8 p.val else vleEscapeWidth

/-- The context a table word is read in. opcode_table.json numbers a row's selector only, and the format has no
self-identifying opcodes (30_encoding.md R85): one word stands for rows of several contexts. The model's
DESIGN CHOICE (log 13): a word without bits is RUN_START; a word of two bytes is a VLE prefix; in one byte 0 … 10
is an RLE selector, 0x40 a VLE prefix, anything else byte 0 of a container. -/
def tableCtx (nbits w : Nat) : Ctx :=
  if nbits = 0 then .runStart
  else if nbits > 8 then .vdec false identityWidths
  else if w ≤ 10 then .sbr false identityLookup
  else if w = 0x40 then .vdec false identityWidths
  else .chdr

/-- The bytes of a table word, the first in bits 7:0, with operand bytes of 0 after them. -/
def tableBytes (w : Nat) : List Byte :=
  [BitVec.ofNat 8 w, BitVec.ofNat 8 (w >>> 8), BitVec.ofNat 8 (w >>> 16), BitVec.ofNat 8 (w >>> 24)]

/-- The instruction the decoder reads from a word numbered as opcode_table.json numbers it. -/
def decodeTableWord (nbits w : Nat) : Option Instr :=
  match decode (tableCtx nbits w) ((tableBytes w).map some) with
  | .ok i => some i
  | .error _ => none

end Sys2Proof
end

