-- ==== Sys2Proof/Machine/State.lean ====
section
/-! DEFINITION. The state of one core instance (10_state.md R21–R49), the reasons a step can stop, and the
state after reset (10_state.md R54). State is plain data. -/

namespace Sys2Proof.Machine

/-- The core's control state (10_state.md R22). -/
inductive Phase where
  | idle | chdr | phdr | rhdr | seq | sbr | vhdr | vdec | pend | done | error
  deriving DecidableEq, Repr

/-- The current source buffer (10_state.md R24): the input memory, the output of the previous pass, or the
intermediate of the sequence-run pre-pass. -/
inductive SrcSel where
  | inMem | prevOut | tmp
  deriving DecidableEq, Repr

/-- The current destination buffer (10_state.md R25). -/
inductive DstSel where
  | out | tmp
  deriving DecidableEq, Repr

/-- The error kinds of `ERR_KIND` (60_exceptions.md R210). -/
inductive ErrKind where
  | none | inputTooLarge | truncated | overflowOutput | underflowOutput | badAlgorithmTag
  | badRLEEscapeTable | badVLEHeader | badVLECode | allocationFailed | badContainerHeader
  | badSequenceRepeat
  deriving DecidableEq, Repr

/-- A buffer's bytes as (position, byte) pairs, positions strictly rising. A position not listed has no value:
nothing has written it (70_reset_and_hazards.md R242, log 5). -/
abbrev Memory := List Host.Cell

/-- The read side: `rd`, `src_len` and `src` (10_state.md R23, R24). -/
structure Cursor where
  rd : Nat
  srcLen : Nat
  src : SrcSel
  deriving DecidableEq, Repr

/-- The write side: `dst`, `wr`, `dst_len` and `tmp_wr` (10_state.md R25, R32). -/
structure Dest where
  dst : DstSel
  wr : Nat
  dstLen : Nat
  tmpWr : Nat
  deriving DecidableEq, Repr

/-- The pass driver's registers (10_state.md R26, R27). -/
structure PassRegs where
  passCount : Nat
  passIndex : Nat
  tag : Byte
  subFileSize : BitVec 24
  deriving DecidableEq, Repr

/-- The RLE engine's registers and tables (10_state.md R28–R31, R33). -/
structure RleRegs where
  escLen : Byte
  noSeq : Bool
  escN : Nat
  escCodes : Vector Byte 10
  escLookup : Vector (Fin 11) 256
  bracket : Byte
  seqStart : Nat
  rep : Byte
  deriving DecidableEq, Repr

/-- The VLE engine's header registers and tables (10_state.md R34–R38). -/
structure VleRegs where
  W : Nat
  widthsOffset : Nat
  codesOffset : Nat
  widthSum : Reg32
  alphabetLength : Reg32
  escBase : Vector Reg32 16
  escLimit : Vector Reg32 16
  alphabet : Vector Byte 256
  symbols : Vector Byte 256
  widths : Vector Byte 256
  deriving DecidableEq, Repr

/-- The bit-stream decoder's registers (10_state.md R39). -/
structure Window where
  word : BitVec 16
  br : Nat
  cs : Byte
  escIndex : Nat
  deriving DecidableEq, Repr

/-- The host-visible registers that hold a value of their own (10_state.md R43–R46). `CTRL` reads 0, `STATUS` is
a function of `phase`, and `PASS_COUNT` and `PASS_INDEX` show `PassRegs` (R41, R42, R47). -/
structure HostRegs where
  errKind : ErrKind
  errPass : Nat
  inLen : BitVec 32
  resultLen : Nat
  deriving DecidableEq, Repr

/-- The memories (10_state.md R49, 20_memory.md R79): five distinct buffers. `prevOut` is the output of the
previous pass, the source of a chained pass (10_state.md R24). -/
structure Buffers where
  inMem : Memory
  out : Memory
  tmp : Memory
  prevOut : Memory
  result : Memory
  deriving DecidableEq, Repr

/-- The state of one core instance (10_state.md R21), with the configuration the model is given
(00_scope.md R6), which no step changes (log 1). -/
structure State where
  cfg : Config
  phase : Phase
  cur : Cursor
  dest : Dest
  pass : PassRegs
  rle : RleRegs
  vle : VleRegs
  win : Window
  host : HostRegs
  buf : Buffers
  deriving DecidableEq, Repr

/-- Why the machine stops with a fault. The errors of 60_exceptions.md are no faults of the model: raising one is
a next state in phase ERROR (R212). -/
inductive Fault where
  /-- Raised by a read of a source position below `src_len` that nothing has written: the host set `IN_LEN`
  without writing the bytes below it, which is outside the contract (70_reset_and_hazards.md R242). Safe: the
  hardware would go on with some byte. -/
  | unwrittenByte
  deriving DecidableEq, Repr

/-- Why the model has no transition. -/
inductive Refusal where
  /-- Raised by an arm of `exec` whose instruction has no meaning yet. Safe. -/
  | notModelled (mnemonic : String)
  /-- Raised by a host write to `IN_MEM` while BUSY (60_exceptions.md R223, 70_reset_and_hazards.md R245: the model
  refuses it). Safe. -/
  | inputWriteWhileBusy
  /-- Raised by a host read of `RESULT` outside DONE or at or beyond `RESULT_LEN` (60_exceptions.md R224: the model
  refuses it). Safe. -/
  | resultNotReadable
  /-- Raised by a host access at a register offset that is no multiple of 4, at an `IN_MEM` position beyond the
  last, or at an address below a window's base: no such place exists (10_state.md R40, R49; log 14). Safe. -/
  | noSuchPlace
  deriving DecidableEq, Repr

/-- The state after reset (10_state.md R54, 70_reset_and_hazards.md R240): phase IDLE, every register and table
entry 0, no memory written. `dst` has no row in R54: OUT is the model's DESIGN CHOICE (log 7). -/
def State.reset : State where
  cfg := Config.default
  phase := .idle
  cur := { rd := 0, srcLen := 0, src := .inMem }
  dest := { dst := .out, wr := 0, dstLen := 0, tmpWr := 0 }
  pass := { passCount := 0, passIndex := 0, tag := 0, subFileSize := 0 }
  rle :=
    { escLen := 0, noSeq := false, escN := 0, escCodes := Vector.replicate 10 0,
      escLookup := Vector.replicate 256 0, bracket := 0, seqStart := 0, rep := 0 }
  vle :=
    { W := 0, widthsOffset := 0, codesOffset := 0, widthSum := 0, alphabetLength := 0,
      escBase := Vector.replicate 16 0, escLimit := Vector.replicate 16 0,
      alphabet := Vector.replicate 256 0, symbols := Vector.replicate 256 0,
      widths := Vector.replicate 256 0 }
  win := { word := 0, br := 0, cs := 0, escIndex := 0 }
  host := { errKind := .none, errPass := 0, inLen := 0, resultLen := 0 }
  buf := { inMem := [], out := [], tmp := [], prevOut := [], result := [] }

end Sys2Proof.Machine
end

