-- ==== Sys2Proof/Machine/Ops.lean ====
section
/-! DEFINITION. The shared operations: memory, the cursor primitives of 20_memory.md, raising an error
(60_exceptions.md R212), and the tables' fills. -/

namespace Sys2Proof.Machine

/-- The outcome of a step of this machine. -/
abbrev Out := Host.Outcome State Fault Refusal

/-! ### Memory -/

/-- The canonical form of a memory: positions strictly rising (so no position twice). -/
abbrev Memory.wf (m : Memory) : Prop :=
  m.Pairwise fun c d => c.1 < d.1

/-- The byte at a position, or no value where nothing has written it (log 5). -/
def Memory.read (m : Memory) (a : Nat) : Option Byte :=
  m.lookup a

/-- The cells of bytes laid down from a position on. -/
def cellsAt : Nat → List Byte → Memory
  | _, [] => []
  | a, b :: bs => (a, b) :: cellsAt (a + 1) bs

/-- Writes bytes at consecutive positions, the first at `a` (20_memory.md R69, R71). -/
def Memory.store (m : Memory) (a : Nat) (bs : List Byte) : Memory :=
  m.filter (fun c => decide (c.1 < a)) ++ cellsAt a bs ++ m.filter (fun c => decide (a + bs.length ≤ c.1))

/-- Entries `p … p + n − 1` of a table become `x` (42_vle.md R179, R181). -/
def fillRange {n : Nat} (v : Vector Byte n) (p len : Nat) (x : Byte) : Vector Byte n :=
  tabulate fun j => if p ≤ j.val ∧ j.val < p + len then x else v[j.val]

/-- Entries 0, 1, … of a table become the listed values; the entries after them keep theirs
(41_rle.md R139, 42_vle.md R177). -/
def overlay {α : Type} {n : Nat} (v : Vector α n) (xs : List α) : Vector α n :=
  tabulate fun j => (xs[j.val]?).getD v[j.val]

/-! ### Errors -/

/-- Every buffer of the run is discarded: it holds no byte any more (20_memory.md R80, 60_exceptions.md R212,
R221; log 6). -/
def State.discardBuffers (s : State) : State :=
  { s with buf.out := [], buf.tmp := [], buf.prevOut := [], buf.result := [] }

/-- `raise K` (60_exceptions.md R212), from the state before the step: nothing else of the step takes effect. -/
def State.raise (s : State) (k : ErrKind) : State :=
  { s.discardBuffers with
    phase := .error
    host.errKind := k
    host.errPass := s.pass.passIndex
    host.resultLen := 0 }

/-- What ends a rule before its last line: a raised error, or a fault of the model. -/
inductive Stop where
  | raise (k : ErrKind)
  | fault (f : Fault)
  deriving DecidableEq, Repr

/-- The outcome of a rule's computation that began in `s` (00_scope.md R11, 60_exceptions.md R212). -/
def finish (s : State) : Except Stop State → Out
  | .ok t => .next t
  | .error (.raise k) => .next (s.raise k)
  | .error (.fault f) => .fault f

/-! ### The cursor primitives -/

/-- The current source buffer (10_state.md R24). -/
def State.srcMem (s : State) : Memory :=
  match s.cur.src with
  | .inMem => s.buf.inMem
  | .prevOut => s.buf.prevOut
  | .tmp => s.buf.tmp

/-- The read cursor moves on by `n` bytes that the token's decoding has read. -/
def State.advance (s : State) (n : Nat) : State :=
  { s with cur.rd := s.cur.rd + n }

/-- `ReadByte()` (20_memory.md R65). -/
def readByte (s : State) : Except Stop (Byte × State) :=
  if s.cur.srcLen ≤ s.cur.rd then .error (.raise .truncated)
  else
    match s.srcMem.read s.cur.rd with
    | some b => .ok (b, s.advance 1)
    | none => .error (.fault .unwrittenByte)

/-- The write cursor of the current destination: `tmp_wr` while `dst` is TMP (10_state.md R25, R32,
41_rle.md R142). -/
def State.wrCursor (s : State) : Nat :=
  match s.dest.dst with
  | .out => s.dest.wr
  | .tmp => s.dest.tmpWr

/-- The write cursor of the current destination moves on (20_memory.md R69). -/
def Dest.wrote (d : Dest) (n : Nat) : Dest :=
  match d.dst with
  | .out => { d with wr := d.wr + n }
  | .tmp => { d with tmpWr := d.tmpWr + n }

/-- Bytes are written at the write cursor of the current destination (20_memory.md R69). -/
def Buffers.wrote (b : Buffers) (d : Dest) (bs : List Byte) : Buffers :=
  match d.dst with
  | .out => { b with out := b.out.store d.wr bs }
  | .tmp => { b with tmp := b.tmp.store d.tmpWr bs }

/-- Writes bytes at the write cursor of the current destination and moves it on: `Emit` without its check. -/
def State.append (s : State) (bs : List Byte) : State :=
  { s with dest := s.dest.wrote bs.length, buf := s.buf.wrote s.dest bs }

/-- Successive `Emit(b)` of a list of bytes (20_memory.md R69). The first that would pass `dst_len` raises
OverflowOutput; since a raise discards every buffer (60_exceptions.md R212), one check of the total is the same. -/
def emit (bs : List Byte) (s : State) : Except Stop State :=
  if s.dest.dstLen < s.wrCursor + bs.length then .error (.raise .overflowOutput)
  else .ok (s.append bs)

/-- `Emit(v, n)` (20_memory.md R69). -/
def emitRun (v : Byte) (n : Nat) (s : State) : Except Stop State :=
  emit (List.replicate n v) s

/-- A single-byte-run token: its `len` bytes are read, then `n` copies of `v` are emitted
(41_rle.md R144–R147, 60_exceptions.md R215 item 6). -/
def runToken (len : Nat) (v : Byte) (n : Nat) (s : State) : Out :=
  finish s (emitRun v n (s.advance len))

end Sys2Proof.Machine
end

