-- ==== Sys2Proof/Machine/Operands.lean ====
section
/-! DEFINITION. Operand assembly: the operands that are not bits of a token's own bytes, and the slots the
decoder reads (30_encoding.md R99). The byte orders, LE16 and LE24, stand in Decode.lean. -/

namespace Sys2Proof.Machine

/-- The high byte of the window, the next 8 bits to examine (10_state.md R39, 42_vle.md R184). -/
def prefixOf (word : BitVec 16) : Byte :=
  (word >>> 8).setWidth 8

/-- The low byte of the window (42_vle.md R187). -/
def lowByteOf (word : BitVec 16) : Byte :=
  word.setWidth 8

/-- The length of an implicit run, `k − 1`; it is not in the stream (30_encoding.md R99, 41_rle.md R147). -/
def implicitRunLength (k : Nat) : Nat :=
  k - 1

/-- How many copies of a block's body follow the first: `rep − 1`, and for `rep = 0` what `SEQ_REP_ZERO` says
(41_rle.md R150, R151). -/
def extraCopies (z : SeqRepZero) (rep : Byte) : Except Stop Nat :=
  if rep = 0 then
    match z with
    | .fault => .error (.raise .badSequenceRepeat)
    | .noExtra => .ok 0
    | .wrap255 => .ok 255
  else .ok (rep.toNat - 1)

/-- An escape table in `esc_len`, `no_seq`, `esc_n`, `esc_codes` and `escape_lookup`
(10_state.md R28–R30, 41_rle.md R136–R140). -/
def RleRegs.withEscapes (r : RleRegs) (noSeq : Bool) (escs : List Byte) : RleRegs :=
  { r with
    escLen := mkByte noSeq (BitVec.ofNat 7 escs.length)
    noSeq := noSeq
    escN := escs.length
    escCodes := overlay r.escCodes escs
    escLookup := buildLookup escs }

/-- The source positions `rd … src_len − 1` as slots. -/
def State.srcSlots (s : State) : List Slot :=
  (List.range' s.cur.rd (s.cur.srcLen - s.cur.rd)).map s.srcMem.read

end Sys2Proof.Machine
end

