-- ==== Sys2Proof/Machine/Driver.lean ====
section
/-! DEFINITION. The meanings of the pass driver's tokens (40_driver.md). -/

namespace Sys2Proof.Machine

/-- RUN_START (40_driver.md R115). The container header follows in the same step. -/
def execRunStart (s : State) : Out :=
  if s.host.inLen.toNat > maxInLen then .next (s.raise .inputTooLarge)
  else .next { s with cur := { rd := 0, srcLen := s.host.inLen.toNat, src := .inMem } }

/-- The container header is read and pass 0 is entered, with the read cursor at `rd` (40_driver.md R116, R117). -/
def enterPasses (count rd : Nat) (s : State) : State :=
  { s with
    pass.passCount := count
    pass.passIndex := 0
    cur.rd := rd
    phase := .phdr }

/-- CHDR_SINGLE (40_driver.md R116): byte 0 stays to be read again as the tag. -/
def execChdrSingle (_low7 : BitVec 7) (s : State) : Out :=
  .next (enterPasses 1 0 s)

/-- CHDR_MULTI (40_driver.md R117): one byte read and three skipped. -/
def execChdrMulti (pc : BitVec 7) (s : State) : Out :=
  .next (enterPasses pc.toNat (s.cur.rd + 4) s)

/-- PASS_ENTRY (40_driver.md R118). The per-pass header follows in the same step. -/
def execPassEntry (s : State) : Out :=
  if s.pass.passCount = 0 then .next (s.raise .badContainerHeader) else .next s

/-- A per-pass header whose tag is known: the tag and the size are registers, OUT is a fresh buffer of that many
bytes, and the engine's phase begins (40_driver.md R119–R123). -/
def enterPass (tag : Byte) (size : BitVec 24) (engine : Phase) (s : State) : Out :=
  if size.toNat > s.cfg.bufCapacity then .next (s.raise .allocationFailed)
  else
    .next { s.advance 4 with
      pass.tag := tag
      pass.subFileSize := size
      buf.out := []
      dest.dst := .out
      dest.dstLen := size.toNat
      dest.wr := 0
      phase := engine }

/-- PHDR_RLE (40_driver.md R119–R122). -/
def execPhdrRle (size : BitVec 24) (s : State) : Out :=
  enterPass 0x01 size .rhdr s

/-- PHDR_VLE (40_driver.md R119–R121, R123). -/
def execPhdrVle (size : BitVec 24) (s : State) : Out :=
  enterPass 0x02 size .vhdr s

/-- PASS_END (40_driver.md R125, 41_rle.md R143, 42_vle.md R184): the pass ends, and its TMP with it
(10_state.md R32, 20_memory.md R80; log 6). -/
def execPassEnd (s : State) : Out :=
  .next { s with
    buf.tmp := []
    phase := .pend }

/-- PASS_CHAIN (40_driver.md R126): OUT becomes the next pass's source; any TMP of the finished pass is discarded. -/
def execPassChain (s : State) : Out :=
  .next { s with
    buf.prevOut := s.buf.out
    buf.out := []
    buf.tmp := []
    cur := { rd := 0, srcLen := s.dest.dstLen, src := .prevOut }
    pass.passIndex := s.pass.passIndex + 1
    phase := .phdr }

/-- RUN_DONE (40_driver.md R127). -/
def execRunDone (s : State) : Out :=
  .next { s with
    buf.result := s.buf.out
    host.resultLen := s.dest.dstLen
    phase := .done }

end Sys2Proof.Machine
end

