-- ==== Sys2Proof/Machine/Rle.lean ====
section
/-! DEFINITION. The meanings of the RLE engine's tokens (41_rle.md). -/

namespace Sys2Proof.Machine

/-- RHDR_NOSEQ (41_rle.md R135–R141): the single-byte-run phase begins. -/
def execRhdrNoseq (escs : List Byte) (s : State) : Out :=
  .next { s.advance (5 + escs.length) with
    rle := s.rle.withEscapes true escs
    phase := .sbr }

/-- RHDR_SEQ (41_rle.md R135–R140, R142): TMP is a fresh buffer and becomes the destination, and the sequence-run
pre-pass begins. The bracket is `esc_codes[1]`. -/
def execRhdrSeq (escs : List Byte) (s : State) : Out :=
  if s.dest.dstLen > s.cfg.bufCapacity then .next (s.raise .allocationFailed)
  else
    let r := s.rle.withEscapes false escs
    .next { s.advance (5 + escs.length) with
      rle := { r with bracket := r.escCodes[1] }
      buf.tmp := []
      dest.tmpWr := 0
      dest.dst := .tmp
      phase := .seq }

/-- The end of the pre-pass at its loop head (41_rle.md R148): TMP becomes the source of the single-byte-run
phase, OUT its destination. -/
def endPrePass (s : State) : State :=
  { s with
    cur := { rd := 0, srcLen := s.dest.tmpWr, src := .tmp }
    dest.dst := .out
    phase := .sbr }

/-- SEQ_LIT (41_rle.md R149). -/
def execSeqLit (b : Byte) (s : State) : Out :=
  finish s (emit [b] (s.advance 1))

/-- SEQ_BLOCK (41_rle.md R150–R152): the body is emitted, the repeat byte is judged, and the further copies are
emitted. `seq_start` is the position just past the opening bracket. -/
def execSeqBlock (_brk : Byte) (body : List Byte) (rep : Byte) (s : State) : Out :=
  finish s do
    let t ← emit body
      { s.advance (body.length + 3) with rle := { s.rle with seqStart := s.cur.rd + 1, rep := rep } }
    let extra ← extraCopies s.cfg.seqRepZero rep
    emit (List.replicate extra body).flatten t

/-- RLE_LIT (41_rle.md R144). -/
def execRleLit (b : Byte) (s : State) : Out :=
  runToken 1 b 1 s

/-- RLE_SRUN (41_rle.md R145). -/
def execRleSrun (_esc n v : Byte) (s : State) : Out :=
  runToken 3 v n.toNat s

/-- RLE_LRUN (41_rle.md R146). -/
def execRleLrun (_esc : Byte) (n : BitVec 16) (v : Byte) (s : State) : Out :=
  runToken 4 v n.toNat s

/-- RLE_IRUN_K2 (41_rle.md R147). -/
def execRleIrunK2 (_esc v : Byte) (s : State) : Out :=
  runToken 2 v (implicitRunLength 2) s

/-- RLE_IRUN_K4 (41_rle.md R147). -/
def execRleIrunK4 (_esc v : Byte) (s : State) : Out :=
  runToken 2 v (implicitRunLength 4) s

/-- RLE_IRUN_K5 (41_rle.md R147). -/
def execRleIrunK5 (_esc v : Byte) (s : State) : Out :=
  runToken 2 v (implicitRunLength 5) s

/-- RLE_IRUN_K6 (41_rle.md R147). -/
def execRleIrunK6 (_esc v : Byte) (s : State) : Out :=
  runToken 2 v (implicitRunLength 6) s

/-- RLE_IRUN_K7 (41_rle.md R147). -/
def execRleIrunK7 (_esc v : Byte) (s : State) : Out :=
  runToken 2 v (implicitRunLength 7) s

/-- RLE_IRUN_K8 (41_rle.md R147). -/
def execRleIrunK8 (_esc v : Byte) (s : State) : Out :=
  runToken 2 v (implicitRunLength 8) s

/-- RLE_IRUN_K9 (41_rle.md R147). -/
def execRleIrunK9 (_esc v : Byte) (s : State) : Out :=
  runToken 2 v (implicitRunLength 9) s

/-- RLE_IRUN_K10 (41_rle.md R147). -/
def execRleIrunK10 (_esc v : Byte) (s : State) : Out :=
  runToken 2 v (implicitRunLength 10) s

end Sys2Proof.Machine
end

