-- ==== Sys2Proof/Machine/Vle.lean ====
section
/-! DEFINITION. The meanings of the VLE engine's tokens (42_vle.md). -/

namespace Sys2Proof.Machine

/-! ### The header: tables -/

/-- One step of the canonical-code recurrence, for the count `c` of table index `i` (42_vle.md R173). -/
def countStep (i : Nat) (c : Byte) (v : VleRegs) : VleRegs :=
  let doubled := v.widthSum + v.widthSum
  let sum := doubled + c.setWidth 32
  { v with
    escBase := v.escBase.setIfInBounds i (v.alphabetLength - doubled)
    widthSum := sum
    alphabetLength := v.alphabetLength + c.setWidth 32
    escLimit := v.escLimit.setIfInBounds i sum }

/-- The recurrence over the counts, from table index `i` on (42_vle.md R173). -/
def countLoop : Nat → List Byte → VleRegs → VleRegs
  | _, [], v => v
  | i, c :: cs, v => countLoop (i + 1) cs (countStep i c v)

/-- `W`, the cleared tables, the recurrence, and the alphabet (42_vle.md R170, R172, R173, R177). -/
def VleRegs.withCounts (v : VleRegs) (counts alphabet : List Byte) : VleRegs :=
  let v := countLoop 0 counts
    { v with
      W := counts.length
      escBase := Vector.replicate 16 0
      escLimit := Vector.replicate 16 0
      alphabetLength := 0
      widthSum := 0 }
  { v with alphabet := overlay v.alphabet alphabet }

/-- The direct table while it is built: the next free entry `p`, the next alphabet index `a`, and the two
arrays (42_vle.md R179). -/
structure Direct where
  p : Nat
  a : Nat
  symbols : Vector Byte 256
  widths : Vector Byte 256
  deriving DecidableEq, Repr

/-- Places `c` symbols of width `w`, each in `spw` entries, after the check of 42_vle.md R180. -/
def placeSymbols (alphabet : Vector Byte 256) (w spw : Nat) : Nat → Direct → Except Stop Direct
  | 0, d => .ok d
  | c + 1, d =>
    if d.p + spw > 256 then .error (.raise .badVLEHeader)
    else
      placeSymbols alphabet w spw c
        { p := d.p + spw
          a := d.a + 1
          symbols := fillRange d.symbols d.p spw ((alphabet[d.a]?).getD 0)
          widths := fillRange d.widths d.p spw (BitVec.ofNat 8 w) }

/-- The loop over the widths, `w` and `spw` being those of the first count listed (42_vle.md R179). -/
def placeWidths (alphabet : Vector Byte 256) : List Byte → Nat → Nat → Direct → Except Stop Direct
  | [], _, _, d => .ok d
  | c :: cs, w, spw, d => do
    let d ← placeSymbols alphabet w spw c.toNat d
    placeWidths alphabet cs (w + 1) (spw >>> 1) d

/-- The direct lookup table from the first 8 counts, then the fill with `VLE_ESCAPE_WIDTH`
(42_vle.md R179–R181). -/
def VleRegs.withDirect (v : VleRegs) (counts : List Byte) : Except Stop VleRegs := do
  let d ← placeWidths v.alphabet (counts.take 8) 1 128
    { p := 0, a := 0, symbols := v.symbols, widths := v.widths }
  .ok { v with
    symbols := fillRange d.symbols d.p (256 - d.p) 0
    widths := fillRange d.widths d.p (256 - d.p) vleEscapeWidth }

/-- VLE_INIT (42_vle.md R183): the two window bytes. -/
def initWindow (s : State) : Except Stop State := do
  let (hi, s) ← readByte s
  let (lo, s) ← readByte s
  .ok { s with
    win.word := (hi.setWidth 16 <<< 8) ||| lo.setWidth 16
    win.br := 8
    phase := .vdec }

/-- VLE_HDR (42_vle.md R170–R183). The counts are read once, by the decoder: the `PeekAt` of R178 and R179 reads
the same bytes again (20_memory.md R68, R72; log 11). -/
def execVleHdr (counts alphabet : List Byte) (s : State) : Out :=
  finish s do
    let codesOffset := s.cur.rd + 1 + counts.length + alphabet.length
    let v ← (s.vle.withCounts counts alphabet).withDirect counts
    initWindow
      { s with
        vle := { v with widthsOffset := s.cur.rd + 1, codesOffset := codesOffset }
        cur.rd := codesOffset }

/-! ### The bit-stream decoder -/

/-- The window shift by `w` bits, `1 ≤ w ≤ 8`, with its refill (42_vle.md R186). -/
def shiftWindow (w : Nat) (s : State) : Except Stop State :=
  if s.win.br < w then do
    let word := s.win.word <<< s.win.br
    let w' := w - s.win.br
    let (b, s) ← readByte s
    .ok { s with win.word := (word ||| b.setWidth 16) <<< w', win.br := 8 - w' }
  else
    .ok { s with win.word := s.win.word <<< w, win.br := s.win.br - w }

/-- A short code of width `w` (42_vle.md R185, R186): the symbol is emitted, and the window is shifted unless
the output is now full. -/
def shortCode (w : Nat) (pfx : Byte) (s : State) : Out :=
  finish s do
    let t ← emit [s.vle.symbols[pfx.toNat]'pfx.isLt] s
    if t.dest.wr = t.dest.dstLen then .ok t else shiftWindow w t

/-- VLE_SHORT_W1 (42_vle.md R185, R186). -/
def execVleShortW1 (pfx : Byte) (s : State) : Out :=
  shortCode 1 pfx s

/-- VLE_SHORT_W2 (42_vle.md R185, R186). -/
def execVleShortW2 (pfx : Byte) (s : State) : Out :=
  shortCode 2 pfx s

/-- VLE_SHORT_W3 (42_vle.md R185, R186). -/
def execVleShortW3 (pfx : Byte) (s : State) : Out :=
  shortCode 3 pfx s

/-- VLE_SHORT_W4 (42_vle.md R185, R186). -/
def execVleShortW4 (pfx : Byte) (s : State) : Out :=
  shortCode 4 pfx s

/-- VLE_SHORT_W5 (42_vle.md R185, R186). -/
def execVleShortW5 (pfx : Byte) (s : State) : Out :=
  shortCode 5 pfx s

/-- VLE_SHORT_W6 (42_vle.md R185, R186). -/
def execVleShortW6 (pfx : Byte) (s : State) : Out :=
  shortCode 6 pfx s

/-- VLE_SHORT_W7 (42_vle.md R185, R186). -/
def execVleShortW7 (pfx : Byte) (s : State) : Out :=
  shortCode 7 pfx s

/-- VLE_SHORT_W8 (42_vle.md R185, R186). -/
def execVleShortW8 (pfx : Byte) (s : State) : Out :=
  shortCode 8 pfx s

/-- The refill of an escape-loop iteration (42_vle.md R188). -/
def escRefill (s : State) : Except Stop State :=
  if s.win.br = 0 then do
    let (b, s) ← readByte s
    .ok { s with win.cs := b, win.br := 8 }
  else .ok s

/-- The bit step of an escape-loop iteration (42_vle.md R189). -/
def escBit (s : State) : State :=
  { s with
    win.word := (s.win.word <<< 1) ||| (BitVec.ofBool (highBit s.win.cs)).setWidth 16
    win.cs := s.win.cs <<< 1
    win.br := s.win.br - 1
    win.escIndex := s.win.escIndex + 1 }

/-- The escape loop (42_vle.md R188–R191), with fuel for its iterations: the width limit of R190 ends it in the
9th, so a fuel of 9 from `esc_index = 7` is never used up. -/
def escapeLoop : Nat → State → Except Stop State
  | 0, _ => .error (.raise .badVLECode)
  | fuel + 1, s => do
    let t ← escRefill s
    let u := escBit t
    if h : u.win.escIndex < escIndexLimit then
      if (u.win.word.toNat : Int) < (u.vle.escLimit[u.win.escIndex]).toInt then
        let idx := u.win.word + (u.vle.escBase[u.win.escIndex]).setWidth 16
        if h : idx.toNat < 256 then emit [u.vle.alphabet[idx.toNat]] u
        else .error (.raise .badVLECode)
      else escapeLoop fuel u
    else .error (.raise .badVLECode)

/-- The window reload after the escape loop (42_vle.md R192). -/
def reloadWindow (s : State) : Except Stop State := do
  let (b, t) ← readByte s
  let word := (s.win.cs.setWidth 16 <<< s.win.br) ||| b.setWidth 16
  let w := 8 - s.win.br
  .ok { t with win.word := word <<< w, win.br := 8 - w }

/-- The entry of a long code (42_vle.md R187): the prefix moves to the low byte of `word`, and the old low byte
is the bit source. -/
def enterLong (pfx : Byte) (s : State) : State :=
  { s with
    win.cs := lowByteOf s.win.word
    win.word := pfx.setWidth 16
    win.escIndex := 7 }

/-- VLE_LONG (42_vle.md R187–R192). -/
def execVleLong (pfx : Byte) (s : State) : Out :=
  finish s do
    let t ← escapeLoop 9 (enterLong pfx s)
    if t.dest.wr = t.dest.dstLen then .ok t else reloadWindow t

end Sys2Proof.Machine
end

