-- ==== Sys2Proof/Machine/Dispatch.lean ====
section
/-! DEFINITION. Which meaning each instruction has: one arm per constructor. -/

namespace Sys2Proof.Machine

def exec (i : Instr) (s : State) : Host.Outcome State Fault Refusal :=
  match i with
  | .runStart => Sys2Proof.Machine.execRunStart s
  | .chdrSingle x => Sys2Proof.Machine.execChdrSingle x s
  | .chdrMulti x => Sys2Proof.Machine.execChdrMulti x s
  | .passEntry => Sys2Proof.Machine.execPassEntry s
  | .phdrRle x => Sys2Proof.Machine.execPhdrRle x s
  | .phdrVle x => Sys2Proof.Machine.execPhdrVle x s
  | .rhdrNoseq x => Sys2Proof.Machine.execRhdrNoseq x s
  | .rhdrSeq x => Sys2Proof.Machine.execRhdrSeq x s
  | .seqLit x => Sys2Proof.Machine.execSeqLit x s
  | .seqBlock x y z => Sys2Proof.Machine.execSeqBlock x y z s
  | .rleLit x => Sys2Proof.Machine.execRleLit x s
  | .rleSrun x y z => Sys2Proof.Machine.execRleSrun x y z s
  | .rleIrunK2 x y => Sys2Proof.Machine.execRleIrunK2 x y s
  | .rleLrun x y z => Sys2Proof.Machine.execRleLrun x y z s
  | .rleIrunK4 x y => Sys2Proof.Machine.execRleIrunK4 x y s
  | .rleIrunK5 x y => Sys2Proof.Machine.execRleIrunK5 x y s
  | .rleIrunK6 x y => Sys2Proof.Machine.execRleIrunK6 x y s
  | .rleIrunK7 x y => Sys2Proof.Machine.execRleIrunK7 x y s
  | .rleIrunK8 x y => Sys2Proof.Machine.execRleIrunK8 x y s
  | .rleIrunK9 x y => Sys2Proof.Machine.execRleIrunK9 x y s
  | .rleIrunK10 x y => Sys2Proof.Machine.execRleIrunK10 x y s
  | .vleHdr x y => Sys2Proof.Machine.execVleHdr x y s
  | .vleShortW1 x => Sys2Proof.Machine.execVleShortW1 x s
  | .vleShortW2 x => Sys2Proof.Machine.execVleShortW2 x s
  | .vleShortW3 x => Sys2Proof.Machine.execVleShortW3 x s
  | .vleShortW4 x => Sys2Proof.Machine.execVleShortW4 x s
  | .vleShortW5 x => Sys2Proof.Machine.execVleShortW5 x s
  | .vleShortW6 x => Sys2Proof.Machine.execVleShortW6 x s
  | .vleShortW7 x => Sys2Proof.Machine.execVleShortW7 x s
  | .vleShortW8 x => Sys2Proof.Machine.execVleShortW8 x s
  | .vleLong x => Sys2Proof.Machine.execVleLong x s
  | .passEnd => Sys2Proof.Machine.execPassEnd s
  | .passChain => Sys2Proof.Machine.execPassChain s
  | .runDone => Sys2Proof.Machine.execRunDone s

end Sys2Proof.Machine
end

