-- ==== Sys2Proof/Machine/Flags.lean ====
section
/-! DEFINITION. The 1-bit state of the core (10_state.md R51): the STATUS bits, which are a function of `phase`
(R42), and the error codes. `no_seq` is a register; there are no arithmetic flags and no condition codes. -/

namespace Sys2Proof.Machine

/-- `STATUS.BUSY` (10_state.md R42). -/
def Phase.busy : Phase → Bool
  | .idle | .done | .error => false
  | .chdr | .phdr | .rhdr | .seq | .sbr | .vhdr | .vdec | .pend => true

/-- `STATUS.DONE` (10_state.md R42). -/
def Phase.isDone (p : Phase) : Bool :=
  decide (p = .done)

/-- `STATUS.ERROR` (10_state.md R42). -/
def Phase.isError (p : Phase) : Bool :=
  decide (p = .error)

/-- The `STATUS` register: bit 0 BUSY, bit 1 DONE, bit 2 ERROR, the rest 0 (10_state.md R40, R42). -/
def Phase.status (p : Phase) : BitVec 32 :=
  (BitVec.ofBool p.isError ++ BitVec.ofBool p.isDone ++ BitVec.ofBool p.busy).setWidth 32

/-- The error codes of `ERR_KIND[3:0]` (60_exceptions.md R210). -/
def ErrKind.code : ErrKind → BitVec 4
  | .none => 0
  | .inputTooLarge => 1
  | .truncated => 2
  | .overflowOutput => 3
  | .underflowOutput => 4
  | .badAlgorithmTag => 5
  | .badRLEEscapeTable => 6
  | .badVLEHeader => 7
  | .badVLECode => 8
  | .allocationFailed => 9
  | .badContainerHeader => 10
  | .badSequenceRepeat => 11

end Sys2Proof.Machine
end

