-- ==== Sys2Proof/Machine/Fetch.lean ====
section
/-! DEFINITION. What a step does around the meanings: the loop heads, fetching a token, and the errors of a
token that cannot be read. Step.lean only calls this. -/

namespace Sys2Proof.Machine

/-- The decoding context of a state, by its phase (30_encoding.md R85, R105). In IDLE, DONE and ERROR nothing is
decoded. In CHDR and PHDR it is the context of the header, which follows RUN_START or PASS_ENTRY in the same
step (40_driver.md R115, R118). -/
def State.context (s : State) : Option Ctx :=
  match s.phase with
  | .idle | .done | .error => none
  | .chdr => some .chdr
  | .phdr => some .phdr
  | .rhdr => some .rhdr
  | .seq => some (.seq s.rle.bracket)
  | .sbr => some (.sbr (decide (s.dest.wr = s.dest.dstLen)) s.rle.escLookup)
  | .vhdr => some .vhdr
  | .vdec => some (.vdec (decide (s.dest.wr = s.dest.dstLen)) s.vle.widths)
  | .pend => some (.pend (decide (s.pass.passIndex + 1 = s.pass.passCount)))

/-- The context read before the header in the same step (40_driver.md R115, R118). -/
def State.entryContext (s : State) : Option Ctx :=
  match s.phase with
  | .chdr => some .runStart
  | .phdr => some .passEntry
  | .idle | .rhdr | .seq | .sbr | .vhdr | .vdec | .pend | .done | .error => none

/-- The slots a token is decoded from: the rest of the source, or, in VDEC, the prefix in the window
(42_vle.md R184). -/
def State.tokenSlots (s : State) : List Slot :=
  if s.phase = .vdec then [some (prefixOf s.win.word)] else s.srcSlots

/-- What a loop head finds. -/
inductive Fetched where
  /-- A token of the opcode table. -/
  | instr (i : Instr)
  /-- A token that cannot be read. -/
  | reject (r : Reject)
  /-- SBR with the source exhausted and the output not full (41_rle.md R143). -/
  | underflow
  /-- SEQ with the source exhausted (41_rle.md R148). -/
  | seqEnd
  /-- No core step runs in this phase (10_state.md R22). -/
  | idle
  deriving DecidableEq, Repr

/-- The loop head of the phase (41_rle.md R143, R148, 42_vle.md R184), then the decoder. -/
def fetch (s : State) : Fetched :=
  match s.context with
  | none => .idle
  | some c =>
    if s.phase = .seq ∧ s.cur.rd = s.cur.srcLen then .seqEnd
    else if s.phase = .sbr ∧ s.dest.wr ≠ s.dest.dstLen ∧ s.cur.rd = s.cur.srcLen then .underflow
    else
      match decode c s.tokenSlots with
      | .ok i => .instr i
      | .error r => .reject r

/-- The error of a token that cannot be read, in the order of the rule's checks (60_exceptions.md R215):
an oversize pass comes before its unknown tag (item 3), and a body byte that overflows TMP before the end of the
source (item 7). -/
def rejected (s : State) : Reject → Out
  | .truncated => .next (s.raise .truncated)
  | .unwritten => .fault .unwrittenByte
  | .blockCut got hole =>
    if s.dest.dstLen < s.wrCursor + got then .next (s.raise .overflowOutput)
    else if hole then .fault .unwrittenByte
    else .next (s.raise .truncated)
  | .badAlgorithmTag size =>
    if size.toNat > s.cfg.bufCapacity then .next (s.raise .allocationFailed)
    else .next (s.raise .badAlgorithmTag)
  | .badRLEEscapeTable => .next (s.raise .badRLEEscapeTable)
  | .badVLEHeader => .next (s.raise .badVLEHeader)
  | .badVLECode => .next (s.raise .badVLECode)

/-- What is fetched in `t` is run; an error is raised from `s`, the state before the step. In IDLE, DONE and ERROR
the core stays as it is (60_exceptions.md R228; log 3). -/
def runFetched (ex : Instr → State → Out) (s t : State) : Out :=
  match fetch t with
  | .instr i => ex i t
  | .reject r => rejected s r
  | .underflow => .next (s.raise .underflowOutput)
  | .seqEnd => .next (endPrePass t)
  | .idle => .next t

/-- One step, given what each instruction does: RUN_START or PASS_ENTRY first where the phase has one, and the
header in the same step unless that raised an error (40_driver.md R115, R118). -/
def stepWith (ex : Instr → State → Out) (s : State) : Out :=
  match s.entryContext with
  | none => runFetched ex s s
  | some c =>
    match decode c [] with
    | .error r => rejected s r
    | .ok i =>
      match ex i s with
      | .next t => if t.phase = .error then .next t else runFetched ex s t
      | .fault f => .fault f
      | .refused r => .refused r

/-- A table word laid down as the next instruction (log 13). The word's bytes are the container, IN_LEN covers
them, and the phase, the tables and the destination are those of the word's context; everything else is kept. -/
def placeWord (s : State) (nbits w : Nat) : State :=
  let loaded := { s with
    buf.inMem := s.buf.inMem.store 0 (tableBytes w)
    host.inLen := 4
    cur := { rd := 0, srcLen := 4, src := .inMem } }
  match tableCtx nbits w with
  | .sbr _ lookup =>
    { loaded with
      phase := .sbr
      rle.escLookup := lookup
      dest := { s.dest with dst := .out, wr := 0, dstLen := 16 }
      buf.out := [] }
  | .vdec _ widths =>
    { loaded with
      phase := .vdec
      vle.widths := widths
      win.word := BitVec.ofNat 8 w ++ (0 : Byte)
      win.br := 8
      dest := { s.dest with dst := .out, wr := 0, dstLen := 16 }
      buf.out := [] }
  | _ => { loaded with phase := .chdr }

end Sys2Proof.Machine
end

