-- ==== Sys2Proof/Machine/Step.lean ====
section
/-! DEFINITION. One step of the core, and a table word placed where the next step fetches. -/

namespace Sys2Proof.Machine

/-- One atomic step of the core (00_scope.md R11, 10_state.md R20). -/
def step (s : State) : Host.Outcome State Fault Refusal :=
  stepWith exec s

/-- `s` with a table word placed so that the very next step runs it (log 13). -/
def State.withFetchWord (s : State) (nbits w : Nat) : State :=
  placeWord s nbits w

end Sys2Proof.Machine
end

