-- ==== Sys2Proof/Machine/HostPort.lean ====
section
/-! DEFINITION. The host interface: the register block (10_state.md R40–R48), the input memory and the result
(60_exceptions.md R221–R224), and reset (70_reset_and_hazards.md R240, R241). Host accesses are no part of any
core step; they land between steps (10_state.md R48, 92_eei_decisions.md D1). -/

namespace Sys2Proof.Machine

/-- The registers of the block (10_state.md R40). -/
inductive HostReg where
  | ctrl | status | errKind | errPass | inLen | resultLen | passCount | passIndex
  /-- Offset 0x20 or above: reads 0, writes ignored. -/
  | reserved
  deriving DecidableEq, Repr

/-- The register at an offset of the block (10_state.md R40); none where no 32-bit register begins. -/
def HostReg.at (off : Nat) : Option HostReg :=
  match off with
  | 0x00 => some .ctrl
  | 0x04 => some .status
  | 0x08 => some .errKind
  | 0x0C => some .errPass
  | 0x10 => some .inLen
  | 0x14 => some .resultLen
  | 0x18 => some .passCount
  | 0x1C => some .passIndex
  | _ => if off % 4 = 0 then some .reserved else none

/-- The value a register shows (10_state.md R40–R47). -/
def State.regValue (s : State) : HostReg → BitVec 32
  | .ctrl | .reserved => 0
  | .status => s.phase.status
  | .errKind => s.host.errKind.code.setWidth 32
  | .errPass => (BitVec.ofNat 7 s.host.errPass).setWidth 32
  | .inLen => s.host.inLen
  | .resultLen => (BitVec.ofNat 24 s.host.resultLen).setWidth 32
  | .passCount => (BitVec.ofNat 7 s.pass.passCount).setWidth 32
  | .passIndex => (BitVec.ofNat 7 s.pass.passIndex).setWidth 32

/-- A host read of a register; it changes no state (10_state.md R48). -/
def readReg (off : Nat) (s : State) : Except Refusal (BitVec 32) :=
  match HostReg.at off with
  | some r => .ok (s.regValue r)
  | none => .error .noSuchPlace

/-- START (60_exceptions.md R221). -/
def State.startRun (s : State) : State :=
  { s.discardBuffers with
    host.errKind := .none
    host.errPass := 0
    host.resultLen := 0
    pass.passCount := 0
    pass.passIndex := 0
    cur := { rd := 0, srcLen := s.host.inLen.toNat, src := .inMem }
    phase := .chdr }

/-- A write of `CTRL`: START if bit 0 is set and the core is not busy, otherwise ignored
(10_state.md R41, 60_exceptions.md R221, R222). -/
def State.writeCtrl (v : BitVec 32) (s : State) : State :=
  if v.getLsbD 0 && !s.phase.busy then s.startRun else s

/-- A write of `IN_LEN`: ignored while the core is busy (10_state.md R45, 60_exceptions.md R223). -/
def State.writeInLen (v : BitVec 32) (s : State) : State :=
  if s.phase.busy then s else { s with host.inLen := v }

/-- A host write of a register; a read-only or reserved register ignores it (10_state.md R48). -/
def writeReg (off : Nat) (v : BitVec 32) (s : State) : Out :=
  match HostReg.at off with
  | some .ctrl => .next (s.writeCtrl v)
  | some .inLen => .next (s.writeInLen v)
  | some .status | some .errKind | some .errPass | some .resultLen | some .passCount
  | some .passIndex | some .reserved => .next s
  | none => .refused .noSuchPlace

/-- A host write of one `IN_MEM` byte; refused while the core is busy (10_state.md R49, 60_exceptions.md R223,
70_reset_and_hazards.md R245). -/
def writeInput (pos : Nat) (b : Byte) (s : State) : Out :=
  if s.phase.busy then .refused .inputWriteWhileBusy
  else if pos < maxInLen then .next { s with buf.inMem := s.buf.inMem.store pos [b] }
  else .refused .noSuchPlace

/-- A host read of one `RESULT` byte; it changes no state (60_exceptions.md R224). -/
def readResult (pos : Nat) (s : State) : Except Refusal Byte :=
  if s.phase = .done ∧ pos < s.host.resultLen then
    match s.buf.result.read pos with
    | some b => .ok b
    | none => .error .resultNotReadable
  else .error .resultNotReadable

/-- The reset input (70_reset_and_hazards.md R240, R241): every state element takes its reset value; the
configuration is no state and stays (log 1). -/
def State.applyReset (s : State) : State :=
  { State.reset with cfg := s.cfg }

/-- What the host can do to the core. -/
inductive HostCmd where
  | writeReg (off : Nat) (v : BitVec 32)
  | writeInput (pos : Nat) (b : Byte)
  | reset
  deriving DecidableEq, Repr

/-- The effect of a host command. -/
def hostStep : HostCmd → State → Out
  | .writeReg off v, s => writeReg off v s
  | .writeInput pos b, s => writeInput pos b s
  | .reset, s => .next s.applyReset

/-! ### Host addresses (20_memory.md R74) -/

/-- A position of a window of the host's address space, whose base is `base`. -/
def positionIn (base addr : Nat) : Option Nat :=
  if base ≤ addr then some (addr - base) else none

/-- A host word write at an address of the register block. -/
def busWriteReg (addr : Nat) (v : BitVec 32) (s : State) : Out :=
  match positionIn s.cfg.regBase addr with
  | some off => writeReg off v s
  | none => .refused .noSuchPlace

/-- A host word read at an address of the register block. -/
def busReadReg (addr : Nat) (s : State) : Except Refusal (BitVec 32) :=
  match positionIn s.cfg.regBase addr with
  | some off => readReg off s
  | none => .error .noSuchPlace

/-- A host byte write at an address of the input memory. -/
def busWriteInput (addr : Nat) (b : Byte) (s : State) : Out :=
  match positionIn s.cfg.inBase addr with
  | some pos => writeInput pos b s
  | none => .refused .noSuchPlace

/-- A host byte read at an address of the result. -/
def busReadResult (addr : Nat) (s : State) : Except Refusal Byte :=
  match positionIn s.cfg.resultBase addr with
  | some pos => readResult pos s
  | none => .error .noSuchPlace

/-- Steps 2 and 3 of the host sequence (70_reset_and_hazards.md R244) on an idle core: a container is written at
position 0 and `IN_LEN` is its length. -/
def State.loadContainer (bytes : List Byte) (s : State) : State :=
  { s with
    buf.inMem := s.buf.inMem.store 0 bytes
    host.inLen := BitVec.ofNat 32 bytes.length }

end Sys2Proof.Machine
end

