-- ==== Sys2Proof/Safety.lean ====
section
/-! DEFINITION. The terms claims are stated in: which states are sound, what a safe step is, the canonical code
of the VLE format and the bits a state still has to decode. -/

namespace Sys2Proof.Machine

/-! ### Sound states -/

/-- Every memory is in canonical form, and `IN_MEM` has no position beyond its last (10_state.md R49). -/
structure Buffers.Canonical (b : Buffers) : Prop where
  inMem : b.inMem.wf
  out : b.out.wf
  tmp : b.tmp.wf
  prevOut : b.prevOut.wf
  result : b.result.wf
  inMemSize : ∀ c ∈ b.inMem, c.1 < maxInLen

/-- Exactly the positions below `n` have been written. -/
def Memory.FilledTo (m : Memory) (n : Nat) : Prop :=
  ∀ a, (m.read a).isSome = true ↔ a < n

/-- The phases in which a pass has its output buffer (40_driver.md R121, R125). -/
def Phase.inPass : Phase → Bool
  | .rhdr | .seq | .sbr | .vhdr | .vdec | .pend => true
  | .idle | .chdr | .phdr | .done | .error => false

/-- The cursors' ranges (10_state.md R23–R25, R32). `src_len` may exceed the cap between START and the check of
RUN_START, and after the InputTooLarge that follows (60_exceptions.md R221, 40_driver.md R115). -/
structure State.CursorsSound (s : State) : Prop where
  rdLe : s.cur.rd ≤ s.cur.srcLen
  srcLenLe : s.phase ≠ .chdr → s.phase ≠ .error → s.cur.srcLen ≤ maxInLen
  wrLe : s.dest.wr ≤ s.dest.dstLen
  tmpWrLe : s.phase = .seq ∨ (s.phase.busy ∧ s.cur.src = .tmp) → s.dest.tmpWr ≤ s.dest.dstLen
  dstLenEq : s.dest.dstLen = s.pass.subFileSize.toNat
  seqDst : s.phase = .seq → s.dest.dst = .tmp
  passDst : s.phase.inPass → s.phase ≠ .seq → s.dest.dst = .out
  chdrStart : s.phase = .chdr → s.cur.rd = 0 ∧ s.cur.src = .inMem
  inputLen : s.phase.busy → s.cur.src = .inMem → s.cur.srcLen = s.host.inLen.toNat
  tmpSrc : s.phase.busy → s.cur.src = .tmp → s.phase = .sbr ∨ s.phase = .pend
  tmpSrcLen : s.phase.busy → s.cur.src = .tmp → s.cur.srcLen = s.dest.tmpWr

/-- The pass counters' ranges, and which pass reads which source (10_state.md R24, R26, R44). -/
structure State.PassesSound (s : State) : Prop where
  countLe : s.pass.passCount ≤ 127
  indexLe : s.pass.passIndex ≤ 127
  errPassLe : s.host.errPass ≤ 127
  chdrZero : s.phase = .chdr → s.pass.passIndex = 0 ∧ s.pass.passCount = 0
  phdrLt : s.phase = .phdr → s.pass.passCount ≠ 0 → s.pass.passIndex < s.pass.passCount
  phdrZero : s.phase = .phdr → s.pass.passCount = 0 → s.pass.passIndex = 0
  passLt : s.phase.inPass → s.pass.passIndex < s.pass.passCount
  inMemPass : s.phase.busy → s.cur.src = .inMem → s.pass.passIndex = 0
  prevOutPass : s.phase.busy → s.cur.src = .prevOut → 0 < s.pass.passIndex

/-- What the buffers hold (20_memory.md R70, R80, 40_driver.md R125, R126, R130). TMP holds bytes only in the pre-pass
and in the single-byte-run phase that reads it; in PEND the source may still name it, and nothing is read
(10_state.md R32). -/
structure State.BuffersSound (s : State) : Prop where
  outFilled : s.phase.inPass → s.buf.out.FilledTo s.dest.wr
  pendFull : s.phase = .pend → s.dest.wr = s.dest.dstLen
  tmpFilled : s.phase = .seq → s.buf.tmp.FilledTo s.dest.tmpWr
  tmpGone : s.phase ≠ .seq → ¬(s.phase = .sbr ∧ s.cur.src = .tmp) → s.buf.tmp = []
  srcWritten : s.phase.busy → s.cur.src ≠ .inMem → ¬(s.phase = .pend ∧ s.cur.src = .tmp) →
    ∀ a < s.cur.srcLen, (s.srcMem.read a).isSome = true
  resultFilled : s.phase = .done → s.buf.result.FilledTo s.host.resultLen
  resultSize : s.phase = .done → s.host.resultLen = s.pass.subFileSize.toNat
  resultNone : s.phase ≠ .done → s.buf.result = [] ∧ s.host.resultLen = 0
  errIff : s.phase = .error ↔ s.host.errKind ≠ .none

/-- The RLE engine's registers (10_state.md R28–R31, R33, 41_rle.md R142, R153): the bracket is the escape byte at
index 1, TMP never holds it, and only that byte can select an implicit run of length 1. `seq_start` is used inside
one SEQ_BLOCK alone (R33) and outlives the source it points into, so that its range here is that of any source. -/
structure State.RleSound (s : State) : Prop where
  escNLe : s.rle.escN ≤ maxEscapes
  noSeqEq : s.rle.noSeq = highBit s.rle.escLen
  escNEq : s.rle.escN = (low7 s.rle.escLen).toNat
  seqStartLe : s.rle.seqStart ≤ maxInLen
  seqEscapes : s.phase = .seq → s.rle.noSeq = false ∧ 2 ≤ s.rle.escN
  seqBracket : s.phase = .seq ∨ (s.phase = .sbr ∧ s.cur.src = .tmp) →
    s.rle.bracket = s.rle.escCodes[1] ∧ ∀ a, s.buf.tmp.read a ≠ some s.rle.bracket
  selectorTwo : s.phase = .seq ∨ s.phase = .sbr →
    ∀ b : Byte, (s.rle.escLookup[b.toNat]'b.isLt).val = 2 → b = s.rle.escCodes[1]

/-- The window at a code boundary: at most 8 bits are left in the low byte, and the bits below them are 0
(10_state.md R39, 42_vle.md section 2, the invariant before R184). -/
structure Window.AtBoundary (w : Window) : Prop where
  brLe : w.br ≤ 8
  lowZero : w.word.toNat % 2 ^ (8 - w.br) = 0

/-- The widths a direct-table entry may hold (10_state.md R38). -/
def legalWidth (w : Byte) : Bool :=
  (decide (1 ≤ w.toNat) && decide (w.toNat ≤ 8)) || decide (w = vleEscapeWidth)

/-- The VLE engine (10_state.md R34–R36, R38, R39, 42_vle.md R176). The offsets and the direct table are those of the
current pass while it decodes; the other ranges hold in every phase. `esc_index` is 0 until the first long code and
then the index at which the last one matched, 8 … 15; the 7 and the 16 of R39 occur inside a step. -/
structure State.VleSound (s : State) : Prop where
  window : s.phase = .vdec → s.dest.wr ≠ s.dest.dstLen → s.win.AtBoundary
  brLe : s.win.br ≤ 8
  escIndexRange : s.win.escIndex = 0 ∨ (8 ≤ s.win.escIndex ∧ s.win.escIndex ≤ 15)
  wLe : s.vle.W ≤ maxWidths
  offsets : s.phase = .vdec →
    s.vle.widthsOffset + s.vle.W + s.vle.alphabetLength.toNat = s.vle.codesOffset ∧ s.vle.codesOffset ≤ s.cur.rd
  alphabetLe : s.vle.alphabetLength.toNat ≤ maxAlphabet
  widthSumRange : 0 ≤ s.vle.widthSum.toInt ∧ s.vle.widthSum.toInt ≤ 8355585
  tableRanges : ∀ i (h : i < 16), (0 ≤ (s.vle.escLimit[i]).toInt ∧ (s.vle.escLimit[i]).toInt ≤ 8355585) ∧
    (-8351760 ≤ (s.vle.escBase[i]).toInt ∧ (s.vle.escBase[i]).toInt ≤ 0)
  tableTail : ∀ i (h : i < 16), s.vle.W ≤ i → s.vle.escLimit[i] = 0 ∧ s.vle.escBase[i] = 0
  widthsLegal : s.phase = .vdec → ∀ p : Byte, legalWidth (s.vle.widths[p.toNat]'p.isLt) = true
  escapeSymbols : s.phase = .vdec → ∀ p : Byte, s.vle.widths[p.toNat]'p.isLt = vleEscapeWidth →
    s.vle.symbols[p.toNat]'p.isLt = 0

/-- A sound state: the ranges the spec gives the core's registers between steps, and what it says the buffers and
tables hold, each in the phases in which it holds. -/
structure State.Sound (s : State) : Prop where
  memories : s.buf.Canonical
  cursors : s.CursorsSound
  passes : s.PassesSound
  buffers : s.BuffersSound
  rle : s.RleSound
  vle : s.VleSound

/-- The host's part of the contract: it has written every byte below `IN_LEN` (70_reset_and_hazards.md R242,
R244). -/
def State.InputLoaded (s : State) : Prop :=
  ∀ a < s.host.inLen.toNat, (s.buf.inMem.read a).isSome = true

/-! ### Safe steps -/

/-- The core ends a step in a next state: it neither faults nor is refused. -/
def Steps (s : State) : Prop :=
  ∃ t, step s = .next t

/-- The run has ended (10_state.md R22). -/
def Phase.ended (p : Phase) : Bool :=
  p.isDone || p.isError

/-- The most steps a run takes (40_driver.md R131). -/
abbrev runBound : Nat := 2 + 127 * (2 * 16777215 + 8)

/-- The control transfers of the core (40_driver.md R129). -/
def Phase.edge : Phase → Phase → Bool
  | .chdr, .phdr | .phdr, .rhdr | .phdr, .vhdr | .rhdr, .sbr | .rhdr, .seq | .seq, .sbr | .sbr, .pend
  | .vhdr, .vdec | .vdec, .pend | .pend, .phdr | .pend, .done => true
  | .chdr, .error | .phdr, .error | .rhdr, .error | .seq, .error | .sbr, .error | .vhdr, .error
  | .vdec, .error => true
  | .seq, .seq | .sbr, .sbr | .vdec, .vdec => true
  | .idle, .idle | .done, .done | .error, .error => true
  | _, _ => false

/-! ### Tokens by shape -/

/-- A single-byte-run token's length in bytes, its value and its run length (30_encoding.md R92,
41_rle.md R144–R147). -/
def runLayout : Instr → Option (Nat × Byte × Nat)
  | .rleLit b => some (1, b, 1)
  | .rleSrun _ n v => some (3, v, n.toNat)
  | .rleLrun _ n v => some (4, v, n.toNat)
  | .rleIrunK2 _ v => some (2, v, 1)
  | .rleIrunK4 _ v => some (2, v, 3)
  | .rleIrunK5 _ v => some (2, v, 4)
  | .rleIrunK6 _ v => some (2, v, 5)
  | .rleIrunK7 _ v => some (2, v, 6)
  | .rleIrunK8 _ v => some (2, v, 7)
  | .rleIrunK9 _ v => some (2, v, 8)
  | .rleIrunK10 _ v => some (2, v, 9)
  | _ => none

/-- A short code's width and prefix (30_encoding.md R97). -/
def shortLayout : Instr → Option (Nat × Byte)
  | .vleShortW1 pfx => some (1, pfx)
  | .vleShortW2 pfx => some (2, pfx)
  | .vleShortW3 pfx => some (3, pfx)
  | .vleShortW4 pfx => some (4, pfx)
  | .vleShortW5 pfx => some (5, pfx)
  | .vleShortW6 pfx => some (6, pfx)
  | .vleShortW7 pfx => some (7, pfx)
  | .vleShortW8 pfx => some (8, pfx)
  | _ => none

/-- The bytes of a token that are reserved: they are present and never examined (30_encoding.md R100). -/
def reservedAt : Instr → Nat → Bool
  | .chdrMulti _, j => decide (1 ≤ j)
  | .rhdrNoseq _, j | .rhdrSeq _, j => decide (j < 4)
  | _, _ => false

/-- How often a block's body is emitted in all (41_rle.md R150, R151): `rep` times; for `rep = 0` once or 256 times
as `SEQ_REP_ZERO` says, and with `Fault` not at all. -/
def totalCopies (z : SeqRepZero) (rep : Byte) : Option Nat :=
  if rep = 0 then
    match z with
    | .fault => none
    | .noExtra => some 1
    | .wrap255 => some 256
  else some rep.toNat

/-- A step changed nothing but the read and write cursors and one destination buffer: every other register, table
and memory is as before. -/
structure OnlyStreams (s t : State) : Prop where
  cfg : t.cfg = s.cfg
  phase : t.phase = s.phase
  src : t.cur.src = s.cur.src
  srcLen : t.cur.srcLen = s.cur.srcLen
  dst : t.dest.dst = s.dest.dst
  dstLen : t.dest.dstLen = s.dest.dstLen
  pass : t.pass = s.pass
  vle : t.vle = s.vle
  host : t.host = s.host
  inMem : t.buf.inMem = s.buf.inMem
  prevOut : t.buf.prevOut = s.buf.prevOut
  result : t.buf.result = s.buf.result

/-- One byte was emitted to OUT at `wr`; TMP and every other position of OUT are as before. -/
structure EmittedOut (b : Byte) (s t : State) : Prop where
  wr : t.dest.wr = s.dest.wr + 1
  tmpWr : t.dest.tmpWr = s.dest.tmpWr
  tmp : t.buf.tmp = s.buf.tmp
  out : ∀ a, t.buf.out.read a = if a = s.dest.wr then some b else s.buf.out.read a

/-! ### The canonical code (30_encoding.md R98) -/

/-- The count of code width `i + 1`. -/
def countAt (counts : List Byte) (i : Nat) : Nat :=
  ((counts[i]?).getD 0).toNat

/-- `first[i + 1]`: the code value of the first symbol of width `i + 1`. -/
def firstCode (counts : List Byte) : Nat → Nat
  | 0 => 0
  | i + 1 => 2 * (firstCode counts i + countAt counts i)

/-- The number of symbols of width at most `i`: the sum of the first `i` counts, `A_{i−1}` of 42_vle.md R175. -/
def symbolsBefore (counts : List Byte) (i : Nat) : Nat :=
  countSum (counts.take i)

/-- No width is over-subscribed: the Kraft sum is at most 1. -/
def kraftOk (counts : List Byte) : Prop :=
  ∀ i < counts.length, firstCode counts i + countAt counts i ≤ 2 ^ (i + 1)

/-- The direct table has room for the short codes (42_vle.md R180). -/
def directFits (counts : List Byte) : Prop :=
  ∀ i < min counts.length 8, firstCode counts i + countAt counts i ≤ 2 ^ (i + 1)

/-- A value's bits as a code of `w` bits, most significant first. -/
def codeBits (w v : Nat) : List Bool :=
  (List.range w).map fun i => v.testBit (w - 1 - i)

/-- A byte's bits, bit 7 first (20_memory.md R63). -/
def byteBits (b : Byte) : List Bool :=
  codeBits 8 b.toNat

/-- The tables of a state are those a header with these counts and this alphabet builds (42_vle.md R170–R181). -/
def VleRegs.BuiltFrom (v : VleRegs) (counts alphabet : List Byte) : Prop :=
  ∃ before built : VleRegs, ∃ widthsOffset codesOffset : Nat,
    (before.withCounts counts alphabet).withDirect counts = .ok built ∧
      v = { built with widthsOffset := widthsOffset, codesOffset := codesOffset }

/-- The bytes from `rd` to the end of the source, where all are written. -/
def State.restBytes (s : State) : List Byte :=
  s.srcSlots.map fun slot => slot.getD 0

/-- The stream bits not yet used at a code boundary: the window's, then those of the bytes not yet read
(42_vle.md section 2). -/
def State.streamBits (s : State) : List Bool :=
  byteBits (prefixOf s.win.word) ++ (byteBits (lowByteOf s.win.word)).take s.win.br
    ++ s.restBytes.flatMap byteBits

/-- Every byte from `rd` to the end of the source is written. -/
def State.RestWritten (s : State) : Prop :=
  ∀ slot ∈ s.srcSlots, slot.isSome = true

end Sys2Proof.Machine
end

