-- ==== Sys2Proof/Certificates/Slice0/Obligations.lean ====
section
/-! DEFINITION. The statements for the provers. -/

open Sys2Proof Sys2Proof.Machine

/-! ### Encoding -/

/-- Decoding an encoded well-formed token, in any context that selects it and whatever follows it, gives the
token back (30_encoding.md R86–R97, R105). -/
def Obligations.DecodeOfEncodeIsTheToken : Prop :=
  ∀ (c : Ctx) (i : Instr) (rest : List Slot), i.wellFormed = true → c.selects i = true →
    decode c (encodeSlots i ++ rest) = .ok i

/-- A decoded token is well-formed, its context selects it, and the slots begin with its encoding, reserved
bytes apart (30_encoding.md R86–R97, R100). -/
def Obligations.DecodedTokenHasItsLayout : Prop :=
  ∀ (c : Ctx) (sl : List Slot) (i : Instr), decode c sl = .ok i →
    i.wellFormed = true ∧ c.selects i = true ∧ (encode i).length ≤ sl.length ∧
      ∀ j (h : j < (encode i).length), reservedAt i j = false → sl[j]? = some (some (encode i)[j])

/-- Reserved header bytes do not change what is decoded, and must be present (30_encoding.md R100). -/
def Obligations.ReservedBytesAreIgnored : Prop :=
  (∀ (b : Slot) (xs ys rest : List Slot), xs.length = 3 → ys.length = 3 →
    decode .chdr (b :: xs ++ rest) = decode .chdr (b :: ys ++ rest)) ∧
  (∀ xs ys rest : List Slot, xs.length = 4 → ys.length = 4 →
    decode .rhdr (xs ++ rest) = decode .rhdr (ys ++ rest)) ∧
  (∀ (b : Byte) (xs : List Slot), highBit b = true → xs.length < 3 →
    decode .chdr (some b :: xs) = .error .truncated) ∧
  (∀ xs : List Slot, xs.length < 4 → decode .rhdr xs = .error .truncated)

/-- Words written out from the spec's layouts decode to the tokens they stand for (30_encoding.md R86, R87, R92,
R93, R97). The last two are VLE codes: prefix 0x7F short of width 1, prefix 0x80 long. -/
def Obligations.SpecWordsDecode : Prop :=
  decode .chdr [some 0x82, some 0, some 0, some 0] = .ok (.chdrMulti 2) ∧
  decode .chdr [some 0x01] = .ok (.chdrSingle 1) ∧
  decode .phdr [some 0x01, some 0xE8, some 0x03, some 0x00] = .ok (.phdrRle 1000) ∧
  decode .phdr [some 0x02, some 0x04, some 0x00, some 0x00] = .ok (.phdrVle 4) ∧
  decode (.sbr false (buildLookup [0xF0, 0xF1, 0xF2])) [some 0xF2, some 0x02, some 0x01, some 0x55]
    = .ok (.rleLrun 0xF2 258 0x55) ∧
  decode (.seq 0x7F) [some 0x7F, some 1, some 2, some 3, some 0x7F, some 4]
    = .ok (.seqBlock 0x7F [1, 2, 3] 4) ∧
  decode (.vdec false (Vector.replicate 256 1)) [some 0x7F] = .ok (.vleShortW1 0x7F) ∧
  decode (.vdec false (Vector.replicate 256 0x40)) [some 0x80] = .ok (.vleLong 0x80)

/-! ### What a step runs -/

/-- When the slots at the read cursor decode to a token, the step is that token's meaning: at the state itself;
in CHDR after RUN_START, at the state that leaves; in PHDR after PASS_ENTRY has found a pass
(30_encoding.md R105, 40_driver.md R115, R118). -/
def Obligations.StepRunsTheDecodedToken : Prop :=
  (∀ (s : State) (c : Ctx) (i : Instr), s.entryContext = none → s.context = some c →
    ¬(s.phase = .seq ∧ s.cur.rd = s.cur.srcLen) →
    ¬(s.phase = .sbr ∧ s.dest.wr ≠ s.dest.dstLen ∧ s.cur.rd = s.cur.srcLen) →
    decode c s.tokenSlots = .ok i → step s = exec i s) ∧
  (∀ (s t : State) (i : Instr), s.phase = .chdr → exec .runStart s = .next t → t.phase = .chdr →
    decode .chdr t.srcSlots = .ok i → step s = exec i t) ∧
  (∀ (s : State) (i : Instr), s.phase = .phdr → s.pass.passCount ≠ 0 →
    decode .phdr s.srcSlots = .ok i → step s = exec i s)

/-- In IDLE, DONE and ERROR no core step runs: the state stays as it is. That this is a step which changes
nothing is the model's reading (log 3). -/
def Obligations.IdleCoreStaysAsItIs : Prop :=
  ∀ s : State, s.phase.busy = false → step s = .next s

/-- No step is refused, in any state: every instruction has its meaning. -/
def Obligations.StepIsNeverRefused : Prop :=
  ∀ (s : State) (r : Refusal), step s ≠ .refused r

/-- The core's control transfers are the edges of 40_driver.md R129, with START's from IDLE, DONE and ERROR, and
the read cursor of a sound state moves forward except for the rewinds to 0. -/
def Obligations.ControlTransfersAreTheGraph : Prop :=
  (∀ s t : State, step s = .next t → s.phase.edge t.phase = true) ∧
  (∀ s t : State, s.Sound → step s = .next t → s.cur.rd ≤ t.cur.rd ∨ t.cur.rd = 0) ∧
  (∀ (s : State) (v : BitVec 32), (s.writeCtrl v).phase =
    if v.getLsbD 0 = true ∧ (s.phase = .idle ∨ s.phase = .done ∨ s.phase = .error) then .chdr else s.phase)

/-- No core step writes `IN_MEM` or `IN_LEN`, or changes the configuration (20_memory.md R66,
60_exceptions.md R212, R220). -/
def Obligations.StepKeepsInputAndConfig : Prop :=
  ∀ s t : State, step s = .next t →
    t.buf.inMem = s.buf.inMem ∧ t.host.inLen = s.host.inLen ∧ t.cfg = s.cfg

/-- A pass never writes the buffer it reads (20_memory.md R66, R78, R79): from a sound state, a step that keeps the
source leaves every byte of it as it was, unless the step raises an error, leaves PEND, or is the PASS_END with
which TMP ends (R80; that it is then empty is the model's reading, log 6). -/
def Obligations.SourceIsNeverWritten : Prop :=
  ∀ s t : State, s.Sound → step s = .next t → s.phase ≠ .pend → t.phase ≠ .error →
    ¬(t.phase = .pend ∧ s.cur.src = .tmp) → t.cur.src = s.cur.src → ∀ a, t.srcMem.read a = s.srcMem.read a

/-- Within a pass the write cursor of OUT never decreases, and no position below it is written again
(20_memory.md R70). -/
def Obligations.OutputIsWrittenOnce : Prop :=
  ∀ s t : State, step s = .next t → s.phase.inPass = true → t.phase.inPass = true →
    s.dest.wr ≤ t.dest.wr ∧ ∀ a < s.dest.wr, t.buf.out.read a = s.buf.out.read a

/-! ### The pass driver -/

/-- RUN_START, CHDR_SINGLE, CHDR_MULTI, PASS_ENTRY, PHDR_RLE, PHDR_VLE, PASS_END, PASS_CHAIN and RUN_DONE complete,
each with exactly the effect of its rule (40_driver.md R115–R123, R125–R127). TMP ends with its pass (10_state.md R32,
20_memory.md R80); that PASS_END then leaves it empty, PASS_CHAIN finds it so, and OUT moves rather than being copied
are the model's readings (log 6). -/
def Obligations.DriverTokensComplete : Prop :=
  (∀ s : State, s.host.inLen.toNat ≤ 16777215 → exec .runStart s = .next
    { s with cur := { rd := 0, srcLen := s.host.inLen.toNat, src := .inMem } }) ∧
  (∀ (s : State) (b : BitVec 7), exec (.chdrSingle b) s = .next
    { s with
      cur := { s.cur with rd := 0 }
      pass := { s.pass with passCount := 1, passIndex := 0 }
      phase := .phdr }) ∧
  (∀ (s : State) (pc : BitVec 7), exec (.chdrMulti pc) s = .next
    { s with
      cur := { s.cur with rd := s.cur.rd + 4 }
      pass := { s.pass with passCount := pc.toNat, passIndex := 0 }
      phase := .phdr }) ∧
  (∀ s : State, s.pass.passCount ≠ 0 → exec .passEntry s = .next s) ∧
  (∀ (s : State) (size : BitVec 24) (tag : Byte) (i : Instr) (engine : Phase),
    (i = .phdrRle size ∧ tag = 0x01 ∧ engine = .rhdr) ∨ (i = .phdrVle size ∧ tag = 0x02 ∧ engine = .vhdr) →
    size.toNat ≤ s.cfg.bufCapacity → exec i s = .next
      { s with
        cur := { s.cur with rd := s.cur.rd + 4 }
        pass := { s.pass with tag := tag, subFileSize := size }
        dest := { s.dest with dst := .out, dstLen := size.toNat, wr := 0 }
        buf := { s.buf with out := [] }
        phase := engine }) ∧
  (∀ s : State, exec .passEnd s = .next
    { s with
      buf := { s.buf with tmp := [] }
      phase := .pend }) ∧
  (∀ s : State, exec .passChain s = .next
    { s with
      cur := { rd := 0, srcLen := s.dest.dstLen, src := .prevOut }
      pass := { s.pass with passIndex := s.pass.passIndex + 1 }
      buf := { s.buf with prevOut := s.buf.out, out := [], tmp := [] }
      phase := .phdr }) ∧
  (∀ s : State, exec .runDone s = .next
    { s with
      host := { s.host with resultLen := s.dest.dstLen }
      buf := { s.buf with result := s.buf.out }
      phase := .done })

/-- The first step of a run (40_driver.md R115–R117): InputTooLarge before any byte is read, Truncated where the
container header is cut, and otherwise the single-pass or the multi-pass form by bit 7 of byte 0. -/
def Obligations.ContainerHeaderStep : Prop :=
  ∀ s : State, s.phase = .chdr →
    (16777215 < s.host.inLen.toNat → step s = .next (s.raise .inputTooLarge)) ∧
    (s.host.inLen.toNat = 0 → step s = .next (s.raise .truncated)) ∧
    (∀ b : Byte, 0 < s.host.inLen.toNat → s.host.inLen.toNat ≤ 16777215 → s.buf.inMem.read 0 = some b →
      (highBit b = false → step s = .next
        { s with
          cur := { rd := 0, srcLen := s.host.inLen.toNat, src := .inMem }
          pass := { s.pass with passCount := 1, passIndex := 0 }
          phase := .phdr }) ∧
      (highBit b = true → s.host.inLen.toNat < 4 → step s = .next (s.raise .truncated)) ∧
      (highBit b = true → 4 ≤ s.host.inLen.toNat → step s = .next
        { s with
          cur := { rd := 4, srcLen := s.host.inLen.toNat, src := .inMem }
          pass := { s.pass with passCount := (low7 b).toNat, passIndex := 0 }
          phase := .phdr }))

/-- A step in PHDR fails by the first check of 40_driver.md R118–R124 that fails: pass count 0, then a cut header,
then the size, then the tag (60_exceptions.md R215 item 3). -/
def Obligations.PassHeaderErrorsInOrder : Prop :=
  ∀ s : State, s.phase = .phdr →
    (s.pass.passCount = 0 → step s = .next (s.raise .badContainerHeader)) ∧
    (s.pass.passCount ≠ 0 → s.RestWritten → s.srcSlots.length < 4 → step s = .next (s.raise .truncated)) ∧
    (∀ (tag s0 s1 s2 : Byte) (rest : List Slot), s.pass.passCount ≠ 0 →
      s.srcSlots = some tag :: some s0 :: some s1 :: some s2 :: rest →
      (s.cfg.bufCapacity < (le24 s0 s1 s2).toNat → step s = .next (s.raise .allocationFailed)) ∧
      ((le24 s0 s1 s2).toNat ≤ s.cfg.bufCapacity → tag ≠ 0x01 → tag ≠ 0x02 →
        step s = .next (s.raise .badAlgorithmTag)) ∧
      ((le24 s0 s1 s2).toNat ≤ s.cfg.bufCapacity → tag = 0x01 →
        step s = exec (.phdrRle (le24 s0 s1 s2)) s) ∧
      ((le24 s0 s1 s2).toNat ≤ s.cfg.bufCapacity → tag = 0x02 →
        step s = exec (.phdrVle (le24 s0 s1 s2)) s))

/-- At the end of a pass the run is chained to the next pass or done, by `pass_index + 1 = pass_count`
(40_driver.md R126, R127). -/
def Obligations.PassEndChainsOrFinishes : Prop :=
  ∀ s : State, s.phase = .pend →
    (s.pass.passIndex + 1 < s.pass.passCount → step s = exec .passChain s) ∧
    (s.pass.passIndex + 1 = s.pass.passCount → step s = exec .runDone s)

/-! ### Errors -/

/-- Every error is precise (60_exceptions.md R212): a step that reaches ERROR sets `phase`, `ERR_KIND`, `ERR_PASS` and
`RESULT_LEN`, discards every buffer of the run, and changes nothing else of the state before the step. -/
def Obligations.ErrorEntryIsPrecise : Prop :=
  ∀ s t : State, step s = .next t → s.phase ≠ .error → t.phase = .error →
    ∃ k : ErrKind, k ≠ .none ∧ t =
      { s with
        phase := .error
        host := { s.host with errKind := k, errPass := s.pass.passIndex, resultLen := 0 }
        buf := { s.buf with out := [], tmp := [], prevOut := [], result := [] } }

/-- The error codes, row by row of the table of 60_exceptions.md R210; no two kinds share one, and 12 … 15 are never
the code of a kind. -/
def Obligations.ErrorCodesAreDistinct : Prop :=
  (∀ k l : ErrKind, k.code = l.code → k = l) ∧ (∀ k : ErrKind, k.code.toNat ≤ 11) ∧
    ErrKind.none.code = 0 ∧ ErrKind.inputTooLarge.code = 1 ∧ ErrKind.truncated.code = 2 ∧
    ErrKind.overflowOutput.code = 3 ∧ ErrKind.underflowOutput.code = 4 ∧ ErrKind.badAlgorithmTag.code = 5 ∧
    ErrKind.badRLEEscapeTable.code = 6 ∧ ErrKind.badVLEHeader.code = 7 ∧ ErrKind.badVLECode.code = 8 ∧
    ErrKind.allocationFailed.code = 9 ∧ ErrKind.badContainerHeader.code = 10 ∧ ErrKind.badSequenceRepeat.code = 11

/-- After an error no output is readable (60_exceptions.md R214): `RESULT_LEN` reads 0, `STATUS` reads ERROR alone, and every
read of RESULT in phase ERROR is refused. That the discarded OUT, TMP and chained source then read as nothing is the
model's reading (log 6). -/
def Obligations.NoOutputAfterError : Prop :=
  (∀ s t : State, step s = .next t → s.phase ≠ .error → t.phase = .error →
    t.host.resultLen = 0 ∧ t.regValue .resultLen = 0 ∧ t.regValue .status = 4 ∧
      ∀ a, t.buf.out.read a = none ∧ t.buf.tmp.read a = none ∧ t.buf.prevOut.read a = none) ∧
  ∀ (s : State) (pos : Nat), s.phase = .error → readResult pos s = .error .resultNotReadable

/-! ### The RLE engine -/

/-- RHDR_NOSEQ and RHDR_SEQ complete with the registers and tables of 41_rle.md R135, R136, R139, R141 and R142, and
change no VLE register, no host register and no buffer but TMP. -/
def Obligations.RleHeadersComplete : Prop :=
  ∀ (s : State) (escs : List Byte), escs.length ≤ 10 →
    (∃ t, exec (.rhdrNoseq escs) s = .next t ∧
      t = { s with
        cur := { s.cur with rd := s.cur.rd + 5 + escs.length }
        phase := .sbr
        rle := t.rle } ∧
      t.rle.escLen.toNat = 0x80 + escs.length ∧ t.rle.noSeq = true ∧ t.rle.escN = escs.length ∧
      (∀ j (h : j < 10), t.rle.escCodes[j] = (escs[j]?).getD s.rle.escCodes[j]) ∧
      t.rle.escLookup = buildLookup escs ∧ t.rle.bracket = s.rle.bracket ∧
      t.rle.seqStart = s.rle.seqStart ∧ t.rle.rep = s.rle.rep) ∧
    (2 ≤ escs.length → s.dest.dstLen ≤ s.cfg.bufCapacity → ∃ t, exec (.rhdrSeq escs) s = .next t ∧
      t = { s with
        cur := { s.cur with rd := s.cur.rd + 5 + escs.length }
        dest := { s.dest with dst := .tmp, tmpWr := 0 }
        buf := { s.buf with tmp := [] }
        phase := .seq
        rle := t.rle } ∧
      t.rle.escLen.toNat = escs.length ∧ t.rle.noSeq = false ∧ t.rle.escN = escs.length ∧
      (∀ j (h : j < 10), t.rle.escCodes[j] = (escs[j]?).getD s.rle.escCodes[j]) ∧
      t.rle.escLookup = buildLookup escs ∧ some t.rle.bracket = escs[1]? ∧
      t.rle.seqStart = s.rle.seqStart ∧ t.rle.rep = s.rle.rep)

/-- The escape table (30_encoding.md R90, 41_rle.md R139, R140): a byte's entry is 0 exactly when it is no escape byte,
and otherwise one more than the LAST index at which it stands. -/
def Obligations.EscapeLookupIsTheLastIndex : Prop :=
  ∀ (escs : List Byte) (b : Byte), escs.length ≤ 10 →
    (((buildLookup escs)[b.toNat]'b.isLt).val = 0 ↔ b ∉ escs) ∧
    ∀ i < escs.length, ((buildLookup escs)[b.toNat]'b.isLt).val = i + 1 ↔
      (escs[i]? = some b ∧ ∀ j, i < j → escs[j]? ≠ some b)

/-- A step in RHDR rejects an illegal escape count before it reads any escape byte, whatever follows
(41_rle.md R137, R138), and is Truncated where the skip or an escape byte is missing (R135, R136, R139). -/
def Obligations.RleHeaderErrorsInOrder : Prop :=
  ∀ s : State, s.phase = .rhdr →
    (s.RestWritten → s.srcSlots.length < 5 → step s = .next (s.raise .truncated)) ∧
    (∀ (r0 r1 r2 r3 : Slot) (escLen : Byte) (rest : List Slot),
      s.srcSlots = r0 :: r1 :: r2 :: r3 :: some escLen :: rest →
      (10 < (low7 escLen).toNat → step s = .next (s.raise .badRLEEscapeTable)) ∧
      (highBit escLen = false → (low7 escLen).toNat < 2 → step s = .next (s.raise .badRLEEscapeTable)) ∧
      (highBit escLen = true ∨ 2 ≤ (low7 escLen).toNat → (low7 escLen).toNat ≤ 10 → s.RestWritten →
        rest.length < (low7 escLen).toNat → step s = .next (s.raise .truncated)))

/-- The loop head of the single-byte-run phase (41_rle.md R143): PASS_END when the output is full; UnderflowOutput when
it is not and the source is exhausted; otherwise the token whose selector `escape_lookup` gives for the next byte. -/
def Obligations.SingleRunLoopHead : Prop :=
  ∀ s : State, s.phase = .sbr →
    (s.dest.wr = s.dest.dstLen → step s = exec .passEnd s) ∧
    (s.dest.wr ≠ s.dest.dstLen → s.cur.rd = s.cur.srcLen → step s = .next (s.raise .underflowOutput)) ∧
    (∀ (i : Instr) (rest : List Slot), s.dest.wr ≠ s.dest.dstLen →
      (Ctx.sbr false s.rle.escLookup).selects i = true → s.srcSlots = encodeSlots i ++ rest → step s = exec i s)

/-- RLE_LIT, RLE_SRUN, RLE_LRUN and RLE_IRUN_K2, K4 … K10 (41_rle.md R144–R147). Where the run fits, the token completes:
the read cursor passes it, `n` copies of the value follow the output written so far, every other position of OUT
reads as before, and no other register, table or memory changes. A run that does not fit raises OverflowOutput. A
token whose operand bytes are cut raises Truncated, not UnderflowOutput. -/
def Obligations.RunTokens : Prop :=
  (∀ (s : State) (i : Instr) (len n : Nat) (v : Byte), runLayout i = some (len, v, n) → s.dest.dst = .out →
    s.dest.wr + n ≤ s.dest.dstLen →
    ∃ t, exec i s = .next t ∧ OnlyStreams s t ∧ t.rle = s.rle ∧ t.win = s.win ∧
      t.cur.rd = s.cur.rd + len ∧ t.dest.wr = s.dest.wr + n ∧ t.dest.tmpWr = s.dest.tmpWr ∧
      t.buf.tmp = s.buf.tmp ∧
      ∀ a, t.buf.out.read a = if s.dest.wr ≤ a ∧ a < s.dest.wr + n then some v else s.buf.out.read a) ∧
  (∀ (s : State) (i : Instr) (len n : Nat) (v : Byte), runLayout i = some (len, v, n) → s.dest.dst = .out →
    s.dest.dstLen < s.dest.wr + n → exec i s = .next (s.raise .overflowOutput)) ∧
  (∀ (s : State) (i : Instr) (m : Nat), s.phase = .sbr → s.dest.wr ≠ s.dest.dstLen →
    (Ctx.sbr false s.rle.escLookup).selects i = true → 0 < m → m < (encode i).length →
    s.srcSlots = (encodeSlots i).take m → step s = .next (s.raise .truncated))

/-- The loop head of the sequence-run pre-pass (41_rle.md R148). At the end of its source, TMP becomes the source of the
single-byte-run phase and OUT its destination, and nothing else changes; otherwise a byte that is not the bracket is
a literal, and the bracket begins a block. -/
def Obligations.SequenceLoopHead : Prop :=
  ∀ s : State, s.phase = .seq →
    (s.cur.rd = s.cur.srcLen → step s = .next
      { s with
        cur := { rd := 0, srcLen := s.dest.tmpWr, src := .tmp }
        dest := { s.dest with dst := .out }
        phase := .sbr }) ∧
    (∀ (b : Byte) (rest : List Slot), b ≠ s.rle.bracket → s.srcSlots = some b :: rest →
      step s = exec (.seqLit b) s) ∧
    (∀ (body : List Byte) (rep : Byte) (rest : List Slot), s.rle.bracket ∉ body →
      s.srcSlots = (s.rle.bracket :: body ++ [s.rle.bracket, rep]).map some ++ rest →
      step s = exec (.seqBlock s.rle.bracket body rep) s)

/-- SEQ_LIT (41_rle.md R149): the byte goes to TMP, every other position of TMP, OUT, and every other register and memory is
as before; where TMP is full, OverflowOutput is raised. -/
def Obligations.SequenceLiterals : Prop :=
  ∀ (s : State) (b : Byte), s.dest.dst = .tmp →
    (s.dest.tmpWr + 1 ≤ s.dest.dstLen →
      ∃ t, exec (.seqLit b) s = .next t ∧ OnlyStreams s t ∧ t.rle = s.rle ∧ t.win = s.win ∧
        t.cur.rd = s.cur.rd + 1 ∧ t.dest.wr = s.dest.wr ∧ t.dest.tmpWr = s.dest.tmpWr + 1 ∧
        t.buf.out = s.buf.out ∧
        ∀ a, t.buf.tmp.read a = if a = s.dest.tmpWr then some b else s.buf.tmp.read a) ∧
    (s.dest.dstLen ≤ s.dest.tmpWr → exec (.seqLit b) s = .next (s.raise .overflowOutput))

/-- SEQ_BLOCK completes where what it emits fits (41_rle.md R150–R152): the body goes to TMP as many times in all as the
repeat byte, or `SEQ_REP_ZERO`, says; `seq_start` and `rep` take their values; every other position of TMP, OUT, and
every other register and memory is as before. -/
def Obligations.SequenceBlocksComplete : Prop :=
  ∀ (s : State) (brk rep : Byte) (body : List Byte) (copies : Nat), s.dest.dst = .tmp →
    totalCopies s.cfg.seqRepZero rep = some copies →
    s.dest.tmpWr + copies * body.length ≤ s.dest.dstLen →
    ∃ t, exec (.seqBlock brk body rep) s = .next t ∧ OnlyStreams s t ∧
      t.rle = { s.rle with seqStart := s.cur.rd + 1, rep := rep } ∧ t.win = s.win ∧
      t.cur.rd = s.cur.rd + body.length + 3 ∧ t.dest.wr = s.dest.wr ∧
      t.dest.tmpWr = s.dest.tmpWr + copies * body.length ∧ t.buf.out = s.buf.out ∧
      ∀ a, t.buf.tmp.read a =
        if s.dest.tmpWr ≤ a ∧ a < s.dest.tmpWr + copies * body.length
        then body[(a - s.dest.tmpWr) % body.length]? else s.buf.tmp.read a

/-- A block raises OverflowOutput where its body, or its copies, pass the end of TMP, and BadSequenceRepeat where the
repeat byte is 0 under `Fault` and the body fits (41_rle.md R150, R151, 60_exceptions.md R215 item 7). -/
def Obligations.SequenceBlockErrors : Prop :=
  ∀ (s : State) (brk rep : Byte) (body : List Byte), s.dest.dst = .tmp →
    (s.dest.dstLen < s.dest.tmpWr + body.length →
      exec (.seqBlock brk body rep) s = .next (s.raise .overflowOutput)) ∧
    (s.dest.tmpWr + body.length ≤ s.dest.dstLen → totalCopies s.cfg.seqRepZero rep = none →
      exec (.seqBlock brk body rep) s = .next (s.raise .badSequenceRepeat)) ∧
    (∀ copies, s.dest.tmpWr + body.length ≤ s.dest.dstLen →
      totalCopies s.cfg.seqRepZero rep = some copies → s.dest.dstLen < s.dest.tmpWr + copies * body.length →
      exec (.seqBlock brk body rep) s = .next (s.raise .overflowOutput))

/-- A block cut before its closing bracket or its repeat byte raises OverflowOutput if the body bytes present already
pass the end of TMP, and Truncated otherwise (41_rle.md R150, 60_exceptions.md R215 item 7). -/
def Obligations.CutBlockReportsTheFirstFailure : Prop :=
  ∀ (s : State) (body : List Byte) (closed : Bool), s.phase = .seq → s.dest.dst = .tmp →
    s.rle.bracket ∉ body →
    s.srcSlots = (s.rle.bracket :: body ++ if closed then [s.rle.bracket] else []).map some →
    step s = .next
      (s.raise (if s.dest.dstLen < s.dest.tmpWr + body.length then .overflowOutput else .truncated))

/-- In the single-byte-run phase of a sequence-mode pass no token selects the implicit run of length 1
(41_rle.md R153, R154). -/
def Obligations.NoBracketReachesSingleRuns : Prop :=
  ∀ (s : State) (esc v : Byte), s.Sound → s.phase = .sbr → s.cur.src = .tmp →
    fetch s ≠ .instr (.rleIrunK2 esc v)

/-! ### The VLE engine: the header -/

/-- The tables after the count recurrence (42_vle.md R172, R173, R175): each limit is the first code value past its
width's codes, each base relates a code value to its alphabet index, and the entries without a count are 0. -/
def Obligations.CountRecurrenceIsCanonical : Prop :=
  ∀ (v : VleRegs) (counts alphabet : List Byte), counts.length ≤ 15 →
    let r := v.withCounts counts alphabet
    r.W = counts.length ∧ r.alphabetLength.toInt = countSum counts ∧
    ∀ i (h : i < 16),
      (i < counts.length →
        (r.escLimit[i]).toInt = firstCode counts i + countAt counts i ∧
        (r.escBase[i]).toInt = (symbolsBefore counts i : Int) - firstCode counts i ∧
        (r.escBase[i]).toInt + (r.escLimit[i]).toInt = symbolsBefore counts (i + 1) ∧
        (r.escBase[i]).toInt ≤ 0) ∧
      (counts.length ≤ i → r.escLimit[i] = 0 ∧ r.escBase[i] = 0)

/-- The ranges of the 32-bit intermediates (42_vle.md R176), so that no recurrence overflows. -/
def Obligations.RecurrenceStaysInRange : Prop :=
  ∀ (v : VleRegs) (counts alphabet : List Byte), counts.length ≤ 15 →
    let r := v.withCounts counts alphabet
    (0 ≤ r.widthSum.toInt ∧ r.widthSum.toInt ≤ 8355585) ∧
    (0 ≤ r.alphabetLength.toInt ∧ r.alphabetLength.toInt ≤ 3825) ∧
    ∀ i (h : i < 16), (0 ≤ (r.escLimit[i]).toInt ∧ (r.escLimit[i]).toInt ≤ 8355585) ∧
      (-8351760 ≤ (r.escBase[i]).toInt ∧ (r.escBase[i]).toInt ≤ 0)

/-- The direct table overflows exactly when the short codes are over-subscribed (42_vle.md R180), and the error is
BadVLEHeader. -/
def Obligations.DirectTableOverflowsExactlyWhenOversubscribed : Prop :=
  ∀ (v : VleRegs) (counts : List Byte),
    ((∃ built, v.withDirect counts = .ok built) ↔ directFits counts) ∧
    (v.withDirect counts = .error (.raise .badVLEHeader) ↔ ¬directFits counts)

/-- The direct table (42_vle.md R179, R181): an 8-bit prefix that begins with the code of a symbol of width 1 … 8 holds
that width and that symbol, and every other prefix holds 0x40 and 0. -/
def Obligations.DirectTableDecodesShortCodes : Prop :=
  ∀ (v built : VleRegs) (counts : List Byte) (p : Byte), v.withDirect counts = .ok built →
    (∀ i j, i < min counts.length 8 → j < countAt counts i →
      p.toNat >>> (7 - i) = firstCode counts i + j →
      (built.widths[p.toNat]'p.isLt).toNat = i + 1 ∧
        some (built.symbols[p.toNat]'p.isLt) = v.alphabet[symbolsBefore counts i + j]?) ∧
    ((∀ i < min counts.length 8, ¬(firstCode counts i ≤ p.toNat >>> (7 - i) ∧
        p.toNat >>> (7 - i) < firstCode counts i + countAt counts i)) →
      built.widths[p.toNat]'p.isLt = 0x40 ∧ built.symbols[p.toNat]'p.isLt = 0)

/-- VLE_HDR completes for a well-formed header whose short codes fit, with two window bytes after it
(42_vle.md R170–R173, R177–R183): the tables are built, the offsets and the window are set, and no RLE register, no
host register and no buffer changes. -/
def Obligations.VleHeaderCompletes : Prop :=
  ∀ (s : State) (counts alphabet : List Byte) (hi lo : Byte),
    (Instr.vleHdr counts alphabet).wellFormed = true → directFits counts →
    s.cur.rd + 1 + counts.length + alphabet.length + 2 ≤ s.cur.srcLen →
    s.srcMem.read (s.cur.rd + 1 + counts.length + alphabet.length) = some hi →
    s.srcMem.read (s.cur.rd + 1 + counts.length + alphabet.length + 1) = some lo →
    ∃ t, exec (.vleHdr counts alphabet) s = .next t ∧
      t = { s with
        cur := { s.cur with rd := s.cur.rd + 1 + counts.length + alphabet.length + 2 }
        phase := .vdec
        vle := t.vle
        win := t.win } ∧
      t.vle.BuiltFrom counts alphabet ∧ t.vle.W = counts.length ∧
      t.vle.alphabetLength.toInt = countSum counts ∧
      (∀ j (h : j < 256), t.vle.alphabet[j] = (alphabet[j]?).getD s.vle.alphabet[j]) ∧
      t.vle.widthsOffset = s.cur.rd + 1 ∧
      t.vle.codesOffset = s.cur.rd + 1 + counts.length + alphabet.length ∧
      t.win.word.toNat = hi.toNat * 256 + lo.toNat ∧ t.win.br = 8 ∧ t.win.cs = s.win.cs ∧
      t.win.escIndex = s.win.escIndex

/-- VLE_HDR raises BadVLEHeader when the short codes do not fit, before it reads a window byte; and Truncated when they
fit and a window byte is missing (42_vle.md R180, R183, 60_exceptions.md R215 item 5). -/
def Obligations.VleHeaderMeaningErrors : Prop :=
  ∀ (s : State) (counts alphabet : List Byte), (Instr.vleHdr counts alphabet).wellFormed = true →
    (¬directFits counts → exec (.vleHdr counts alphabet) s = .next (s.raise .badVLEHeader)) ∧
    (directFits counts → s.cur.srcLen < s.cur.rd + 1 + counts.length + alphabet.length + 2 →
      s.cur.rd + 1 + counts.length + alphabet.length ≤ s.cur.srcLen →
      (∀ a < s.cur.srcLen, (s.srcMem.read a).isSome = true) →
      exec (.vleHdr counts alphabet) s = .next (s.raise .truncated))

/-- A step in VHDR rejects an illegal `widths_lengths` at once, and more than 256 symbols once all counts are read and
before any alphabet byte is (42_vle.md R170, R174). A header cut inside its counts is Truncated, whatever the counts
present add up to (R173); one cut inside its alphabet is Truncated too (R177, 60_exceptions.md R215 item 5). -/
def Obligations.VleHeaderErrorsInOrder : Prop :=
  ∀ s : State, s.phase = .vhdr →
    (s.srcSlots = [] → step s = .next (s.raise .truncated)) ∧
    (∀ (wl : Byte) (rest : List Slot), s.srcSlots = some wl :: rest →
      highBit wl = false ∨ 15 < (low7 wl).toNat → step s = .next (s.raise .badVLEHeader)) ∧
    (∀ (wl : Byte) (counts : List Byte), highBit wl = true → (low7 wl).toNat ≤ 15 →
      counts.length < (low7 wl).toNat → s.srcSlots = some wl :: counts.map some →
      step s = .next (s.raise .truncated)) ∧
    (∀ (counts : List Byte) (rest : List Slot), counts.length ≤ 15 → 256 < countSum counts →
      s.srcSlots = some (mkByte true (BitVec.ofNat 7 counts.length)) :: counts.map some ++ rest →
      step s = .next (s.raise .badVLEHeader)) ∧
    (∀ counts alphabet : List Byte, counts.length ≤ 15 → countSum counts ≤ 256 →
      alphabet.length < countSum counts →
      s.srcSlots = (mkByte true (BitVec.ofNat 7 counts.length) :: counts ++ alphabet).map some →
      step s = .next (s.raise .truncated))

/-! ### The VLE engine: codes -/

/-- VLE_SHORT_W1 … W8 complete (42_vle.md R185, R186): the symbol is emitted; if that fills the output nothing else
changes; otherwise the window moves on by the code's width, reading a byte only where it runs out of bits, so that
the stream still to decode is the old one without the code. -/
def Obligations.ShortCodesComplete : Prop :=
  ∀ (s : State) (i : Instr) (w : Nat) (pfx : Byte), shortLayout i = some (w, pfx) → s.dest.dst = .out →
    s.dest.wr < s.dest.dstLen → s.win.AtBoundary → s.RestWritten →
    (s.dest.wr + 1 = s.dest.dstLen ∨ w ≤ s.win.br ∨ s.cur.rd < s.cur.srcLen) →
    ∃ t, exec i s = .next t ∧ OnlyStreams s t ∧ t.rle = s.rle ∧
      EmittedOut (s.vle.symbols[pfx.toNat]'pfx.isLt) s t ∧
      (s.dest.wr + 1 = s.dest.dstLen → t.win = s.win ∧ t.cur = s.cur) ∧
      (s.dest.wr + 1 ≠ s.dest.dstLen → t.win.AtBoundary ∧ t.win.cs = s.win.cs ∧
        t.win.escIndex = s.win.escIndex ∧ s.cur.rd ≤ t.cur.rd ∧
        8 * (t.cur.rd - s.cur.rd) + s.win.br = t.win.br + w ∧
        t.streamBits = s.streamBits.drop w)

/-- VLE_LONG completes (42_vle.md R187–R192): if the stream begins with a code of width `i + 1`, 9 or more, whose value
matches at its own width and at no smaller one, the alphabet byte its base selects is emitted, and the bit source
keeps exactly the bits after the code. Where that fills the output there is no reload: `word` holds the code, and `rd`
has moved by the refills alone. Otherwise the window is reloaded, and the stream still to decode is the old one
without the code. -/
def Obligations.LongCodeCompletes : Prop :=
  ∀ (s : State) (i v : Nat) (h : i < 16) (idx : Fin 256), 8 ≤ i → v < 2 ^ (i + 1) →
    s.dest.dst = .out → s.dest.wr < s.dest.dstLen → s.win.AtBoundary → s.RestWritten →
    codeBits (i + 1) v <+: s.streamBits →
    (s.dest.wr + 1 = s.dest.dstLen ∨ i + 1 + 8 ≤ s.streamBits.length) →
    (∀ m (hm : m < 16), 8 ≤ m → m < i → (s.vle.escLimit[m]).toInt ≤ ((v >>> (i - m) : Nat) : Int)) →
    (v : Int) < (s.vle.escLimit[i]).toInt →
    (v : Int) + (s.vle.escBase[i]).toInt = idx.val →
    ∃ t, exec (.vleLong (prefixOf s.win.word)) s = .next t ∧ OnlyStreams s t ∧ t.rle = s.rle ∧
      EmittedOut (s.vle.alphabet[idx.val]) s t ∧ t.win.escIndex = i ∧ s.cur.rd ≤ t.cur.rd ∧ t.win.br ≤ 7 ∧
      t.win.cs.toNat % 2 ^ (8 - t.win.br) = 0 ∧
      (s.dest.wr + 1 = s.dest.dstLen → t.win.word.toNat = v ∧
        8 * (t.cur.rd - s.cur.rd) + s.win.br = t.win.br + (i - 7) ∧
        (byteBits t.win.cs).take t.win.br ++ t.restBytes.flatMap byteBits = s.streamBits.drop (i + 1)) ∧
      (s.dest.wr + 1 ≠ s.dest.dstLen → t.win.AtBoundary ∧
        8 * (t.cur.rd - s.cur.rd) + s.win.br = t.win.br + (i + 1) ∧
        t.streamBits = s.streamBits.drop (i + 1))

/-- VLE_LONG raises BadVLECode at the 9th iteration when no width matches (42_vle.md R182, R190), provided the stream
supplies the 17 bits read by then. -/
def Obligations.UnmatchedLongCodeIsBad : Prop :=
  ∀ (s : State) (v : Nat), s.win.AtBoundary → s.RestWritten → v < 2 ^ 17 →
    codeBits 17 v <+: s.streamBits →
    (∀ m (hm : m < 16), 8 ≤ m → (s.vle.escLimit[m]).toInt ≤ ((v >>> (16 - m) : Nat) : Int)) →
    exec (.vleLong (prefixOf s.win.word)) s = .next (s.raise .badVLECode)

/-- A code whose next byte is missing raises Truncated: a short code's refill when the output is not yet full
(42_vle.md R186); a long code's refill when the window and the source hold no further bit, in the first iteration
or, as no width matches the bits there are, in a later one (R188), even for the last code of a pass; and a long
code's reload when the code matches, the output is not then full and fewer than 8 bits follow the code (R192). -/
def Obligations.MissingCodeByteIsTruncated : Prop :=
  (∀ (s : State) (i : Instr) (w : Nat) (pfx : Byte), shortLayout i = some (w, pfx) → s.dest.dst = .out →
    s.dest.wr + 1 < s.dest.dstLen → s.win.br < w → s.cur.srcLen ≤ s.cur.rd →
    exec i s = .next (s.raise .truncated)) ∧
  (∀ (s : State) (pfx : Byte), s.win.br = 0 → s.cur.srcLen ≤ s.cur.rd →
    exec (.vleLong pfx) s = .next (s.raise .truncated)) ∧
  (∀ (s : State) (v n : Nat), s.win.AtBoundary → s.RestWritten → n ≤ 16 → v < 2 ^ n →
    s.streamBits = codeBits n v →
    (∀ m (hm : m < 16), 8 ≤ m → m < n → (s.vle.escLimit[m]).toInt ≤ ((v >>> (n - 1 - m) : Nat) : Int)) →
    exec (.vleLong (prefixOf s.win.word)) s = .next (s.raise .truncated)) ∧
  (∀ (s : State) (i v : Nat) (h : i < 16) (idx : Fin 256), 8 ≤ i → v < 2 ^ (i + 1) →
    s.dest.dst = .out → s.dest.wr + 1 < s.dest.dstLen → s.win.AtBoundary → s.RestWritten →
    codeBits (i + 1) v <+: s.streamBits → s.streamBits.length < i + 1 + 8 →
    (∀ m (hm : m < 16), 8 ≤ m → m < i → (s.vle.escLimit[m]).toInt ≤ ((v >>> (i - m) : Nat) : Int)) →
    (v : Int) < (s.vle.escLimit[i]).toInt →
    (v : Int) + (s.vle.escBase[i]).toInt = idx.val →
    exec (.vleLong (prefixOf s.win.word)) s = .next (s.raise .truncated))

/-- The loop head of the bit-stream decoder (42_vle.md R184, R193): PASS_END when the output is full, whatever bits
remain; otherwise the `widths[]` entry of the prefix picks the code's class, and an illegal entry raises
BadVLECode. -/
def Obligations.BitStreamLoopHead : Prop :=
  ∀ s : State, s.phase = .vdec →
    (s.dest.wr = s.dest.dstLen → step s = exec .passEnd s) ∧
    (∀ (i : Instr) (w : Nat), s.dest.wr ≠ s.dest.dstLen →
      shortLayout i = some (w, prefixOf s.win.word) →
      (s.vle.widths[(prefixOf s.win.word).toNat]'(prefixOf s.win.word).isLt).toNat = w → step s = exec i s) ∧
    (s.dest.wr ≠ s.dest.dstLen →
      s.vle.widths[(prefixOf s.win.word).toNat]'(prefixOf s.win.word).isLt = 0x40 →
      step s = exec (.vleLong (prefixOf s.win.word)) s) ∧
    (s.dest.wr ≠ s.dest.dstLen →
      legalWidth (s.vle.widths[(prefixOf s.win.word).toNat]'(prefixOf s.win.word).isLt) = false →
      step s = .next (s.raise .badVLECode))

/-- The index a long code selects is in its width's part of the alphabet (42_vle.md R194): the check for an index
above 255 never fires. The tables are those of any accepted header, over-subscribed long widths included. -/
def Obligations.LongCodeIndexIsInRange : Prop :=
  ∀ (v : VleRegs) (counts alphabet : List Byte) (i x : Nat) (p : Byte) (h : i < 16),
    (Instr.vleHdr counts alphabet).wellFormed = true → v.BuiltFrom counts alphabet →
    v.widths[p.toNat]'p.isLt = 0x40 → 8 ≤ i → x >>> (i - 7) = p.toNat →
    (∀ m (hm : m < 16), 8 ≤ m → m < i → (v.escLimit[m]).toInt ≤ ((x >>> (i - m) : Nat) : Int)) →
    (x : Int) < (v.escLimit[i]).toInt →
    (symbolsBefore counts i : Int) ≤ x + (v.escBase[i]).toInt ∧
      (x : Int) + (v.escBase[i]).toInt < symbolsBefore counts (i + 1) ∧
      symbolsBefore counts (i + 1) ≤ 256

/-- One step decodes one canonical code (42_vle.md R195, 30_encoding.md R98): if the stream begins with the code of
symbol `j` of width `i + 1`, short or long, the step emits that symbol, and unless the output is then full the rest
of the stream is left, again at a code boundary. -/
def Obligations.CanonicalCodeDecodesInOneStep : Prop :=
  ∀ (s : State) (counts alphabet : List Byte) (i j : Nat) (symbol : Byte),
    (Instr.vleHdr counts alphabet).wellFormed = true → s.vle.BuiltFrom counts alphabet → kraftOk counts →
    s.phase = .vdec → s.dest.dst = .out → s.dest.wr < s.dest.dstLen → s.win.AtBoundary → s.RestWritten →
    i < counts.length → j < countAt counts i → alphabet[symbolsBefore counts i + j]? = some symbol →
    codeBits (i + 1) (firstCode counts i + j) <+: s.streamBits → i + 1 + 8 ≤ s.streamBits.length →
    ∃ t, step s = .next t ∧ OnlyStreams s t ∧ t.rle = s.rle ∧ EmittedOut symbol s t ∧
      (s.dest.wr + 1 ≠ s.dest.dstLen →
        t.win.AtBoundary ∧ t.RestWritten ∧ t.streamBits = s.streamBits.drop (i + 1))

/-- A whole message decodes (42_vle.md R195, R196): if the stream is the canonical codes of a message followed by at
least 8 further bits, and the message fills the output exactly, then as many steps as the message has symbols
leave the message in OUT. Each symbol is given by its width less one and its rank within the width. -/
def Obligations.CanonicalMessageDecodes : Prop :=
  ∀ (s : State) (counts alphabet : List Byte) (message : List (Nat × Nat)) (tail : List Bool),
    (Instr.vleHdr counts alphabet).wellFormed = true → s.vle.BuiltFrom counts alphabet → kraftOk counts →
    s.phase = .vdec → s.dest.dst = .out → s.win.AtBoundary → s.RestWritten →
    s.dest.wr + message.length = s.dest.dstLen →
    (∀ m ∈ message, m.1 < counts.length ∧ m.2 < countAt counts m.1) →
    s.streamBits = (message.flatMap fun m => codeBits (m.1 + 1) (firstCode counts m.1 + m.2)) ++ tail →
    8 ≤ tail.length →
    ∃ t, core.run message.length s = .next t ∧ t.phase = .vdec ∧ t.dest.wr = t.dest.dstLen ∧
      (∀ a < s.dest.wr, t.buf.out.read a = s.buf.out.read a) ∧
      ∀ n m, message[n]? = some m →
        t.buf.out.read (s.dest.wr + n) = alphabet[symbolsBefore counts m.1 + m.2]?

/-! ### Invariants and runs -/

/-- The state after reset is sound: every register and table at the value of 10_state.md R54, no memory written. -/
def Obligations.ResetIsSound : Prop :=
  State.reset.Sound

/-- Every step keeps soundness (`State.Sound`, Safety.lean), so that it holds along every run: the ranges of the cursors,
counters and registers (10_state.md R23–R26, R28, R31–R36, R38, R39), what the buffers hold (20_memory.md R70, R80),
and that TMP never holds the bracket (41_rle.md R153). Between steps `seq_start` and `esc_index` have the ranges
State.Sound gives them; those of R33 and R39 are of the inside of a step. That an ended TMP is empty is the model's
reading (log 6). -/
def Obligations.SoundStepIsSound : Prop :=
  ∀ s t : State, s.Sound → step s = .next t → t.Sound

/-- Every host command the model accepts keeps soundness. -/
def Obligations.SoundHostStepIsSound : Prop :=
  ∀ (c : HostCmd) (s t : State), s.Sound → hostStep c s = .next t → t.Sound

/-- From a sound state whose input the host has loaded, the core never faults: no unwritten byte is ever read
(10_state.md R53, 70_reset_and_hazards.md R242). -/
def Obligations.SoundLoadedStateSteps : Prop :=
  ∀ s : State, s.Sound → s.InputLoaded → Steps s

/-- Every run ends: from a sound state right after START with its input loaded, at most
2 + 127 × (2 × 16,777,215 + 8) steps reach DONE or ERROR (40_driver.md R131). -/
def Obligations.EveryRunEnds : Prop :=
  ∀ s : State, s.Sound → s.InputLoaded → s.phase = .chdr →
    ∃ n t, n ≤ runBound ∧ core.run n s = .next t ∧ t.phase.ended = true

/-- The step that ends a run well leaves the last pass's declared size in `RESULT_LEN`, every position of RESULT
readable, and none beyond it (40_driver.md R127, R130, 60_exceptions.md R224). -/
def Obligations.DoneResultIsComplete : Prop :=
  ∀ s t : State, s.Sound → step s = .next t → s.phase ≠ .done → t.phase = .done →
    t.host.resultLen = t.pass.subFileSize.toNat ∧
    t.regValue .resultLen = t.pass.subFileSize.setWidth 32 ∧ t.regValue .status = 2 ∧
    ∀ pos, (pos < t.host.resultLen → ∃ b, readResult pos t = .ok b ∧ s.buf.out.read pos = some b) ∧
      (t.host.resultLen ≤ pos → readResult pos t = .error .resultNotReadable)

/-- A run's outcome depends only on the configuration, `IN_LEN` and the input bytes below it (10_state.md R55): two
sound idle states that agree on those, whatever else they hold, run alike after START. After any number of steps
either both have answered a next state, with the same phase, host registers and result, or both have met the same
fault. -/
def Obligations.OutcomeDependsOnlyOnInput : Prop :=
  ∀ (s1 s2 : State) (n : Nat), s1.Sound → s2.Sound → s1.phase.busy = false → s2.phase.busy = false →
    s1.cfg = s2.cfg → s1.host.inLen = s2.host.inLen →
    (∀ a < s1.host.inLen.toNat, s1.buf.inMem.read a = s2.buf.inMem.read a) →
    (∃ t1 t2, core.run n (s1.writeCtrl 1) = .next t1 ∧ core.run n (s2.writeCtrl 1) = .next t2 ∧
      (∀ r : HostReg, t1.regValue r = t2.regValue r) ∧ t1.phase = t2.phase ∧
      ∀ pos, readResult pos t1 = readResult pos t2) ∨
    (∃ f, core.run n (s1.writeCtrl 1) = .fault f ∧ core.run n (s2.writeCtrl 1) = .fault f)

/-! ### The host interface -/

/-- START (60_exceptions.md R221): accepted in IDLE, DONE and ERROR with exactly the effect of R221. That a discarded buffer
is an empty memory is the model's reading (log 6). -/
def Obligations.StartBeginsARun : Prop :=
  ∀ (s : State) (v : BitVec 32), v.getLsbD 0 = true → s.phase.busy = false → hostStep (.writeReg 0 v) s = .next
    { s with
      phase := .chdr
      cur := { rd := 0, srcLen := s.host.inLen.toNat, src := .inMem }
      pass := { s.pass with passCount := 0, passIndex := 0 }
      host := { s.host with errKind := .none, errPass := 0, resultLen := 0 }
      buf := { s.buf with out := [], tmp := [], prevOut := [], result := [] } }

/-- A write to `CTRL` while busy, or with bit 0 clear in any phase, changes nothing (60_exceptions.md R222). -/
def Obligations.IgnoredStartChangesNothing : Prop :=
  (∀ (s : State) (v : BitVec 32), s.phase.busy = true → hostStep (.writeReg 0 v) s = .next s) ∧
  (∀ (s : State) (v : BitVec 32), v.getLsbD 0 = false → hostStep (.writeReg 0 v) s = .next s)

/-- The register map (10_state.md R40–R48): what each offset reads, that a reserved one reads 0, and that no write but
those of `CTRL` and `IN_LEN` changes anything. -/
def Obligations.RegisterMapReadsAndWrites : Prop :=
  ∀ s : State,
    readReg 0x00 s = .ok 0 ∧ readReg 0x04 s = .ok s.phase.status ∧
    readReg 0x08 s = .ok (s.host.errKind.code.setWidth 32) ∧
    (s.host.errPass ≤ 127 → readReg 0x0C s = .ok (BitVec.ofNat 32 s.host.errPass)) ∧
    readReg 0x10 s = .ok s.host.inLen ∧
    (s.host.resultLen ≤ 16777215 → readReg 0x14 s = .ok (BitVec.ofNat 32 s.host.resultLen)) ∧
    (s.pass.passCount ≤ 127 → readReg 0x18 s = .ok (BitVec.ofNat 32 s.pass.passCount)) ∧
    (s.pass.passIndex ≤ 127 → readReg 0x1C s = .ok (BitVec.ofNat 32 s.pass.passIndex)) ∧
    (∀ n, 8 ≤ n → readReg (4 * n) s = .ok 0) ∧
    (∀ (n : Nat) (v : BitVec 32), n ≠ 0 → n ≠ 4 → hostStep (.writeReg (4 * n) v) s = .next s)

/-- STATUS is a function of the phase: BUSY, DONE and ERROR are each 1 exactly in their phases, the other bits are 0, at
most one is 1, and a write to it is ignored (10_state.md R42). -/
def Obligations.StatusFollowsThePhase : Prop :=
  (∀ s : State, readReg 0x04 s = .ok s.phase.status) ∧
  (∀ p : Phase,
    (p.status.getLsbD 0 = true ↔ p ≠ .idle ∧ p ≠ .done ∧ p ≠ .error) ∧
    (p.status.getLsbD 1 = true ↔ p = .done) ∧ (p.status.getLsbD 2 = true ↔ p = .error) ∧
    p.status.toNat < 8 ∧ (p.status = 0 ∨ p.status = 1 ∨ p.status = 2 ∨ p.status = 4)) ∧
  ∀ (s : State) (v : BitVec 32), hostStep (.writeReg 0x04 v) s = .next s

/-- Loading the input (10_state.md R45, R49, 60_exceptions.md R223, 70_reset_and_hazards.md R245): a byte write changes
that position alone; while busy it is refused, and a write of `IN_LEN` is ignored; otherwise `IN_LEN` takes any value.
That a position beyond the last is refused is the model's choice (log 14). -/
def Obligations.InputLoadingWrites : Prop :=
  (∀ (s : State) (pos : Nat) (b : Byte), s.phase.busy = false → pos < 16777215 →
    ∃ t, hostStep (.writeInput pos b) s = .next t ∧
      t = { s with buf := { s.buf with inMem := t.buf.inMem } } ∧
      ∀ a, t.buf.inMem.read a = if a = pos then some b else s.buf.inMem.read a) ∧
  (∀ (s : State) (pos : Nat) (b : Byte), s.phase.busy = true →
    hostStep (.writeInput pos b) s = .refused .inputWriteWhileBusy) ∧
  (∀ (s : State) (pos : Nat) (b : Byte), s.phase.busy = false → 16777215 ≤ pos →
    hostStep (.writeInput pos b) s = .refused .noSuchPlace) ∧
  (∀ (s : State) (v : BitVec 32), s.phase.busy = true → hostStep (.writeReg 0x10 v) s = .next s) ∧
  (∀ (s : State) (v : BitVec 32), s.phase.busy = false → hostStep (.writeReg 0x10 v) s = .next
    { s with host := { s.host with inLen := v } })

/-- Reset (70_reset_and_hazards.md R240, R241, 10_state.md R54) from any state, busy or not: IDLE, every cursor, counter,
table entry and register 0, `src` IN_MEM; STATUS and ERR_KIND read 0, and no result is readable. -/
def Obligations.ResetClearsEverything : Prop :=
  ∀ s : State, ∃ t, hostStep .reset s = .next t ∧ t.phase = .idle ∧
    t.cur = { rd := 0, srcLen := 0, src := .inMem } ∧ t.dest.wr = 0 ∧ t.dest.dstLen = 0 ∧ t.dest.tmpWr = 0 ∧
    t.pass = { passCount := 0, passIndex := 0, tag := 0, subFileSize := 0 } ∧
    (t.rle.escLen = 0 ∧ t.rle.noSeq = false ∧ t.rle.escN = 0 ∧ t.rle.bracket = 0 ∧ t.rle.seqStart = 0 ∧
      t.rle.rep = 0 ∧ (∀ j (h : j < 10), t.rle.escCodes[j] = 0) ∧
      ∀ j (h : j < 256), t.rle.escLookup[j] = 0) ∧
    (t.vle.W = 0 ∧ t.vle.widthsOffset = 0 ∧ t.vle.codesOffset = 0 ∧ t.vle.widthSum = 0 ∧
      t.vle.alphabetLength = 0 ∧ (∀ j (h : j < 16), t.vle.escBase[j] = 0 ∧ t.vle.escLimit[j] = 0) ∧
      ∀ j (h : j < 256), t.vle.alphabet[j] = 0 ∧ t.vle.symbols[j] = 0 ∧ t.vle.widths[j] = 0) ∧
    t.win = { word := 0, br := 0, cs := 0, escIndex := 0 } ∧
    t.host.errKind = .none ∧ (∀ r : HostReg, t.regValue r = 0) ∧
    ∀ pos, readResult pos t = .error .resultNotReadable
end

