-- ==== Sys2Proof/Laws/State.lean ====
section
/-! SUPPORT. What each named update of State does to each group of fields: one lemma per group, true by rfl. -/

namespace Sys2Proof.Machine

@[simp] theorem State.discardBuffers_cfg (s : State) :
    (s.discardBuffers).cfg = s.cfg := rfl

@[simp] theorem State.discardBuffers_phase (s : State) :
    (s.discardBuffers).phase = s.phase := rfl

@[simp] theorem State.discardBuffers_cur (s : State) :
    (s.discardBuffers).cur = s.cur := rfl

@[simp] theorem State.discardBuffers_dest (s : State) :
    (s.discardBuffers).dest = s.dest := rfl

@[simp] theorem State.discardBuffers_pass (s : State) :
    (s.discardBuffers).pass = s.pass := rfl

@[simp] theorem State.discardBuffers_rle (s : State) :
    (s.discardBuffers).rle = s.rle := rfl

@[simp] theorem State.discardBuffers_vle (s : State) :
    (s.discardBuffers).vle = s.vle := rfl

@[simp] theorem State.discardBuffers_win (s : State) :
    (s.discardBuffers).win = s.win := rfl

@[simp] theorem State.discardBuffers_host (s : State) :
    (s.discardBuffers).host = s.host := rfl

@[simp] theorem State.discardBuffers_buf (s : State) :
    (s.discardBuffers).buf = { s.buf with out := [], tmp := [], prevOut := [], result := [] } := rfl

@[simp] theorem State.raise_cfg (s : State) (k : ErrKind) :
    (s.raise k).cfg = s.cfg := rfl

@[simp] theorem State.raise_phase (s : State) (k : ErrKind) :
    (s.raise k).phase = .error := rfl

@[simp] theorem State.raise_cur (s : State) (k : ErrKind) :
    (s.raise k).cur = s.cur := rfl

@[simp] theorem State.raise_dest (s : State) (k : ErrKind) :
    (s.raise k).dest = s.dest := rfl

@[simp] theorem State.raise_pass (s : State) (k : ErrKind) :
    (s.raise k).pass = s.pass := rfl

@[simp] theorem State.raise_rle (s : State) (k : ErrKind) :
    (s.raise k).rle = s.rle := rfl

@[simp] theorem State.raise_vle (s : State) (k : ErrKind) :
    (s.raise k).vle = s.vle := rfl

@[simp] theorem State.raise_win (s : State) (k : ErrKind) :
    (s.raise k).win = s.win := rfl

@[simp] theorem State.raise_host (s : State) (k : ErrKind) :
    (s.raise k).host = { s.host with errKind := k, errPass := s.pass.passIndex, resultLen := 0 } := rfl

@[simp] theorem State.raise_buf (s : State) (k : ErrKind) :
    (s.raise k).buf = s.discardBuffers.buf := rfl

@[simp] theorem State.advance_cfg (s : State) (n : Nat) :
    (s.advance n).cfg = s.cfg := rfl

@[simp] theorem State.advance_phase (s : State) (n : Nat) :
    (s.advance n).phase = s.phase := rfl

@[simp] theorem State.advance_cur (s : State) (n : Nat) :
    (s.advance n).cur = { s.cur with rd := s.cur.rd + n } := rfl

@[simp] theorem State.advance_dest (s : State) (n : Nat) :
    (s.advance n).dest = s.dest := rfl

@[simp] theorem State.advance_pass (s : State) (n : Nat) :
    (s.advance n).pass = s.pass := rfl

@[simp] theorem State.advance_rle (s : State) (n : Nat) :
    (s.advance n).rle = s.rle := rfl

@[simp] theorem State.advance_vle (s : State) (n : Nat) :
    (s.advance n).vle = s.vle := rfl

@[simp] theorem State.advance_win (s : State) (n : Nat) :
    (s.advance n).win = s.win := rfl

@[simp] theorem State.advance_host (s : State) (n : Nat) :
    (s.advance n).host = s.host := rfl

@[simp] theorem State.advance_buf (s : State) (n : Nat) :
    (s.advance n).buf = s.buf := rfl

@[simp] theorem State.startRun_cfg (s : State) :
    (s.startRun).cfg = s.cfg := rfl

@[simp] theorem State.startRun_phase (s : State) :
    (s.startRun).phase = .chdr := rfl

@[simp] theorem State.startRun_cur (s : State) :
    (s.startRun).cur = { rd := 0, srcLen := s.host.inLen.toNat, src := .inMem } := rfl

@[simp] theorem State.startRun_dest (s : State) :
    (s.startRun).dest = s.dest := rfl

@[simp] theorem State.startRun_pass (s : State) :
    (s.startRun).pass = { s.pass with passCount := 0, passIndex := 0 } := rfl

@[simp] theorem State.startRun_rle (s : State) :
    (s.startRun).rle = s.rle := rfl

@[simp] theorem State.startRun_vle (s : State) :
    (s.startRun).vle = s.vle := rfl

@[simp] theorem State.startRun_win (s : State) :
    (s.startRun).win = s.win := rfl

@[simp] theorem State.startRun_host (s : State) :
    (s.startRun).host = { s.host with errKind := .none, errPass := 0, resultLen := 0 } := rfl

@[simp] theorem State.startRun_buf (s : State) :
    (s.startRun).buf = s.discardBuffers.buf := rfl

@[simp] theorem endPrePass_cfg (s : State) :
    (endPrePass s).cfg = s.cfg := rfl

@[simp] theorem endPrePass_phase (s : State) :
    (endPrePass s).phase = .sbr := rfl

@[simp] theorem endPrePass_cur (s : State) :
    (endPrePass s).cur = { rd := 0, srcLen := s.dest.tmpWr, src := .tmp } := rfl

@[simp] theorem endPrePass_dest (s : State) :
    (endPrePass s).dest = { s.dest with dst := .out } := rfl

@[simp] theorem endPrePass_pass (s : State) :
    (endPrePass s).pass = s.pass := rfl

@[simp] theorem endPrePass_rle (s : State) :
    (endPrePass s).rle = s.rle := rfl

@[simp] theorem endPrePass_vle (s : State) :
    (endPrePass s).vle = s.vle := rfl

@[simp] theorem endPrePass_win (s : State) :
    (endPrePass s).win = s.win := rfl

@[simp] theorem endPrePass_host (s : State) :
    (endPrePass s).host = s.host := rfl

@[simp] theorem endPrePass_buf (s : State) :
    (endPrePass s).buf = s.buf := rfl

@[simp] theorem escBit_cfg (s : State) :
    (escBit s).cfg = s.cfg := rfl

@[simp] theorem escBit_phase (s : State) :
    (escBit s).phase = s.phase := rfl

@[simp] theorem escBit_cur (s : State) :
    (escBit s).cur = s.cur := rfl

@[simp] theorem escBit_dest (s : State) :
    (escBit s).dest = s.dest := rfl

@[simp] theorem escBit_pass (s : State) :
    (escBit s).pass = s.pass := rfl

@[simp] theorem escBit_rle (s : State) :
    (escBit s).rle = s.rle := rfl

@[simp] theorem escBit_vle (s : State) :
    (escBit s).vle = s.vle := rfl

@[simp] theorem escBit_win (s : State) :
    (escBit s).win = { word := (s.win.word <<< 1) ||| (BitVec.ofBool (highBit s.win.cs)).setWidth 16, cs := s.win.cs <<< 1, br := s.win.br - 1, escIndex := s.win.escIndex + 1 } := rfl

@[simp] theorem escBit_host (s : State) :
    (escBit s).host = s.host := rfl

@[simp] theorem escBit_buf (s : State) :
    (escBit s).buf = s.buf := rfl

@[simp] theorem enterLong_cfg (s : State) (pfx : Byte) :
    (enterLong pfx s).cfg = s.cfg := rfl

@[simp] theorem enterLong_phase (s : State) (pfx : Byte) :
    (enterLong pfx s).phase = s.phase := rfl

@[simp] theorem enterLong_cur (s : State) (pfx : Byte) :
    (enterLong pfx s).cur = s.cur := rfl

@[simp] theorem enterLong_dest (s : State) (pfx : Byte) :
    (enterLong pfx s).dest = s.dest := rfl

@[simp] theorem enterLong_pass (s : State) (pfx : Byte) :
    (enterLong pfx s).pass = s.pass := rfl

@[simp] theorem enterLong_rle (s : State) (pfx : Byte) :
    (enterLong pfx s).rle = s.rle := rfl

@[simp] theorem enterLong_vle (s : State) (pfx : Byte) :
    (enterLong pfx s).vle = s.vle := rfl

@[simp] theorem enterLong_win (s : State) (pfx : Byte) :
    (enterLong pfx s).win = { s.win with cs := lowByteOf s.win.word, word := pfx.setWidth 16, escIndex := 7 } := rfl

@[simp] theorem enterLong_host (s : State) (pfx : Byte) :
    (enterLong pfx s).host = s.host := rfl

@[simp] theorem enterLong_buf (s : State) (pfx : Byte) :
    (enterLong pfx s).buf = s.buf := rfl

@[simp] theorem enterPasses_cfg (s : State) (count rd : Nat) :
    (enterPasses count rd s).cfg = s.cfg := rfl

@[simp] theorem enterPasses_phase (s : State) (count rd : Nat) :
    (enterPasses count rd s).phase = .phdr := rfl

@[simp] theorem enterPasses_cur (s : State) (count rd : Nat) :
    (enterPasses count rd s).cur = { s.cur with rd := rd } := rfl

@[simp] theorem enterPasses_dest (s : State) (count rd : Nat) :
    (enterPasses count rd s).dest = s.dest := rfl

@[simp] theorem enterPasses_pass (s : State) (count rd : Nat) :
    (enterPasses count rd s).pass = { s.pass with passCount := count, passIndex := 0 } := rfl

@[simp] theorem enterPasses_rle (s : State) (count rd : Nat) :
    (enterPasses count rd s).rle = s.rle := rfl

@[simp] theorem enterPasses_vle (s : State) (count rd : Nat) :
    (enterPasses count rd s).vle = s.vle := rfl

@[simp] theorem enterPasses_win (s : State) (count rd : Nat) :
    (enterPasses count rd s).win = s.win := rfl

@[simp] theorem enterPasses_host (s : State) (count rd : Nat) :
    (enterPasses count rd s).host = s.host := rfl

@[simp] theorem enterPasses_buf (s : State) (count rd : Nat) :
    (enterPasses count rd s).buf = s.buf := rfl

@[simp] theorem State.append_cfg (s : State) (bs : List Byte) : (s.append bs).cfg = s.cfg := rfl

@[simp] theorem State.append_phase (s : State) (bs : List Byte) : (s.append bs).phase = s.phase := rfl

@[simp] theorem State.append_cur (s : State) (bs : List Byte) : (s.append bs).cur = s.cur := rfl

@[simp] theorem State.append_dest (s : State) (bs : List Byte) : (s.append bs).dest = s.dest.wrote bs.length := rfl

@[simp] theorem State.append_pass (s : State) (bs : List Byte) : (s.append bs).pass = s.pass := rfl

@[simp] theorem State.append_rle (s : State) (bs : List Byte) : (s.append bs).rle = s.rle := rfl

@[simp] theorem State.append_vle (s : State) (bs : List Byte) : (s.append bs).vle = s.vle := rfl

@[simp] theorem State.append_win (s : State) (bs : List Byte) : (s.append bs).win = s.win := rfl

@[simp] theorem State.append_host (s : State) (bs : List Byte) : (s.append bs).host = s.host := rfl

@[simp] theorem State.append_buf (s : State) (bs : List Byte) : (s.append bs).buf = s.buf.wrote s.dest bs := rfl

theorem Dest.wrote_out (d : Dest) (n : Nat) (h : d.dst = .out) : d.wrote n = { d with wr := d.wr + n } := by
  unfold Dest.wrote; rw [h]

theorem Dest.wrote_tmp (d : Dest) (n : Nat) (h : d.dst = .tmp) : d.wrote n = { d with tmpWr := d.tmpWr + n } := by
  unfold Dest.wrote; rw [h]

theorem Buffers.wrote_out (b : Buffers) (d : Dest) (bs : List Byte) (h : d.dst = .out) :
    b.wrote d bs = { b with out := b.out.store d.wr bs } := by
  unfold Buffers.wrote; rw [h]

theorem Buffers.wrote_tmp (b : Buffers) (d : Dest) (bs : List Byte) (h : d.dst = .tmp) :
    b.wrote d bs = { b with tmp := b.tmp.store d.tmpWr bs } := by
  unfold Buffers.wrote; rw [h]

@[simp] theorem Dest.wrote_dst (d : Dest) (n : Nat) : (d.wrote n).dst = d.dst := by
  cases h : d.dst
  · rw [Dest.wrote_out d n h, h]
  · rw [Dest.wrote_tmp d n h, h]

@[simp] theorem Dest.wrote_dstLen (d : Dest) (n : Nat) : (d.wrote n).dstLen = d.dstLen := by
  cases h : d.dst
  · rw [Dest.wrote_out d n h]
  · rw [Dest.wrote_tmp d n h]

@[simp] theorem Buffers.wrote_inMem (b : Buffers) (d : Dest) (bs : List Byte) : (b.wrote d bs).inMem = b.inMem := by
  cases h : d.dst
  · rw [Buffers.wrote_out b d bs h]
  · rw [Buffers.wrote_tmp b d bs h]

@[simp] theorem Buffers.wrote_prevOut (b : Buffers) (d : Dest) (bs : List Byte) :
    (b.wrote d bs).prevOut = b.prevOut := by
  cases h : d.dst
  · rw [Buffers.wrote_out b d bs h]
  · rw [Buffers.wrote_tmp b d bs h]

@[simp] theorem Buffers.wrote_result (b : Buffers) (d : Dest) (bs : List Byte) :
    (b.wrote d bs).result = b.result := by
  cases h : d.dst
  · rw [Buffers.wrote_out b d bs h]
  · rw [Buffers.wrote_tmp b d bs h]

/-- The write cursor of the current destination moves on by the bytes appended. -/
@[simp] theorem State.append_wrCursor (s : State) (bs : List Byte) :
    (s.append bs).wrCursor = s.wrCursor + bs.length := by
  cases h : s.dest.dst <;> simp [State.wrCursor, Dest.wrote, h]

@[simp] theorem State.advance_srcMem (s : State) (n : Nat) : (s.advance n).srcMem = s.srcMem := rfl

@[simp] theorem State.advance_wrCursor (s : State) (n : Nat) : (s.advance n).wrCursor = s.wrCursor := rfl

end Sys2Proof.Machine
end

