-- ==== Sys2Proof/Laws/Memory.lean ====
section
/-! SUPPORT. Memory: a read after a store, and that every store keeps the canonical form; the tables' fills. -/

namespace Sys2Proof.Machine

@[simp] theorem Memory.read_nil (a : Nat) : Memory.read [] a = none := rfl

@[simp] theorem cellsAt_nil (a : Nat) : cellsAt a [] = [] := rfl

@[simp] theorem cellsAt_cons (a : Nat) (b : Byte) (bs : List Byte) :
    cellsAt a (b :: bs) = (a, b) :: cellsAt (a + 1) bs := rfl

theorem mem_cellsAt_bounds {a : Nat} {bs : List Byte} {c : Host.Cell} (h : c ∈ cellsAt a bs) :
    a ≤ c.1 ∧ c.1 < a + bs.length := by
  induction bs generalizing a with
  | nil => simp at h
  | cons b bs ih =>
    rcases List.mem_cons.1 h with rfl | h
    · simp
    · have := ih h
      simp only [List.length_cons]
      omega

theorem cellsAt_wf (a : Nat) (bs : List Byte) : Memory.wf (cellsAt a bs) := by
  induction bs generalizing a with
  | nil => simp
  | cons b bs ih =>
    refine List.pairwise_cons.2 ⟨fun c hc => ?_, ih (a + 1)⟩
    have := mem_cellsAt_bounds hc
    simp only
    omega

/-- Every store keeps the canonical form. -/
theorem Memory.store_wf {m : Memory} (h : m.wf) (a : Nat) (bs : List Byte) : (m.store a bs).wf := by
  unfold Memory.store
  rw [Memory.wf, List.pairwise_append, List.pairwise_append]
  refine ⟨⟨h.filter _, cellsAt_wf a bs, ?_⟩, h.filter _, ?_⟩
  · intro c hc d hd
    have := mem_cellsAt_bounds hd
    simp only [List.mem_filter, decide_eq_true_eq] at hc
    omega
  · intro c hc d hd
    simp only [List.mem_append, List.mem_filter, decide_eq_true_eq] at hc hd
    rcases hc with hc | hc
    · omega
    · have := mem_cellsAt_bounds hc
      omega

theorem Memory.read_cellsAt (a : Nat) (bs : List Byte) (x : Nat) :
    Memory.read (cellsAt a bs) x = if a ≤ x then bs[x - a]? else none := by
  induction bs generalizing a with
  | nil => simp
  | cons b bs ih =>
    unfold Memory.read at ih ⊢
    rw [cellsAt_cons, List.lookup_cons, ih]
    by_cases hx : x = a
    · subst hx; simp
    · have hne : (x == a) = false := by simpa using hx
      rw [hne]
      by_cases hle : a ≤ x
      · have h1 : a + 1 ≤ x := by omega
        have h2 : x - a = (x - (a + 1)) + 1 := by omega
        rw [if_pos h1, if_pos hle, h2, List.getElem?_cons_succ]
      · rw [if_neg hle, if_neg (by omega)]

theorem Memory.read_filter (m : Memory) (q : Nat → Bool) (x : Nat) :
    Memory.read (m.filter fun c => q c.1) x = if q x then m.read x else none := by
  induction m with
  | nil => simp
  | cons c m ih =>
    obtain ⟨k, b⟩ := c
    unfold Memory.read at ih ⊢
    by_cases hk : x = k
    · subst hk
      by_cases hq : q x = true
      · rw [List.filter_cons_of_pos (by simpa using hq)]; simp [hq]
      · rw [List.filter_cons_of_neg (by simpa using hq), ih]; simp [hq]
    · have hne : (x == k) = false := by simpa using hk
      by_cases hq : q k = true
      · rw [List.filter_cons_of_pos (by simpa using hq), List.lookup_cons, List.lookup_cons, hne, ih]
      · rw [List.filter_cons_of_neg (by simpa using hq), List.lookup_cons, hne, ih]

/-- A read after a store: the bytes stored, and elsewhere what was there. -/
theorem Memory.read_store (m : Memory) (a : Nat) (bs : List Byte) (x : Nat) :
    (m.store a bs).read x = if a ≤ x ∧ x < a + bs.length then bs[x - a]? else m.read x := by
  have h1 := Memory.read_filter m (fun y => decide (y < a)) x
  have h2 := Memory.read_cellsAt a bs x
  have h3 := Memory.read_filter m (fun y => decide (a + bs.length ≤ y)) x
  unfold Memory.store
  unfold Memory.read at h1 h2 h3 ⊢
  rw [List.lookup_append, List.lookup_append, h1, h2, h3]
  by_cases hlt : x < a
  · have : ¬ a ≤ x := by omega
    have h4 : ¬ a + bs.length ≤ x := by omega
    simp [hlt, this, h4]
  · by_cases hin : x < a + bs.length
    · have hle : a ≤ x := by omega
      have h4 : ¬ a + bs.length ≤ x := by omega
      have hget : ∃ b, bs[x - a]? = some b := ⟨bs[x - a], List.getElem?_eq_getElem (by omega)⟩
      obtain ⟨b, hb⟩ := hget
      simp [hlt, hin, hle, hb]
    · have hle : a ≤ x := by omega
      have hge : a + bs.length ≤ x := by omega
      have hnone : bs[x - a]? = none := List.getElem?_eq_none (by omega)
      simp [hlt, hin, hle, hge, hnone]

/-- A store leaves every other position alone. -/
theorem Memory.read_store_outside (m : Memory) (a : Nat) (bs : List Byte) (x : Nat)
    (h : x < a ∨ a + bs.length ≤ x) : (m.store a bs).read x = m.read x := by
  rw [Memory.read_store, if_neg (by omega)]

/-- A run of one value. -/
theorem Memory.read_store_replicate (m : Memory) (a n : Nat) (v : Byte) (x : Nat) :
    (m.store a (List.replicate n v)).read x = if a ≤ x ∧ x < a + n then some v else m.read x := by
  rw [Memory.read_store, List.length_replicate]
  by_cases h : a ≤ x ∧ x < a + n
  · rw [if_pos h, if_pos h, List.getElem?_replicate, if_pos (by omega)]
  · rw [if_neg h, if_neg h]

/-- A store never reaches a position at or beyond a bound it stays below. -/
theorem Memory.store_bound {m : Memory} {n : Nat} (h : ∀ c ∈ m, c.1 < n) (a : Nat) (bs : List Byte)
    (hle : a + bs.length ≤ n) : ∀ c ∈ m.store a bs, c.1 < n := by
  intro c hc
  unfold Memory.store at hc
  simp only [List.mem_append, List.mem_filter] at hc
  rcases hc with (⟨hc, _⟩ | hc) | ⟨hc, _⟩
  · exact h c hc
  · have := mem_cellsAt_bounds hc
    omega
  · exact h c hc

@[simp] theorem getElem_fillRange {n : Nat} (v : Vector Byte n) (p len : Nat) (x : Byte) (j : Nat)
    (h : j < n) : (fillRange v p len x)[j] = if p ≤ j ∧ j < p + len then x else v[j] := by
  simp [fillRange]

@[simp] theorem getElem_overlay {α : Type} {n : Nat} (v : Vector α n) (xs : List α) (j : Nat) (h : j < n) :
    (overlay v xs)[j] = (xs[j]?).getD v[j] := by
  simp [overlay]

end Sys2Proof.Machine
end

