-- ==== Sys2Proof/Laws/Ops.lean ====
section
/-! SUPPORT. One lemma per shared operation that says everything it can do. The provers cite these and do not
unfold the operations. -/

namespace Sys2Proof.Machine

/-! ### Outcomes -/

@[simp] theorem finish_ok (s t : State) : finish s (.ok t) = .next t := rfl

@[simp] theorem finish_raise (s : State) (k : ErrKind) : finish s (.error (.raise k)) = .next (s.raise k) := rfl

@[simp] theorem finish_fault (s : State) (f : Fault) : finish s (.error (.fault f)) = .fault f := rfl

/-- A rule's outcome is a next state exactly when its computation succeeded or raised an error. -/
theorem finish_next {s t : State} {r : Except Stop State} :
    finish s r = .next t ↔ r = .ok t ∨ ∃ k, r = .error (.raise k) ∧ t = s.raise k := by
  rcases r with (k | f) | u
  · simp [eq_comm]
  · simp
  · simp

theorem finish_ne_refused {s : State} {r : Except Stop State} {q : Refusal} : finish s r ≠ .refused q := by
  rcases r with (k | f) | u <;> simp

theorem Except.bind_eq_ok {ε α β : Type} {x : Except ε α} {f : α → Except ε β} {b : β} :
    (x >>= f) = .ok b ↔ ∃ a, x = .ok a ∧ f a = .ok b := by
  rcases x with e | a
  · simp [bind, Except.bind]
  · simp [bind, Except.bind]

theorem Except.bind_eq_error {ε α β : Type} {x : Except ε α} {f : α → Except ε β} {e : ε} :
    (x >>= f) = .error e ↔ x = .error e ∨ ∃ a, x = .ok a ∧ f a = .error e := by
  rcases x with e' | a
  · simp [bind, Except.bind]
  · simp [bind, Except.bind]

/-! ### Cursor primitives -/

/-- `ReadByte` succeeds exactly where the source has a written byte at `rd` (20_memory.md R65). -/
theorem readByte_ok {s t : State} {b : Byte} :
    readByte s = .ok (b, t) ↔
      s.cur.rd < s.cur.srcLen ∧ s.srcMem.read s.cur.rd = some b ∧ t = s.advance 1 := by
  unfold readByte
  by_cases h : s.cur.srcLen ≤ s.cur.rd
  · rw [if_pos h]; simp; omega
  · rw [if_neg h]
    cases hb : s.srcMem.read s.cur.rd with
    | none => simp
    | some c => simp [eq_comm]; omega

/-- `ReadByte` raises Truncated exactly at the end of the source. -/
theorem readByte_raise {s : State} {k : ErrKind} :
    readByte s = .error (.raise k) ↔ s.cur.srcLen ≤ s.cur.rd ∧ k = .truncated := by
  unfold readByte
  by_cases h : s.cur.srcLen ≤ s.cur.rd
  · rw [if_pos h]; simp [h, eq_comm]
  · rw [if_neg h]
    cases hb : s.srcMem.read s.cur.rd <;> simp [h]

/-- `ReadByte` faults exactly at an unwritten byte. -/
theorem readByte_fault {s : State} {f : Fault} :
    readByte s = .error (.fault f) ↔ s.cur.rd < s.cur.srcLen ∧ s.srcMem.read s.cur.rd = none := by
  unfold readByte
  cases f
  by_cases h : s.cur.srcLen ≤ s.cur.rd
  · rw [if_pos h]; simp; omega
  · rw [if_neg h]
    cases hb : s.srcMem.read s.cur.rd <;> simp; omega

/-- Emission succeeds exactly where the bytes fit (20_memory.md R69). -/
theorem emit_ok {bs : List Byte} {s t : State} :
    emit bs s = .ok t ↔ s.wrCursor + bs.length ≤ s.dest.dstLen ∧ t = s.append bs := by
  unfold emit
  by_cases h : s.dest.dstLen < s.wrCursor + bs.length
  · rw [if_pos h]; simp; omega
  · rw [if_neg h]; simp [eq_comm]; omega

/-- Emission fails only by OverflowOutput, exactly where the bytes do not fit. -/
theorem emit_error {bs : List Byte} {s : State} {e : Stop} :
    emit bs s = .error e ↔ s.dest.dstLen < s.wrCursor + bs.length ∧ e = .raise .overflowOutput := by
  unfold emit
  by_cases h : s.dest.dstLen < s.wrCursor + bs.length
  · rw [if_pos h]; simp [h, eq_comm]
  · rw [if_neg h]; simp [h]

/-- A run token: where the run fits it is appended after the token's bytes are passed, and otherwise
OverflowOutput is raised. -/
theorem runToken_eq (len : Nat) (v : Byte) (n : Nat) (s : State) :
    runToken len v n s =
      if s.wrCursor + n ≤ s.dest.dstLen then .next ((s.advance len).append (List.replicate n v))
      else .next (s.raise .overflowOutput) := by
  unfold runToken emitRun emit
  by_cases h : s.wrCursor + n ≤ s.dest.dstLen
  · rw [if_neg (by simp; omega), if_pos h, finish_ok]
  · rw [if_pos (by simp; omega), if_neg h, finish_raise]

/-! ### The engine's read side: what a reading operation of the bit-stream decoder leaves alone -/

/-- Nothing but the read cursor, the window and the phase differs. -/
structure SameButWindow (s t : State) : Prop where
  cfg : t.cfg = s.cfg
  src : t.cur.src = s.cur.src
  srcLen : t.cur.srcLen = s.cur.srcLen
  rdLe : s.cur.rd ≤ t.cur.rd
  rdBound : s.cur.rd ≤ s.cur.srcLen → t.cur.rd ≤ t.cur.srcLen
  dest : t.dest = s.dest
  pass : t.pass = s.pass
  rle : t.rle = s.rle
  vle : t.vle = s.vle
  host : t.host = s.host
  buf : t.buf = s.buf

theorem SameButWindow.refl (s : State) : SameButWindow s s :=
  ⟨rfl, rfl, rfl, le_refl _, id, rfl, rfl, rfl, rfl, rfl, rfl⟩

theorem SameButWindow.trans {s t u : State} (h : SameButWindow s t) (g : SameButWindow t u) :
    SameButWindow s u :=
  ⟨g.cfg.trans h.cfg, g.src.trans h.src, g.srcLen.trans h.srcLen, h.rdLe.trans g.rdLe,
    fun b => g.rdBound (h.rdBound b), g.dest.trans h.dest, g.pass.trans h.pass, g.rle.trans h.rle,
    g.vle.trans h.vle, g.host.trans h.host, g.buf.trans h.buf⟩

theorem SameButWindow.srcMem {s t : State} (h : SameButWindow s t) : t.srcMem = s.srcMem := by
  unfold State.srcMem
  rw [h.src, h.buf]

theorem readByte_same {s t : State} {b : Byte} (h : readByte s = .ok (b, t)) :
    SameButWindow s t ∧ t.win = s.win ∧ t.phase = s.phase := by
  obtain ⟨hlt, -, rfl⟩ := readByte_ok.1 h
  refine ⟨⟨rfl, rfl, rfl, ?_, fun _ => ?_, rfl, rfl, rfl, rfl, rfl, rfl⟩, rfl, rfl⟩
  · simp
  · simp only [State.advance_cur]; omega

/-- The window shift reads at most one byte and touches nothing but the window. -/
theorem shiftWindow_same {w : Nat} {s t : State} (h : shiftWindow w s = .ok t) :
    SameButWindow s t ∧ t.phase = s.phase := by
  unfold shiftWindow at h
  split at h
  · obtain ⟨⟨b, u⟩, hr, hu⟩ := Except.bind_eq_ok.1 h
    obtain ⟨hs, -, hp⟩ := readByte_same hr
    injection hu with hu
    subst hu
    exact ⟨⟨hs.cfg, hs.src, hs.srcLen, hs.rdLe, hs.rdBound, hs.dest, hs.pass, hs.rle, hs.vle, hs.host, hs.buf⟩, hp⟩
  · injection h with h
    subst h
    exact ⟨⟨rfl, rfl, rfl, le_refl _, id, rfl, rfl, rfl, rfl, rfl, rfl⟩, rfl⟩

/-- The window reload reads one byte and touches nothing but the window. -/
theorem reloadWindow_same {s t : State} (h : reloadWindow s = .ok t) :
    SameButWindow s t ∧ t.phase = s.phase := by
  unfold reloadWindow at h
  obtain ⟨⟨b, u⟩, hr, hu⟩ := Except.bind_eq_ok.1 h
  obtain ⟨hs, -, hp⟩ := readByte_same hr
  injection hu with hu
  subst hu
  exact ⟨⟨hs.cfg, hs.src, hs.srcLen, hs.rdLe, hs.rdBound, hs.dest, hs.pass, hs.rle, hs.vle, hs.host, hs.buf⟩, hp⟩

/-- The initial window takes two bytes, fills the window and enters VDEC (42_vle.md R183). -/
theorem initWindow_ok {s t : State} (h : initWindow s = .ok t) :
    SameButWindow s t ∧ t.phase = .vdec ∧ t.win.br = 8 ∧ t.cur.rd = s.cur.rd + 2 ∧
      t.win.cs = s.win.cs ∧ t.win.escIndex = s.win.escIndex ∧
      ∃ hi lo, s.srcMem.read s.cur.rd = some hi ∧ s.srcMem.read (s.cur.rd + 1) = some lo ∧
        t.win.word = (hi.setWidth 16 <<< 8) ||| lo.setWidth 16 := by
  unfold initWindow at h
  obtain ⟨⟨hi, u⟩, hr, h⟩ := Except.bind_eq_ok.1 h
  obtain ⟨⟨lo, v⟩, hq, h⟩ := Except.bind_eq_ok.1 h
  injection h with h
  obtain ⟨hs, hw, -⟩ := readByte_same hr
  obtain ⟨hs', hw', -⟩ := readByte_same hq
  have hsv := hs.trans hs'
  obtain ⟨-, h1, rfl⟩ := readByte_ok.1 hr
  obtain ⟨-, h2, rfl⟩ := readByte_ok.1 hq
  subst h
  refine ⟨⟨hsv.cfg, hsv.src, hsv.srcLen, hsv.rdLe, hsv.rdBound, hsv.dest, hsv.pass, hsv.rle, hsv.vle,
    hsv.host, hsv.buf⟩, rfl, rfl, rfl, rfl, rfl, hi, lo, h1, ?_, rfl⟩
  simpa using h2

theorem escRefill_same {s t : State} (h : escRefill s = .ok t) :
    SameButWindow s t ∧ t.phase = s.phase ∧ t.win.word = s.win.word ∧ t.win.escIndex = s.win.escIndex ∧
      1 ≤ t.win.br := by
  unfold escRefill at h
  split at h
  · obtain ⟨⟨b, u⟩, hr, hu⟩ := Except.bind_eq_ok.1 h
    obtain ⟨hs, hw, hp⟩ := readByte_same hr
    injection hu with hu
    subst hu
    exact ⟨⟨hs.cfg, hs.src, hs.srcLen, hs.rdLe, hs.rdBound, hs.dest, hs.pass, hs.rle, hs.vle, hs.host,
      hs.buf⟩, hp, by rw [hw], by rw [hw], by simp⟩
  · injection h with h
    subst h
    exact ⟨SameButWindow.refl _, rfl, rfl, rfl, by omega⟩

theorem escBit_same (s : State) : SameButWindow s (escBit s) :=
  ⟨rfl, rfl, rfl, le_refl _, id, rfl, rfl, rfl, rfl, rfl, rfl⟩

theorem enterLong_same (pfx : Byte) (s : State) : SameButWindow s (enterLong pfx s) :=
  ⟨rfl, rfl, rfl, le_refl _, id, rfl, rfl, rfl, rfl, rfl, rfl⟩

/-- What a successful escape loop did: it touched nothing but the window until some state in which the code
matched, and there it emitted one byte of the alphabet (42_vle.md R188–R191). -/
theorem escapeLoop_ok {fuel : Nat} {s t : State} (h : escapeLoop fuel s = .ok t) :
    ∃ (u : State) (idx : Nat) (hi : idx < 256), SameButWindow s u ∧ u.phase = s.phase ∧
      (s.win.br ≤ 8 → u.win.br ≤ 7) ∧ emit [u.vle.alphabet[idx]] u = .ok t := by
  induction fuel generalizing s with
  | zero => simp [escapeLoop] at h
  | succ fuel ih =>
    unfold escapeLoop at h
    obtain ⟨v, hr, h⟩ := Except.bind_eq_ok.1 h
    obtain ⟨hs, hp, -, -, -⟩ := escRefill_same hr
    have hbr : s.win.br ≤ 8 → v.win.br ≤ 8 := by
      unfold escRefill at hr
      split at hr
      · obtain ⟨⟨b, w⟩, -, hu⟩ := Except.bind_eq_ok.1 hr
        injection hu with hu
        subst hu
        simp
      · injection hr with hr
        subst hr
        exact id
    have hse := hs.trans (escBit_same v)
    simp only at h
    split at h
    · split at h
      · split at h
        · exact ⟨escBit v, _, _, hse, hp, fun hb => by simp only [escBit_win]; have := hbr hb; omega, h⟩
        · simp at h
      · obtain ⟨u, idx, hi, h1, h2, h3, h4⟩ := ih h
        refine ⟨u, idx, hi, hse.trans h1, h2.trans hp, fun hb => h3 ?_, h4⟩
        simp only [escBit_win]
        have := hbr hb
        omega
    · simp at h

end Sys2Proof.Machine
end

