-- ==== Sys2Proof/Laws/Decode.lean ====
section
/-! SUPPORT. The decoder's readers, the fields of a byte, the escape table, and the slots of a state. -/

namespace Sys2Proof

/-! ### Fields -/

@[simp] theorem highBit_mkByte (h : Bool) (l : BitVec 7) : highBit (mkByte h l) = h := by
  revert h l; decide

@[simp] theorem low7_mkByte (h : Bool) (l : BitVec 7) : low7 (mkByte h l) = l := by
  revert h l; decide

@[simp] theorem mkByte_fields (b : Byte) : mkByte (highBit b) (low7 b) = b := by
  revert b; decide

theorem mkByte_true_toNat (l : BitVec 7) : (mkByte true l).toNat = 128 + l.toNat := by
  revert l; decide

theorem mkByte_false_toNat (l : BitVec 7) : (mkByte false l).toNat = l.toNat := by
  revert l; decide

theorem getLsbD_byteOf {w : Nat} (v : BitVec w) (k i : Nat) (h : i < 8) :
    (byteOf v k).getLsbD i = v.getLsbD (8 * k + i) := by
  simp [byteOf, h]

theorem getLsbD_le16 (a b : Byte) (i : Nat) :
    (le16 a b).getLsbD i = if i < 8 then a.getLsbD i else b.getLsbD (i - 8) := by
  have hb : 16 ≤ i → b.getLsbD (i - 8) = false := fun h => BitVec.getLsbD_of_ge b _ (by omega)
  have ha : 8 ≤ i → a.getLsbD i = false := fun h => BitVec.getLsbD_of_ge a _ h
  simp only [le16, BitVec.getLsbD_or, BitVec.getLsbD_setWidth, BitVec.getLsbD_shiftLeft]
  by_cases h8 : i < 8
  · have h16 : i < 16 := by omega
    simp [h8, h16]
  · by_cases h16 : i < 16
    · have h2 : i - 8 < 16 := by omega
      simp [h8, h16, h2, ha (by omega)]
    · simp [h8, h16, hb (by omega)]

theorem getLsbD_le24 (a b c : Byte) (i : Nat) :
    (le24 a b c).getLsbD i =
      if i < 8 then a.getLsbD i else if i < 16 then b.getLsbD (i - 8) else c.getLsbD (i - 16) := by
  have hc : 24 ≤ i → c.getLsbD (i - 16) = false := fun h => BitVec.getLsbD_of_ge c _ (by omega)
  have hb : 16 ≤ i → b.getLsbD (i - 8) = false := fun h => BitVec.getLsbD_of_ge b _ (by omega)
  have ha : 8 ≤ i → a.getLsbD i = false := fun h => BitVec.getLsbD_of_ge a _ h
  simp only [le24, BitVec.getLsbD_or, BitVec.getLsbD_setWidth, BitVec.getLsbD_shiftLeft]
  by_cases h8 : i < 8
  · have h16 : i < 16 := by omega
    have h24 : i < 24 := by omega
    simp [h8, h16, h24]
  · by_cases h16 : i < 16
    · have h2 : i - 8 < 24 := by omega
      have h24 : i < 24 := by omega
      simp [h8, h16, h24, h2, ha (by omega)]
    · by_cases h24 : i < 24
      · have h2 : i - 16 < 24 := by omega
        simp [h8, h16, h24, h2, ha (by omega), hb (by omega)]
      · simp [h8, h16, h24, hc (by omega)]

@[simp] theorem le16_byteOf (n : BitVec 16) : le16 (byteOf n 0) (byteOf n 1) = n := by
  refine BitVec.eq_of_getLsbD_eq fun i hi => ?_
  rw [getLsbD_le16]
  by_cases h8 : i < 8
  · rw [if_pos h8, getLsbD_byteOf n 0 i h8]
    simp
  · rw [if_neg h8, getLsbD_byteOf n 1 (i - 8) (by omega)]
    congr 1
    omega

theorem byteOf_le16 (a b : Byte) : byteOf (le16 a b) 0 = a ∧ byteOf (le16 a b) 1 = b := by
  refine ⟨BitVec.eq_of_getLsbD_eq fun i hi => ?_, BitVec.eq_of_getLsbD_eq fun i hi => ?_⟩
  · rw [getLsbD_byteOf _ _ _ hi, getLsbD_le16, if_pos (by omega)]
    congr 1
    omega
  · rw [getLsbD_byteOf _ _ _ hi, getLsbD_le16, if_neg (by omega)]
    congr 1
    omega

@[simp] theorem le24_byteOf (n : BitVec 24) : le24 (byteOf n 0) (byteOf n 1) (byteOf n 2) = n := by
  refine BitVec.eq_of_getLsbD_eq fun i hi => ?_
  rw [getLsbD_le24]
  by_cases h8 : i < 8
  · rw [if_pos h8, getLsbD_byteOf n 0 i h8]
    simp
  · by_cases h16 : i < 16
    · rw [if_neg h8, if_pos h16, getLsbD_byteOf n 1 (i - 8) (by omega)]
      congr 1
      omega
    · rw [if_neg h8, if_neg h16, getLsbD_byteOf n 2 (i - 16) (by omega)]
      congr 1
      omega

theorem byteOf_le24 (a b c : Byte) :
    byteOf (le24 a b c) 0 = a ∧ byteOf (le24 a b c) 1 = b ∧ byteOf (le24 a b c) 2 = c := by
  refine ⟨BitVec.eq_of_getLsbD_eq fun i hi => ?_, BitVec.eq_of_getLsbD_eq fun i hi => ?_,
    BitVec.eq_of_getLsbD_eq fun i hi => ?_⟩
  · rw [getLsbD_byteOf _ _ _ hi, getLsbD_le24, if_pos (by omega)]
    congr 1
    omega
  · rw [getLsbD_byteOf _ _ _ hi, getLsbD_le24, if_neg (by omega), if_pos (by omega)]
    congr 1
    omega
  · rw [getLsbD_byteOf _ _ _ hi, getLsbD_le24, if_neg (by omega), if_neg (by omega)]
    congr 1
    omega

/-! ### Readers -/

theorem takeByte_ok {sl rest : List Slot} {b : Byte} : takeByte sl = .ok (b, rest) ↔ sl = some b :: rest := by
  rcases sl with _ | ⟨_ | c, sl⟩ <;> simp [takeByte]

@[simp] theorem takeByte_cons (b : Byte) (rest : List Slot) : takeByte (some b :: rest) = .ok (b, rest) := rfl

@[simp] theorem takeBytes_append (bs : List Byte) (rest : List Slot) :
    takeBytes bs.length (bs.map some ++ rest) = .ok (bs, rest) := by
  induction bs with
  | nil => rfl
  | cons b bs ih => simp [takeBytes, ih, bind, Except.bind]

theorem takeBytes_ok {n : Nat} {sl rest : List Slot} {bs : List Byte} :
    takeBytes n sl = .ok (bs, rest) ↔ bs.length = n ∧ sl = bs.map some ++ rest := by
  constructor
  · intro h
    induction n generalizing sl bs rest with
    | zero =>
      simp only [takeBytes, Except.ok.injEq, Prod.mk.injEq] at h
      obtain ⟨rfl, rfl⟩ := h
      simp
    | succ n ih =>
      obtain ⟨⟨b, r⟩, hb, h⟩ := Machine.Except.bind_eq_ok.1 h
      obtain ⟨⟨cs, r'⟩, hc, h⟩ := Machine.Except.bind_eq_ok.1 h
      rw [takeByte_ok] at hb
      obtain ⟨hlen, hr⟩ := ih hc
      simp only [Except.ok.injEq, Prod.mk.injEq] at h
      obtain ⟨rfl, rfl⟩ := h
      subst hb
      simp [hlen, hr]
  · rintro ⟨rfl, rfl⟩
    simp

theorem skipSlots_ok {n : Nat} {sl rest : List Slot} :
    skipSlots n sl = .ok rest ↔ n ≤ sl.length ∧ rest = sl.drop n := by
  unfold skipSlots
  by_cases h : sl.length < n
  · simp [h]
  · simp [h, eq_comm]; omega

/-- The body reader takes exactly the bytes before the first bracket (41_rle.md R150). -/
theorem takeBody_ok {brk : Byte} {got : Nat} {sl rest : List Slot} {body : List Byte} :
    takeBody brk got sl = .ok (body, rest) ↔ brk ∉ body ∧ sl = body.map some ++ some brk :: rest := by
  constructor
  · intro h
    induction sl generalizing got body rest with
    | nil => simp [takeBody] at h
    | cons x sl ih =>
      rcases x with _ | c
      · simp [takeBody] at h
      · unfold takeBody at h
        split at h
        · next hc =>
          simp only [Except.ok.injEq, Prod.mk.injEq] at h
          obtain ⟨rfl, rfl⟩ := h
          simp [hc]
        · next hc =>
          obtain ⟨⟨bs, r⟩, hb, h⟩ := Machine.Except.bind_eq_ok.1 h
          simp only [Except.ok.injEq, Prod.mk.injEq] at h
          obtain ⟨rfl, rfl⟩ := h
          obtain ⟨h1, h2⟩ := ih hb
          simp [h1, h2, Ne.symm hc]
  · rintro ⟨h1, rfl⟩
    induction body generalizing got with
    | nil => simp [takeBody]
    | cons c body ih =>
      simp only [List.mem_cons, not_or] at h1
      have hc : c ≠ brk := fun e => h1.1 e.symm
      simp [takeBody, hc, ih h1.2, bind, Except.bind]

/-! ### What a decoded token says of the slots, one lemma per context -/

/-- A container header: byte 0, and three reserved bytes in the multi-pass form (30_encoding.md R86). -/
theorem decodeChdr_ok {sl : List Slot} {i : Instr} (h : decodeChdr sl = .ok i) :
    ∃ b rest, sl = some b :: rest ∧
      ((highBit b = false ∧ i = .chdrSingle (low7 b)) ∨
        (highBit b = true ∧ 3 ≤ rest.length ∧ i = .chdrMulti (low7 b))) := by
  obtain ⟨⟨b, rest⟩, hb, hi⟩ := Machine.Except.bind_eq_ok.1 h
  rw [takeByte_ok] at hb
  refine ⟨b, rest, hb, ?_⟩
  by_cases hh : highBit b = true
  · simp only [hh, if_true] at hi
    obtain ⟨r, hr, hi⟩ := Machine.Except.bind_eq_ok.1 hi
    injection hi with hi
    exact .inr ⟨hh, (skipSlots_ok.1 hr).1, hi.symm⟩
  · simp only [hh] at hi
    injection hi with hi
    exact .inl ⟨by simpa using hh, hi.symm⟩

/-- A per-pass header: four bytes, the first a known tag (30_encoding.md R87). -/
theorem decodePhdr_ok {sl : List Slot} {i : Instr} (h : decodePhdr sl = .ok i) :
    ∃ tag s0 s1 s2 rest, sl = some tag :: some s0 :: some s1 :: some s2 :: rest ∧
      ((tag = 0x01 ∧ i = .phdrRle (le24 s0 s1 s2)) ∨ (tag = 0x02 ∧ i = .phdrVle (le24 s0 s1 s2))) := by
  obtain ⟨⟨tag, r0⟩, h0, h⟩ := Machine.Except.bind_eq_ok.1 h
  obtain ⟨⟨s0, r1⟩, h1, h⟩ := Machine.Except.bind_eq_ok.1 h
  obtain ⟨⟨s1, r2⟩, h2, h⟩ := Machine.Except.bind_eq_ok.1 h
  obtain ⟨⟨s2, r3⟩, h3, h⟩ := Machine.Except.bind_eq_ok.1 h
  rw [takeByte_ok] at h0 h1 h2 h3
  simp only at h0 h1 h2 h3 h
  refine ⟨tag, s0, s1, s2, r3, by rw [h0, h1, h2, h3], ?_⟩
  split at h
  · next ht =>
    injection h with h
    exact .inl ⟨ht, h.symm⟩
  · split at h
    · next ht =>
      injection h with h
      exact .inr ⟨ht, h.symm⟩
    · simp at h

/-- An RLE pass header: a legal escape count, and as many escape bytes (30_encoding.md R88, R89). -/
theorem decodeRhdr_ok {sl : List Slot} {i : Instr} (h : decodeRhdr sl = .ok i) :
    ∃ escs : List Byte, escs.length ≤ maxEscapes ∧ 5 + escs.length ≤ sl.length ∧
      (i = .rhdrNoseq escs ∨ (i = .rhdrSeq escs ∧ 2 ≤ escs.length)) := by
  obtain ⟨r0, h0, h⟩ := Machine.Except.bind_eq_ok.1 h
  obtain ⟨⟨b, r1⟩, h1, h⟩ := Machine.Except.bind_eq_ok.1 h
  obtain ⟨hl, hr0⟩ := skipSlots_ok.1 h0
  rw [takeByte_ok, hr0] at h1
  simp only at h
  split at h
  · simp at h
  split at h
  · simp at h
  next hn hm =>
  obtain ⟨⟨escs, r2⟩, h2, h⟩ := Machine.Except.bind_eq_ok.1 h
  obtain ⟨hlen, hr⟩ := takeBytes_ok.1 h2
  have hdrop : sl.length - 4 = r1.length + 1 := by rw [← List.length_drop, h1, List.length_cons]
  have hr1 : r1.length = escs.length + r2.length := by rw [hr, List.length_append, List.length_map]
  refine ⟨escs, by omega, by omega, ?_⟩
  simp only at h
  split at h
  · injection h with h
    exact .inl h.symm
  · next hh =>
    injection h with h
    have : ¬(low7 b).toNat < 2 := fun h2 => hm ⟨by simpa using hh, h2⟩
    exact .inr ⟨h.symm, by omega⟩

/-- A sequence-run token (30_encoding.md R93). -/
theorem decodeSeq_ok {brk : Byte} {sl : List Slot} {i : Instr} (h : decodeSeq brk sl = .ok i) :
    (∃ b rest, b ≠ brk ∧ sl = some b :: rest ∧ i = .seqLit b) ∨
      ∃ body rep rest, brk ∉ body ∧ i = .seqBlock brk body rep ∧
        sl = some brk :: (body.map some ++ some brk :: some rep :: rest) := by
  obtain ⟨⟨b, r0⟩, h0, h⟩ := Machine.Except.bind_eq_ok.1 h
  rw [takeByte_ok] at h0
  simp only at h
  split at h
  · next hb =>
    obtain ⟨⟨body, r1⟩, h1, h⟩ := Machine.Except.bind_eq_ok.1 h
    obtain ⟨rep, h2, h⟩ := Machine.Except.bind_eq_ok.1 h
    obtain ⟨hn, hr⟩ := takeBody_ok.1 h1
    injection h with h
    rcases r1 with _ | ⟨_ | x, r1⟩
    · simp [takeRep] at h2
    · simp [takeRep] at h2
    · simp only [takeRep, Except.ok.injEq] at h2
      subst h2
      exact .inr ⟨body, x, r1, hn, h.symm, by rw [h0, hb, hr]⟩
  · next hb =>
    injection h with h
    exact .inl ⟨b, r0, hb, h0, h.symm⟩

/-- A VLE pass header: a legal number of counts, at most 256 symbols, and as many alphabet bytes
(30_encoding.md R94). -/
theorem decodeVhdr_ok {sl : List Slot} {i : Instr} (h : decodeVhdr sl = .ok i) :
    ∃ (counts alphabet : List Byte) (rest : List Slot), i = .vleHdr counts alphabet ∧
      counts.length ≤ maxWidths ∧ countSum counts ≤ maxAlphabet ∧ alphabet.length = countSum counts ∧
      sl = some (mkByte true (BitVec.ofNat 7 counts.length)) :: (counts.map some ++ (alphabet.map some ++ rest)) := by
  obtain ⟨⟨wl, r0⟩, h0, h⟩ := Machine.Except.bind_eq_ok.1 h
  rw [takeByte_ok] at h0
  simp only at h
  split at h
  · simp at h
  next hw =>
  obtain ⟨⟨counts, r1⟩, h1, h⟩ := Machine.Except.bind_eq_ok.1 h
  obtain ⟨hc, hr1⟩ := takeBytes_ok.1 h1
  simp only at h
  split at h
  · simp at h
  next hs =>
  obtain ⟨⟨alphabet, r2⟩, h2, h⟩ := Machine.Except.bind_eq_ok.1 h
  obtain ⟨ha, hr2⟩ := takeBytes_ok.1 h2
  injection h with h
  simp only [not_or, Bool.not_eq_false, not_lt, gt_iff_lt] at hw hs
  refine ⟨counts, alphabet, r2, h.symm, by omega, hs, ha, ?_⟩
  have hwl : mkByte true (BitVec.ofNat 7 counts.length) = wl := by
    rw [hc, ← hw.1, BitVec.ofNat_toNat, BitVec.setWidth_eq, mkByte_fields]
  rw [h0, hwl, hr1, hr2]

end Sys2Proof

namespace Sys2Proof.Machine

/-! ### The slots of a state -/

@[simp] theorem State.length_srcSlots (s : State) : s.srcSlots.length = s.cur.srcLen - s.cur.rd := by
  simp [State.srcSlots]

theorem State.getElem?_srcSlots (s : State) (j : Nat) (h : s.cur.rd + j < s.cur.srcLen) :
    s.srcSlots[j]? = some (s.srcMem.read (s.cur.rd + j)) := by
  unfold State.srcSlots
  rw [List.getElem?_map, List.getElem?_range' (by omega)]
  simp

/-- The slots after one more byte has been read. -/
theorem State.srcSlots_cons (s : State) (h : s.cur.rd < s.cur.srcLen) :
    s.srcSlots = s.srcMem.read s.cur.rd :: (s.advance 1).srcSlots := by
  unfold State.srcSlots
  simp only [State.advance_cur, State.advance_srcMem]
  have h1 : s.cur.srcLen - s.cur.rd = (s.cur.srcLen - (s.cur.rd + 1)) + 1 := by omega
  rw [h1, List.range'_succ, List.map_cons]

theorem State.srcSlots_nil (s : State) (h : s.cur.srcLen ≤ s.cur.rd) : s.srcSlots = [] := by
  unfold State.srcSlots
  have : s.cur.srcLen - s.cur.rd = 0 := by omega
  simp [this]

theorem State.RestWritten_iff (s : State) :
    (∀ slot ∈ s.srcSlots, slot.isSome = true) ↔
      ∀ a, s.cur.rd ≤ a → a < s.cur.srcLen → (s.srcMem.read a).isSome = true := by
  unfold State.srcSlots
  constructor
  · intro h a h1 h2
    refine h _ (List.mem_map.2 ⟨a, ?_, rfl⟩)
    rw [List.mem_range'_1]; omega
  · intro h slot hs
    obtain ⟨a, ha, rfl⟩ := List.mem_map.1 hs
    rw [List.mem_range'_1] at ha
    exact h a (by omega) (by omega)

end Sys2Proof.Machine
end

