-- ==== Sys2Proof/Laws/PerInstr.lean ====
section
/-! SUPPORT. The family EncodedSize: how many bytes of the container a token's encoding takes, per instruction
(30_encoding.md R86–R97). -/

namespace Sys2Proof

/-- The bytes a token takes: its fixed part, and its lists (30_encoding.md R86–R97). -/
def Instr.size : Instr → Nat
  | .runStart | .passEntry | .passEnd | .passChain | .runDone => 0
  | .chdrSingle _ | .seqLit _ | .rleLit _ => 1
  | .chdrMulti _ | .phdrRle _ | .phdrVle _ | .rleLrun _ _ _ => 4
  | .rhdrNoseq escs | .rhdrSeq escs => 5 + escs.length
  | .seqBlock _ body _ => 3 + body.length
  | .rleSrun _ _ _ => 3
  | .rleIrunK2 _ _ | .rleIrunK4 _ _ | .rleIrunK5 _ _ | .rleIrunK6 _ _ | .rleIrunK7 _ _ | .rleIrunK8 _ _
  | .rleIrunK9 _ _ | .rleIrunK10 _ _ => 2
  | .vleHdr counts alphabet => 1 + counts.length + alphabet.length
  | .vleShortW1 _ | .vleShortW2 _ | .vleShortW3 _ | .vleShortW4 _ | .vleShortW5 _ | .vleShortW6 _
  | .vleShortW7 _ | .vleShortW8 _ | .vleLong _ => 1

namespace Laws

/-- The encoder writes as many bytes as the token's layout has. -/
def EncodedSize.Statement (i : Instr) : Prop :=
  (encode i).length = i.size

theorem EncodedSize.runStart : EncodedSize.Statement .runStart := rfl

theorem EncodedSize.chdrSingle (low7 : BitVec 7) : EncodedSize.Statement (.chdrSingle low7) := rfl

theorem EncodedSize.chdrMulti (pc : BitVec 7) : EncodedSize.Statement (.chdrMulti pc) := rfl

theorem EncodedSize.passEntry : EncodedSize.Statement .passEntry := rfl

theorem EncodedSize.phdrRle (size : BitVec 24) : EncodedSize.Statement (.phdrRle size) := rfl

theorem EncodedSize.phdrVle (size : BitVec 24) : EncodedSize.Statement (.phdrVle size) := rfl

theorem EncodedSize.rhdrNoseq (escs : List Byte) : EncodedSize.Statement (.rhdrNoseq escs) := by
  simp only [EncodedSize.Statement, encode, Instr.size, List.length_append, List.length_cons, List.length_nil]

theorem EncodedSize.rhdrSeq (escs : List Byte) : EncodedSize.Statement (.rhdrSeq escs) := by
  simp only [EncodedSize.Statement, encode, Instr.size, List.length_append, List.length_cons, List.length_nil]

theorem EncodedSize.seqLit (b : Byte) : EncodedSize.Statement (.seqLit b) := rfl

theorem EncodedSize.seqBlock (brk : Byte) (body : List Byte) (rep : Byte) : EncodedSize.Statement (.seqBlock brk body rep) := by
  simp only [EncodedSize.Statement, encode, Instr.size, List.length_append, List.length_cons, List.length_nil]
  omega

theorem EncodedSize.rleLit (b : Byte) : EncodedSize.Statement (.rleLit b) := rfl

theorem EncodedSize.rleSrun (esc n v : Byte) : EncodedSize.Statement (.rleSrun esc n v) := rfl

theorem EncodedSize.rleIrunK2 (esc v : Byte) : EncodedSize.Statement (.rleIrunK2 esc v) := rfl

theorem EncodedSize.rleLrun (esc : Byte) (n : BitVec 16) (v : Byte) : EncodedSize.Statement (.rleLrun esc n v) := rfl

theorem EncodedSize.rleIrunK4 (esc v : Byte) : EncodedSize.Statement (.rleIrunK4 esc v) := rfl

theorem EncodedSize.rleIrunK5 (esc v : Byte) : EncodedSize.Statement (.rleIrunK5 esc v) := rfl

theorem EncodedSize.rleIrunK6 (esc v : Byte) : EncodedSize.Statement (.rleIrunK6 esc v) := rfl

theorem EncodedSize.rleIrunK7 (esc v : Byte) : EncodedSize.Statement (.rleIrunK7 esc v) := rfl

theorem EncodedSize.rleIrunK8 (esc v : Byte) : EncodedSize.Statement (.rleIrunK8 esc v) := rfl

theorem EncodedSize.rleIrunK9 (esc v : Byte) : EncodedSize.Statement (.rleIrunK9 esc v) := rfl

theorem EncodedSize.rleIrunK10 (esc v : Byte) : EncodedSize.Statement (.rleIrunK10 esc v) := rfl

theorem EncodedSize.vleHdr (counts alphabet : List Byte) : EncodedSize.Statement (.vleHdr counts alphabet) := by
  simp only [EncodedSize.Statement, encode, Instr.size, List.length_append, List.length_cons]
  omega

theorem EncodedSize.vleShortW1 (pfx : Byte) : EncodedSize.Statement (.vleShortW1 pfx) := rfl

theorem EncodedSize.vleShortW2 (pfx : Byte) : EncodedSize.Statement (.vleShortW2 pfx) := rfl

theorem EncodedSize.vleShortW3 (pfx : Byte) : EncodedSize.Statement (.vleShortW3 pfx) := rfl

theorem EncodedSize.vleShortW4 (pfx : Byte) : EncodedSize.Statement (.vleShortW4 pfx) := rfl

theorem EncodedSize.vleShortW5 (pfx : Byte) : EncodedSize.Statement (.vleShortW5 pfx) := rfl

theorem EncodedSize.vleShortW6 (pfx : Byte) : EncodedSize.Statement (.vleShortW6 pfx) := rfl

theorem EncodedSize.vleShortW7 (pfx : Byte) : EncodedSize.Statement (.vleShortW7 pfx) := rfl

theorem EncodedSize.vleShortW8 (pfx : Byte) : EncodedSize.Statement (.vleShortW8 pfx) := rfl

theorem EncodedSize.vleLong (pfx : Byte) : EncodedSize.Statement (.vleLong pfx) := rfl

theorem EncodedSize.passEnd : EncodedSize.Statement .passEnd := rfl

theorem EncodedSize.passChain : EncodedSize.Statement .passChain := rfl

theorem EncodedSize.runDone : EncodedSize.Statement .runDone := rfl

end Laws

end Sys2Proof
end

