-- ==== Sys2Proof/Laws/Step.lean ====
section
/-! SUPPORT. What a step can do, said once: every next state of a step is one of the effects listed here, each with
the conditions under which the step has it. A claim about all steps is a case analysis on this list. -/

namespace Sys2Proof.Machine

/-! ### Tokens by shape -/

/-- Every single-byte-run token does what `runToken` does with its layout (41_rle.md R144–R147). -/
theorem exec_run {i : Instr} {len n : Nat} {v : Byte} (h : runLayout i = some (len, v, n)) (s : State) :
    exec i s = runToken len v n s := by
  cases i <;> simp [runLayout] at h <;> (obtain ⟨rfl, rfl, rfl⟩ := h; rfl)

/-- Every short code does what `shortCode` does with its width (42_vle.md R185, R186). -/
theorem exec_short {i : Instr} {w : Nat} {pfx : Byte} (h : shortLayout i = some (w, pfx)) (s : State) :
    exec i s = shortCode w pfx s := by
  cases i <;> simp [shortLayout] at h <;> (obtain ⟨rfl, rfl⟩ := h; rfl)

theorem irunOf_layout {k : Nat} (hk : k < 11) (h0 : k ≠ 0) (h1 : k ≠ 1) (h3 : k ≠ 3) (esc v : Byte) :
    runLayout (irunOf k esc v) = some (2, v, k - 1) := by
  have : k = 2 ∨ k = 4 ∨ k = 5 ∨ k = 6 ∨ k = 7 ∨ k = 8 ∨ k = 9 ∨ k = 10 := by omega
  rcases this with rfl | rfl | rfl | rfl | rfl | rfl | rfl | rfl <;> rfl

/-- A decoded single-byte-run token has a layout, and its bytes are there (30_encoding.md R92). -/
theorem decodeSbr_ok {lookup : Vector (Fin 11) 256} {sl : List Slot} {i : Instr} (h : decodeSbr lookup sl = .ok i) :
    ∃ len n v, runLayout i = some (len, v, n) ∧ 1 ≤ len ∧ len ≤ sl.length := by
  obtain ⟨⟨b, r0⟩, h0, h⟩ := Except.bind_eq_ok.1 h
  rw [takeByte_ok] at h0
  simp only at h
  split at h
  · injection h with h
    exact ⟨1, 1, b, by rw [← h]; rfl, le_refl _, by rw [h0]; simp⟩
  split at h
  · obtain ⟨⟨n, r1⟩, h1, h⟩ := Except.bind_eq_ok.1 h
    obtain ⟨⟨v, r2⟩, h2, h⟩ := Except.bind_eq_ok.1 h
    rw [takeByte_ok] at h1 h2
    injection h with h
    exact ⟨3, n.toNat, v, by rw [← h]; rfl, by omega, by simp only at h2; rw [h0, h1, h2]; simp⟩
  split at h
  · obtain ⟨⟨lo, r1⟩, h1, h⟩ := Except.bind_eq_ok.1 h
    obtain ⟨⟨hi, r2⟩, h2, h⟩ := Except.bind_eq_ok.1 h
    obtain ⟨⟨v, r3⟩, h3, h⟩ := Except.bind_eq_ok.1 h
    rw [takeByte_ok] at h1 h2 h3
    injection h with h
    exact ⟨4, (le16 lo hi).toNat, v, by rw [← h]; rfl, by omega,
      by simp only at h2 h3; rw [h0, h1, h2, h3]; simp⟩
  · next k0 k1 k3 =>
    obtain ⟨⟨v, r1⟩, h1, h⟩ := Except.bind_eq_ok.1 h
    rw [takeByte_ok] at h1
    injection h with h
    exact ⟨2, _, v, by rw [← h]; exact irunOf_layout (Fin.isLt _) k0 k1 k3 b v, by omega, by rw [h0, h1]; simp⟩

/-- A decoded VLE code is short of the width its prefix's entry gives, or long (30_encoding.md R97). -/
theorem decodeVdec_ok {widths : Vector Byte 256} {sl : List Slot} {i : Instr} (h : decodeVdec widths sl = .ok i) :
    ∃ pfx rest, sl = some pfx :: rest ∧
      ((∃ w, 1 ≤ w ∧ w ≤ 8 ∧ shortLayout i = some (w, pfx) ∧ (widths[pfx.toNat]'pfx.isLt).toNat = w) ∨
        (i = .vleLong pfx ∧ (widths[pfx.toNat]'pfx.isLt).toNat = 0x40)) := by
  obtain ⟨⟨pfx, r0⟩, h0, h⟩ := Except.bind_eq_ok.1 h
  rw [takeByte_ok] at h0
  simp only at h
  refine ⟨pfx, r0, h0, ?_⟩
  split at h <;> first
    | (simp at h; done)
    | (next hw =>
        injection h with h
        subst h
        first
          | exact .inl ⟨_, by decide, by decide, rfl, hw⟩
          | exact .inr ⟨rfl, hw⟩)

/-! ### The effects of a step -/

/-- The state RUN_START leaves (40_driver.md R115). -/
abbrev State.rewound (s : State) : State :=
  { s with cur := { rd := 0, srcLen := s.host.inLen.toNat, src := .inMem } }

/-- The state in which a block's bytes are emitted (41_rle.md R150). -/
abbrev State.atBlock (s : State) (len : Nat) (rep : Byte) : State :=
  { s.advance (len + 3) with rle := { s.rle with seqStart := s.cur.rd + 1, rep := rep } }

/-- The state in which VLE_INIT reads the window (42_vle.md R178–R183). -/
abbrev State.atCodes (s : State) (counts alphabet : List Byte) (v : VleRegs) : State :=
  { s with
    vle := { v with widthsOffset := s.cur.rd + 1, codesOffset := s.cur.rd + 1 + counts.length + alphabet.length }
    cur.rd := s.cur.rd + 1 + counts.length + alphabet.length }

/-- What a step that answers a next state did. -/
inductive StepEffect (s : State) : State → Prop where
  /-- IDLE, DONE and ERROR (60_exceptions.md R228). -/
  | idle (h : s.phase.busy = false) : StepEffect s s
  /-- An error was raised (60_exceptions.md R212). -/
  | error (k : ErrKind) (hb : s.phase.busy = true) (hp : s.phase ≠ .pend) (hk : k ≠ .none) :
      StepEffect s (s.raise k)
  /-- The container header (40_driver.md R115–R117). -/
  | container (count rd : Nat) (h : s.phase = .chdr) (hlen : s.host.inLen.toNat ≤ maxInLen)
      (hc : (count = 1 ∧ rd = 0) ∨ (count ≤ 127 ∧ rd = 4)) (hrd : rd ≤ s.host.inLen.toNat) :
      StepEffect s (enterPasses count rd s.rewound)
  /-- A per-pass header (40_driver.md R118–R123). -/
  | passHeader (tag : Byte) (size : BitVec 24) (engine : Phase) (h : s.phase = .phdr) (hc : s.pass.passCount ≠ 0)
      (hs : size.toNat ≤ s.cfg.bufCapacity) (hrd : s.cur.rd + 4 ≤ s.cur.srcLen)
      (he : (engine = .rhdr ∧ tag = 0x01) ∨ (engine = .vhdr ∧ tag = 0x02)) :
      StepEffect s { s.advance 4 with
        pass.tag := tag
        pass.subFileSize := size
        buf.out := []
        dest.dst := .out
        dest.dstLen := size.toNat
        dest.wr := 0
        phase := engine }
  /-- RHDR_NOSEQ (41_rle.md R141). -/
  | rleHeader (escs : List Byte) (h : s.phase = .rhdr) (hn : escs.length ≤ maxEscapes)
      (hrd : s.cur.rd + (5 + escs.length) ≤ s.cur.srcLen) :
      StepEffect s { s.advance (5 + escs.length) with rle := s.rle.withEscapes true escs, phase := .sbr }
  /-- RHDR_SEQ (41_rle.md R142). -/
  | seqHeader (escs : List Byte) (h : s.phase = .rhdr) (hn : 2 ≤ escs.length ∧ escs.length ≤ maxEscapes)
      (hrd : s.cur.rd + (5 + escs.length) ≤ s.cur.srcLen) :
      StepEffect s { s.advance (5 + escs.length) with
        rle := { s.rle.withEscapes false escs with bracket := (s.rle.withEscapes false escs).escCodes[1] }
        buf.tmp := []
        dest.tmpWr := 0
        dest.dst := .tmp
        phase := .seq }
  /-- The end of the pre-pass (41_rle.md R148). -/
  | preEnd (h : s.phase = .seq) (hrd : s.cur.rd = s.cur.srcLen) : StepEffect s (endPrePass s)
  /-- SEQ_LIT (41_rle.md R149). -/
  | seqLit (b : Byte) (h : s.phase = .seq) (hb : b ≠ s.rle.bracket) (hrd : s.cur.rd + 1 ≤ s.cur.srcLen)
      (hfit : s.wrCursor + 1 ≤ s.dest.dstLen) : StepEffect s ((s.advance 1).append [b])
  /-- SEQ_BLOCK (41_rle.md R150, R151): the body, then `extra` more copies. -/
  | seqBlock (body : List Byte) (rep : Byte) (extra : Nat) (h : s.phase = .seq) (hb : s.rle.bracket ∉ body)
      (hrd : s.cur.rd + (body.length + 3) ≤ s.cur.srcLen) (hx : extraCopies s.cfg.seqRepZero rep = .ok extra)
      (hfit : s.wrCursor + (body.length + extra * body.length) ≤ s.dest.dstLen) :
      StepEffect s (((s.atBlock body.length rep).append body).append (List.replicate extra body).flatten)
  /-- A single-byte-run token (41_rle.md R144–R147). -/
  | run (len n : Nat) (v : Byte) (h : s.phase = .sbr) (hw : s.dest.wr ≠ s.dest.dstLen) (hl : 1 ≤ len)
      (hrd : s.cur.rd + len ≤ s.cur.srcLen) (hfit : s.wrCursor + n ≤ s.dest.dstLen) :
      StepEffect s ((s.advance len).append (List.replicate n v))
  /-- PASS_END (40_driver.md R125, 20_memory.md R80). -/
  | passEnd (h : s.phase = .sbr ∨ s.phase = .vdec) (hw : s.dest.wr = s.dest.dstLen) :
      StepEffect s { s with
        buf.tmp := []
        phase := .pend }
  /-- VLE_HDR (42_vle.md R170–R183). -/
  | vleHeader (counts alphabet : List Byte) (v : VleRegs) (t : State) (h : s.phase = .vhdr)
      (hw : (Instr.vleHdr counts alphabet).wellFormed = true)
      (hrd : s.cur.rd + 1 + counts.length + alphabet.length ≤ s.cur.srcLen)
      (hv : (s.vle.withCounts counts alphabet).withDirect counts = .ok v)
      (hi : initWindow (s.atCodes counts alphabet v) = .ok t) : StepEffect s t
  /-- A short code (42_vle.md R185, R186); `u` is the state after the symbol is emitted. -/
  | short (w : Nat) (u t : State) (h : s.phase = .vdec) (hw : s.dest.wr ≠ s.dest.dstLen) (hr : 1 ≤ w ∧ w ≤ 8)
      (hx : (s.vle.widths[(prefixOf s.win.word).toNat]'(prefixOf s.win.word).isLt).toNat = w)
      (he : emit [s.vle.symbols[(prefixOf s.win.word).toNat]'(prefixOf s.win.word).isLt] s = .ok u)
      (ht : if u.dest.wr = u.dest.dstLen then t = u else shiftWindow w u = .ok t) : StepEffect s t
  /-- A long code (42_vle.md R187–R192); `u` is the state after the escape loop. -/
  | long (u t : State) (h : s.phase = .vdec) (hw : s.dest.wr ≠ s.dest.dstLen)
      (he : escapeLoop 9 (enterLong (prefixOf s.win.word) s) = .ok u)
      (ht : if u.dest.wr = u.dest.dstLen then t = u else reloadWindow u = .ok t) : StepEffect s t
  /-- PASS_CHAIN (40_driver.md R126). -/
  | chain (t : State) (h : s.phase = .pend) (hc : s.pass.passIndex + 1 ≠ s.pass.passCount)
      (ht : execPassChain s = .next t) : StepEffect s t
  /-- RUN_DONE (40_driver.md R127). -/
  | done (t : State) (h : s.phase = .pend) (hc : s.pass.passIndex + 1 = s.pass.passCount)
      (ht : execRunDone s = .next t) : StepEffect s t

/-! ### The kinds a computation can raise -/

/-- No computation of the model raises "no error". -/
def RaisesKinds {α : Type} (r : Except Stop α) : Prop :=
  ∀ k, r = .error (.raise k) → k ≠ .none

theorem RaisesKinds.bind {α β : Type} {x : Except Stop α} {f : α → Except Stop β} (hx : RaisesKinds x)
    (hf : ∀ a, RaisesKinds (f a)) : RaisesKinds (x >>= f) := by
  intro k hk
  rcases Except.bind_eq_error.1 hk with h | ⟨a, -, h⟩
  · exact hx k h
  · exact hf a k h

theorem RaisesKinds.ok {α : Type} (a : α) : RaisesKinds (.ok a) := by
  intro k hk; simp at hk

theorem emit_kinds (bs : List Byte) (s : State) : RaisesKinds (emit bs s) := by
  intro k hk
  obtain ⟨-, h⟩ := emit_error.1 hk
  injection h with h
  simp [h]

theorem readByte_kinds (s : State) : RaisesKinds (readByte s) := by
  intro k hk
  simp [(readByte_raise.1 hk).2]

theorem extraCopies_kinds (z : SeqRepZero) (rep : Byte) : RaisesKinds (extraCopies z rep) := by
  intro k hk
  unfold extraCopies at hk
  split at hk
  · cases z <;> simp at hk
    simp [← hk]
  · simp at hk

theorem shiftWindow_kinds (w : Nat) (s : State) : RaisesKinds (shiftWindow w s) := by
  unfold shiftWindow
  split
  · exact (readByte_kinds _).bind fun a => RaisesKinds.ok _
  · exact RaisesKinds.ok _

theorem reloadWindow_kinds (s : State) : RaisesKinds (reloadWindow s) :=
  (readByte_kinds _).bind fun _ => RaisesKinds.ok _

theorem initWindow_kinds (s : State) : RaisesKinds (initWindow s) :=
  (readByte_kinds _).bind fun _ => (readByte_kinds _).bind fun _ => RaisesKinds.ok _

theorem escRefill_kinds (s : State) : RaisesKinds (escRefill s) := by
  unfold escRefill
  split
  · exact (readByte_kinds _).bind fun _ => RaisesKinds.ok _
  · exact RaisesKinds.ok _

theorem badCode_kinds {α : Type} : RaisesKinds (.error (.raise .badVLECode) : Except Stop α) := by
  intro k hk
  injection hk with hk
  injection hk with hk
  simp [← hk]

theorem escapeLoop_kinds (fuel : Nat) (s : State) : RaisesKinds (escapeLoop fuel s) := by
  induction fuel generalizing s with
  | zero => exact badCode_kinds
  | succ fuel ih =>
    refine (escRefill_kinds s).bind fun t => ?_
    simp only
    split
    · split
      · split
        · exact emit_kinds _ _
        · exact badCode_kinds
      · exact ih _
    · exact badCode_kinds

theorem placeSymbols_kinds (al : Vector Byte 256) (w spw c : Nat) (d : Direct) :
    RaisesKinds (placeSymbols al w spw c d) := by
  induction c generalizing d with
  | zero => exact RaisesKinds.ok _
  | succ c ih =>
    unfold placeSymbols
    split
    · intro k hk
      injection hk with hk
      injection hk with hk
      simp [← hk]
    · exact ih _

theorem placeWidths_kinds (al : Vector Byte 256) (cs : List Byte) (w spw : Nat) (d : Direct) :
    RaisesKinds (placeWidths al cs w spw d) := by
  induction cs generalizing w spw d with
  | nil => exact RaisesKinds.ok _
  | cons c cs ih => exact (placeSymbols_kinds _ _ _ _ _).bind fun d => ih _ _ d

theorem withDirect_kinds (v : VleRegs) (counts : List Byte) : RaisesKinds (v.withDirect counts) :=
  (placeWidths_kinds _ _ _ _ _).bind fun _ => RaisesKinds.ok _

/-- A finished computation ended well, or in an error of a named kind. -/
theorem finish_cases {s t : State} {r : Except Stop State} (hr : RaisesKinds r) (h : finish s r = .next t) :
    r = .ok t ∨ ∃ k, k ≠ .none ∧ t = s.raise k := by
  rcases finish_next.1 h with h | ⟨k, hk, ht⟩
  · exact .inl h
  · exact .inr ⟨k, hr k hk, ht⟩

/-- A token that cannot be read ends in an error of a named kind. -/
theorem rejected_cases {s t : State} {r : Reject} (h : rejected s r = .next t) : ∃ k, k ≠ .none ∧ t = s.raise k := by
  unfold rejected at h
  split at h
  · injection h with h; exact ⟨_, by decide, h.symm⟩
  · simp at h
  · split at h
    · injection h with h; exact ⟨_, by decide, h.symm⟩
    · split at h
      · simp at h
      · injection h with h; exact ⟨_, by decide, h.symm⟩
  · split at h <;> (injection h with h; exact ⟨_, by decide, h.symm⟩)
  · injection h with h; exact ⟨_, by decide, h.symm⟩
  · injection h with h; exact ⟨_, by decide, h.symm⟩
  · injection h with h; exact ⟨_, by decide, h.symm⟩

/-! ### The case analysis -/

/-- What a loop head and the token after it do: the token's meaning, an error raised from `s`, the end of the
pre-pass, or nothing. -/
theorem runFetched_cases {s u t : State} (h : runFetched exec s u = .next t) :
    (∃ c i, u.context = some c ∧ decode c u.tokenSlots = .ok i ∧ exec i u = .next t) ∨
      (u.phase.busy = true ∧ u.phase ≠ .pend ∧ ∃ k, k ≠ .none ∧ t = s.raise k) ∨
      (u.phase = .seq ∧ u.cur.rd = u.cur.srcLen ∧ t = endPrePass u) ∨
      (u.phase.busy = false ∧ t = u) := by
  unfold runFetched fetch at h
  cases hc : u.context with
  | none =>
    rw [hc] at h
    injection h with h
    refine .inr (.inr (.inr ⟨?_, h.symm⟩))
    unfold State.context at hc
    cases hp : u.phase <;> rw [hp] at hc <;> first | rfl | simp at hc
  | some c =>
    have hb : u.phase.busy = true := by
      unfold State.context at hc
      cases hp : u.phase <;> rw [hp] at hc <;> first | rfl | simp at hc
    rw [hc] at h
    simp only at h
    by_cases hs : u.phase = .seq ∧ u.cur.rd = u.cur.srcLen
    · rw [if_pos hs] at h
      injection h with h
      exact .inr (.inr (.inl ⟨hs.1, hs.2, h.symm⟩))
    rw [if_neg hs] at h
    by_cases hu : u.phase = .sbr ∧ u.dest.wr ≠ u.dest.dstLen ∧ u.cur.rd = u.cur.srcLen
    · rw [if_pos hu] at h
      injection h with h
      exact .inr (.inl ⟨hb, by rw [hu.1]; decide, _, by decide, h.symm⟩)
    rw [if_neg hu] at h
    cases hd : decode c u.tokenSlots with
    | ok i =>
      rw [hd] at h
      exact .inl ⟨c, i, rfl, hd, h⟩
    | error r =>
      rw [hd] at h
      refine .inr (.inl ⟨hb, fun hp => ?_, rejected_cases h⟩)
      unfold State.context at hc
      rw [hp] at hc
      injection hc with hc
      subst hc
      simp [decode] at hd

theorem length_srcSlots_of_cons {s : State} {a : Slot} {sl : List Slot} (h : s.srcSlots = a :: sl) :
    s.cur.srcLen - s.cur.rd = sl.length + 1 := by
  rw [← State.length_srcSlots, h, List.length_cons]

/-- Every next state of a step is one of the listed effects. -/
theorem step_effect {s t : State} (h : step s = .next t) : StepEffect s t := by
  unfold step stepWith at h
  cases hp : s.phase with
  | idle | done | error =>
    simp only [State.entryContext, hp] at h
    obtain ⟨c, i, hc, -⟩ | ⟨hb, -⟩ | ⟨hq, -⟩ | ⟨hb, rfl⟩ := runFetched_cases h
    · simp [State.context, hp] at hc
    · simp [hp, Phase.busy] at hb
    · simp [hp] at hq
    · exact .idle hb
  | chdr =>
    have hb : s.phase.busy = true := by rw [hp]; rfl
    have hn : s.phase ≠ .pend := by rw [hp]; decide
    simp only [State.entryContext, hp, decode] at h
    have he : exec .runStart s = execRunStart s := rfl
    rw [he] at h
    unfold execRunStart at h
    by_cases hl : s.host.inLen.toNat > maxInLen
    · rw [if_pos hl] at h
      simp only [State.raise_phase, if_true] at h
      injection h with h
      subst h
      exact .error _ hb hn (by decide)
    · rw [if_neg hl] at h
      simp only [hp, reduceCtorEq, if_false] at h
      obtain ⟨c, i, hc, hd, hx⟩ | ⟨-, -, k, hk, rfl⟩ | ⟨hq, -⟩ | ⟨hq, -⟩ := runFetched_cases h
      · simp only [State.context, Option.some.injEq] at hc
        subst hc
        simp only [decode, State.tokenSlots, reduceCtorEq, if_false] at hd
        obtain ⟨b, rest, hsl, ⟨-, rfl⟩ | ⟨-, h3, rfl⟩⟩ := decodeChdr_ok hd
        · injection hx with hx
          subst hx
          exact .container 1 0 hp (by omega) (.inl ⟨rfl, rfl⟩) (by omega)
        · injection hx with hx
          subst hx
          have hlen := length_srcSlots_of_cons hsl
          simp only at hlen
          exact .container (low7 b).toNat 4 hp (by omega) (.inr ⟨by have := (low7 b).isLt; omega, rfl⟩) (by omega)
      · exact .error k hb hn hk
      · simp at hq
      · simp [Phase.busy] at hq
  | phdr =>
    have hb : s.phase.busy = true := by rw [hp]; rfl
    have hn : s.phase ≠ .pend := by rw [hp]; decide
    simp only [State.entryContext, hp, decode] at h
    have he : exec .passEntry s = execPassEntry s := rfl
    rw [he] at h
    unfold execPassEntry at h
    by_cases hc0 : s.pass.passCount = 0
    · rw [if_pos hc0] at h
      simp only [State.raise_phase, if_true] at h
      injection h with h
      subst h
      exact .error _ hb hn (by decide)
    · rw [if_neg hc0] at h
      simp only [hp, reduceCtorEq, if_false] at h
      obtain ⟨c, i, hc, hd, hx⟩ | ⟨-, -, k, hk, rfl⟩ | ⟨hq, -⟩ | ⟨hq, -⟩ := runFetched_cases h
      · simp only [State.context, hp, Option.some.injEq] at hc
        subst hc
        simp only [decode, State.tokenSlots, hp, reduceCtorEq, if_false] at hd
        obtain ⟨tag, s0, s1, s2, rest, hsl, hi⟩ := decodePhdr_ok hd
        have hlen := length_srcSlots_of_cons hsl
        simp only [List.length_cons] at hlen
        rcases hi with ⟨rfl, rfl⟩ | ⟨rfl, rfl⟩
        · have hx : enterPass 0x01 (le24 s0 s1 s2) .rhdr s = .next t := hx
          unfold enterPass at hx
          split at hx
          · injection hx with hx
            subst hx
            exact .error _ hb hn (by decide)
          · injection hx with hx
            subst hx
            exact .passHeader _ _ _ hp hc0 (by omega) (by omega) (.inl ⟨rfl, rfl⟩)
        · have hx : enterPass 0x02 (le24 s0 s1 s2) .vhdr s = .next t := hx
          unfold enterPass at hx
          split at hx
          · injection hx with hx
            subst hx
            exact .error _ hb hn (by decide)
          · injection hx with hx
            subst hx
            exact .passHeader _ _ _ hp hc0 (by omega) (by omega) (.inr ⟨rfl, rfl⟩)
      · exact .error k hb hn hk
      · simp [hp] at hq
      · simp [hp, Phase.busy] at hq
  | rhdr =>
    have hb : s.phase.busy = true := by rw [hp]; rfl
    have hn : s.phase ≠ .pend := by rw [hp]; decide
    simp only [State.entryContext, hp] at h
    obtain ⟨c, i, hc, hd, hx⟩ | ⟨-, -, k, hk, rfl⟩ | ⟨hq, -⟩ | ⟨hq, -⟩ := runFetched_cases h
    · simp only [State.context, hp, Option.some.injEq] at hc
      subst hc
      simp only [decode, State.tokenSlots, hp, reduceCtorEq, if_false] at hd
      obtain ⟨escs, he, hlen, rfl | ⟨rfl, h2⟩⟩ := decodeRhdr_ok hd
      · rw [State.length_srcSlots] at hlen
        injection hx with hx
        subst hx
        exact .rleHeader escs hp he (by omega)
      · rw [State.length_srcSlots] at hlen
        have hx : execRhdrSeq escs s = .next t := hx
        unfold execRhdrSeq at hx
        split at hx
        · injection hx with hx
          subst hx
          exact .error _ hb hn (by decide)
        · injection hx with hx
          subst hx
          exact .seqHeader escs hp ⟨h2, he⟩ (by omega)
    · exact .error k hb hn hk
    · simp [hp] at hq
    · simp [hp, Phase.busy] at hq
  | seq =>
    have hb : s.phase.busy = true := by rw [hp]; rfl
    have hn : s.phase ≠ .pend := by rw [hp]; decide
    simp only [State.entryContext, hp] at h
    obtain ⟨c, i, hc, hd, hx⟩ | ⟨-, -, k, hk, rfl⟩ | ⟨-, hrd, rfl⟩ | ⟨hq, -⟩ := runFetched_cases h
    · simp only [State.context, hp, Option.some.injEq] at hc
      subst hc
      simp only [decode, State.tokenSlots, hp, reduceCtorEq, if_false] at hd
      obtain ⟨b, rest, hne, hsl, rfl⟩ | ⟨body, rep, rest, hne, rfl, hsl⟩ := decodeSeq_ok hd
      · have hlen := length_srcSlots_of_cons hsl
        have hx : finish s (emit [b] (s.advance 1)) = .next t := hx
        obtain he | ⟨k, hk, rfl⟩ := finish_cases (emit_kinds _ _) hx
        · obtain ⟨hfit, rfl⟩ := emit_ok.1 he
          exact .seqLit b hp hne (by omega) hfit
        · exact .error k hb hn hk
      · have hlen := length_srcSlots_of_cons hsl
        simp only [List.length_append, List.length_map, List.length_cons] at hlen
        obtain he | ⟨k, hk, rfl⟩ := finish_cases
          ((emit_kinds _ _).bind fun _ => (extraCopies_kinds _ _).bind fun _ => emit_kinds _ _) hx
        · obtain ⟨u, hu, he⟩ := Except.bind_eq_ok.1 he
          obtain ⟨extra, hex, he⟩ := Except.bind_eq_ok.1 he
          obtain ⟨-, rfl⟩ := emit_ok.1 hu
          obtain ⟨hfit, rfl⟩ := emit_ok.1 he
          refine .seqBlock body rep extra hp hne (by omega) hex ?_
          simp only [List.length_flatten, List.map_replicate, List.sum_replicate, smul_eq_mul] at hfit
          cases hd : s.dest.dst <;>
            simp only [State.wrCursor, State.append, Dest.wrote, State.advance, hd] at hfit ⊢ <;> omega
        · exact .error k hb hn hk
    · exact .error k hb hn hk
    · exact .preEnd hp hrd
    · simp [hp, Phase.busy] at hq
  | sbr =>
    have hb : s.phase.busy = true := by rw [hp]; rfl
    have hn : s.phase ≠ .pend := by rw [hp]; decide
    simp only [State.entryContext, hp] at h
    obtain ⟨c, i, hc, hd, hx⟩ | ⟨-, -, k, hk, rfl⟩ | ⟨hq, -⟩ | ⟨hq, -⟩ := runFetched_cases h
    · simp only [State.context, hp, Option.some.injEq] at hc
      subst hc
      simp only [decode, State.tokenSlots, hp, reduceCtorEq, if_false, decide_eq_true_eq] at hd
      by_cases hw : s.dest.wr = s.dest.dstLen
      · rw [if_pos hw] at hd
        injection hd with hd
        subst hd
        injection hx with hx
        subst hx
        exact .passEnd (.inl hp) hw
      · rw [if_neg hw] at hd
        obtain ⟨len, n, v, hl, h1, hlen⟩ := decodeSbr_ok hd
        rw [State.length_srcSlots] at hlen
        rw [exec_run hl, runToken_eq] at hx
        split at hx
        · next hfit =>
          injection hx with hx
          subst hx
          exact .run len n v hp hw h1 (by omega) hfit
        · injection hx with hx
          subst hx
          exact .error _ hb hn (by decide)
    · exact .error k hb hn hk
    · simp [hp] at hq
    · simp [hp, Phase.busy] at hq
  | vhdr =>
    have hb : s.phase.busy = true := by rw [hp]; rfl
    have hn : s.phase ≠ .pend := by rw [hp]; decide
    simp only [State.entryContext, hp] at h
    obtain ⟨c, i, hc, hd, hx⟩ | ⟨-, -, k, hk, rfl⟩ | ⟨hq, -⟩ | ⟨hq, -⟩ := runFetched_cases h
    · simp only [State.context, hp, Option.some.injEq] at hc
      subst hc
      simp only [decode, State.tokenSlots, hp, reduceCtorEq, if_false] at hd
      obtain ⟨counts, alphabet, rest, rfl, h1, h2, h3, hsl⟩ := decodeVhdr_ok hd
      have hlen := length_srcSlots_of_cons hsl
      simp only [List.length_append, List.length_map] at hlen
      obtain he | ⟨k, hk, rfl⟩ := finish_cases ((withDirect_kinds _ _).bind fun _ => initWindow_kinds _) hx
      · obtain ⟨v, hv, he⟩ := Except.bind_eq_ok.1 he
        exact .vleHeader counts alphabet v t hp (by simp [Instr.wellFormed, h1, h2, h3]) (by omega) hv he
      · exact .error k hb hn hk
    · exact .error k hb hn hk
    · simp [hp] at hq
    · simp [hp, Phase.busy] at hq
  | vdec =>
    have hb : s.phase.busy = true := by rw [hp]; rfl
    have hn : s.phase ≠ .pend := by rw [hp]; decide
    simp only [State.entryContext, hp] at h
    obtain ⟨c, i, hc, hd, hx⟩ | ⟨-, -, k, hk, rfl⟩ | ⟨hq, -⟩ | ⟨hq, -⟩ := runFetched_cases h
    · simp only [State.context, hp, Option.some.injEq] at hc
      subst hc
      simp only [decode, State.tokenSlots, hp, if_true, decide_eq_true_eq] at hd
      by_cases hw : s.dest.wr = s.dest.dstLen
      · rw [if_pos hw] at hd
        injection hd with hd
        subst hd
        injection hx with hx
        subst hx
        exact .passEnd (.inr hp) hw
      · rw [if_neg hw] at hd
        obtain ⟨pfx, rest, hsl, hi⟩ := decodeVdec_ok hd
        injection hsl with hsl
        injection hsl with hsl
        subst hsl
        rcases hi with ⟨w, h1, h8, hl, hwid⟩ | ⟨rfl, -⟩
        · rw [exec_short hl] at hx
          have hk : ∀ u : State, RaisesKinds (if u.dest.wr = u.dest.dstLen then .ok u else shiftWindow w u) := by
            intro u
            split
            · exact RaisesKinds.ok _
            · exact shiftWindow_kinds _ _
          obtain he | ⟨k, hk, rfl⟩ := finish_cases ((emit_kinds _ _).bind hk) hx
          · obtain ⟨u, hu, he⟩ := Except.bind_eq_ok.1 he
            refine .short w u t hp hw ⟨h1, h8⟩ hwid hu ?_
            split at he
            · next hf =>
              injection he with he
              rw [if_pos hf, he]
            · next hf => rw [if_neg hf]; exact he
          · exact .error k hb hn hk
        · have hk : ∀ u : State, RaisesKinds (if u.dest.wr = u.dest.dstLen then .ok u else reloadWindow u) := by
            intro u
            split
            · exact RaisesKinds.ok _
            · exact reloadWindow_kinds _
          obtain he | ⟨k, hk, rfl⟩ := finish_cases ((escapeLoop_kinds _ _).bind hk) hx
          · obtain ⟨u, hu, he⟩ := Except.bind_eq_ok.1 he
            refine .long u t hp hw hu ?_
            split at he
            · next hf =>
              injection he with he
              rw [if_pos hf, he]
            · next hf => rw [if_neg hf]; exact he
          · exact .error k hb hn hk
    · exact .error k hb hn hk
    · simp [hp] at hq
    · simp [hp, Phase.busy] at hq
  | pend =>
    simp only [State.entryContext, hp] at h
    obtain ⟨c, i, hc, hd, hx⟩ | ⟨-, hq, -⟩ | ⟨hq, -⟩ | ⟨hq, -⟩ := runFetched_cases h
    · simp only [State.context, hp, Option.some.injEq] at hc
      subst hc
      simp only [decode, Except.ok.injEq, decide_eq_true_eq] at hd
      by_cases hl : s.pass.passIndex + 1 = s.pass.passCount
      · rw [if_pos hl] at hd
        subst hd
        exact .done t hp hl hx
      · rw [if_neg hl] at hd
        subst hd
        exact .chain t hp hl hx
    · exact absurd hp hq
    · simp [hp] at hq
    · simp [hp, Phase.busy] at hq

end Sys2Proof.Machine
end

