-- ==== Sys2Proof/Tests/Slice0.lean ====
section
/-! SUPPORT. The model's own tests. Expected results are from 95_test_vectors.md, from the layouts of 30_encoding.md, or
computed by hand from the rule named. The witnesses at the end meet the hypotheses of the statements. -/

namespace Sys2Proof.Tests

open Sys2Proof.Machine

-- One theorem after another: elaborated side by side, these closed evaluations wait on each other in many threads.
set_option Elab.async false

/-! ### Helpers -/

/-- A core in a phase, pass 0 of 1, with the source bytes in IN_MEM and an empty output of `n` bytes. -/
def coreAt (p : Phase) (src : List Byte) (n : Nat) : State :=
  { State.reset with
    phase := p
    cur := { rd := 0, srcLen := src.length, src := .inMem }
    host.inLen := BitVec.ofNat 32 src.length
    buf.inMem := cellsAt 0 src
    pass := { passCount := 1, passIndex := 0, tag := 1, subFileSize := BitVec.ofNat 24 n }
    dest := { dst := if p = .seq then .tmp else .out, wr := 0, dstLen := n, tmpWr := 0 } }

/-- The outcome is a next state with a property. -/
def gives (o : Out) (p : State → Bool) : Bool :=
  match o with
  | .next t => p t
  | .fault _ | .refused _ => false

/-- The outcome is the error `k`, with the cursors, the pass registers and the window of the state before the step. -/
def errs (o : Out) (s : State) (k : ErrKind) : Bool :=
  gives o fun t => decide (t.phase = .error ∧ t.cur = s.cur ∧ t.dest = s.dest ∧ t.pass = s.pass ∧ t.win = s.win ∧
    t.host = { s.host with errKind := k, errPass := s.pass.passIndex, resultLen := 0 } ∧
    t.buf = { s.buf with out := [], tmp := [], prevOut := [], result := [] })

theorem exists_next {o : Out} {p : State → Bool} (h : gives o p = true) : ∃ t, o = .next t ∧ p t = true := by
  cases o with
  | next t => exact ⟨t, rfl, h⟩
  | fault f => simp [gives] at h
  | refused r => simp [gives] at h

/-- The tables of a VLE header. -/
def built (counts alphabet : List Byte) : VleRegs :=
  match (State.reset.vle.withCounts counts alphabet).withDirect counts with
  | .ok v => v
  | .error _ => State.reset.vle

/-- A core in VDEC with the tables of a header, and a code stream whose first two bytes are the window's. -/
def vdecAt (counts alphabet : List Byte) (hi lo : Byte) (rest : List Byte) (n : Nat) : State :=
  { coreAt .vdec rest n with
    vle := built counts alphabet
    win := { word := hi ++ lo, br := 8, cs := 0, escIndex := 0 } }

/-! ### Well-formedness: an ill-formed term for each check -/

theorem test_wf_noseq_escapes : (Instr.rhdrNoseq (List.replicate 11 0)).wellFormed = false := by decide

theorem test_wf_seq_too_few : (Instr.rhdrSeq [0x7E]).wellFormed = false := by decide

theorem test_wf_seq_too_many : (Instr.rhdrSeq (List.replicate 11 0)).wellFormed = false := by decide

theorem test_wf_block_bracket : (Instr.seqBlock 0x7F [1, 0x7F, 2] 4).wellFormed = false := by decide

theorem test_wf_vle_widths : (Instr.vleHdr (List.replicate 16 0) []).wellFormed = false := by decide

theorem test_wf_vle_alphabet_257 :
    (Instr.vleHdr [0xFF, 2] (List.replicate 257 0)).wellFormed = false := by decide +kernel

theorem test_wf_vle_alphabet_length : (Instr.vleHdr [2] [0x41]).wellFormed = false := by decide

theorem test_wf_accepts :
    (Instr.rhdrNoseq []).wellFormed = true ∧ (Instr.rhdrSeq [0x7E, 0x7F]).wellFormed = true ∧
      (Instr.seqBlock 0x7F [] 4).wellFormed = true ∧ (Instr.vleHdr [2] [0x41, 0x42]).wellFormed = true := by decide

/-! ### Decoding: words written out from 30_encoding.md -/

theorem test_decode_heads :
    decode .runStart [] = .ok .runStart ∧ decode .passEntry [] = .ok .passEntry ∧
      decode (.pend false) [] = .ok .passChain ∧ decode (.pend true) [] = .ok .runDone ∧
      decode (.sbr true (buildLookup [])) [some 1] = .ok .passEnd ∧
      decode (.vdec true identityWidths) [some 1] = .ok .passEnd := ⟨rfl, rfl, rfl, rfl, rfl, rfl⟩

/-- R86: bit 7 of byte 0 picks the form. -/
theorem test_decode_chdr :
    decode .chdr [some 0x7F] = .ok (.chdrSingle 0x7F) ∧
      decode .chdr [some 0xFF, none, none, none] = .ok (.chdrMulti 0x7F) := ⟨rfl, rfl⟩

/-- R87: LE24(E8, 03, 00) = 1000. -/
theorem test_decode_phdr :
    decode .phdr [some 1, some 0xE8, some 3, some 0] = .ok (.phdrRle 1000) ∧
      decode .phdr [some 2, some 0xFF, some 0xFF, some 0xFF] = .ok (.phdrVle 0xFFFFFF) ∧
      decode .phdr [some 3, some 1, some 0, some 0] = .error (.badAlgorithmTag 1) := ⟨rfl, rfl, rfl⟩

/-- R88, R89: S2's and S3's headers, and the illegal counts of H1 and H4. -/
theorem test_decode_rhdr :
    decode .rhdr [none, none, none, none, some 0x81, some 0xAA] = .ok (.rhdrNoseq [0xAA]) ∧
      decode .rhdr [none, none, none, none, some 0x02, some 0x7E, some 0x7F] = .ok (.rhdrSeq [0x7E, 0x7F]) ∧
      decode .rhdr [none, none, none, none, some 0x8B] = .error .badRLEEscapeTable ∧
      decode .rhdr [none, none, none, none, some 0x01, some 0x7F] = .error .badRLEEscapeTable :=
  ⟨rfl, rfl, rfl, rfl⟩

/-- R93. -/
theorem test_decode_seq :
    decode (.seq 0x7F) [some 0x7E] = .ok (.seqLit 0x7E) ∧
      decode (.seq 0x7F) [some 0x7F, some 1, some 2, some 3, some 0x7F, some 4] = .ok (.seqBlock 0x7F [1, 2, 3] 4) ∧
      decode (.seq 0x7F) [some 0x7F, some 1, some 2] = .error (.blockCut 2 false) ∧
      decode (.seq 0x7F) [some 0x7F, some 1, some 0x7F] = .error (.blockCut 1 false) := ⟨rfl, rfl, rfl, rfl⟩

/-- R91, R92, with the ten escape bytes E0 … E9 of H5: `k` is the index plus 1. -/
theorem test_decode_sbr :
    let c := Ctx.sbr false (buildLookup [0xE0, 0xE1, 0xE2, 0xE3, 0xE4, 0xE5, 0xE6, 0xE7, 0xE8, 0xE9])
    decode c [some 0x41] = .ok (.rleLit 0x41) ∧ decode c [some 0xE0, some 5, some 0x42] = .ok (.rleSrun 0xE0 5 0x42) ∧
      decode c [some 0xE1, some 7] = .ok (.rleIrunK2 0xE1 7) ∧
      decode c [some 0xE2, some 0x02, some 0x01, some 0x55] = .ok (.rleLrun 0xE2 258 0x55) ∧
      decode c [some 0xE3, some 7] = .ok (.rleIrunK4 0xE3 7) ∧ decode c [some 0xE4, some 7] = .ok (.rleIrunK5 0xE4 7) ∧
      decode c [some 0xE5, some 7] = .ok (.rleIrunK6 0xE5 7) ∧ decode c [some 0xE6, some 7] = .ok (.rleIrunK7 0xE6 7) ∧
      decode c [some 0xE7, some 7] = .ok (.rleIrunK8 0xE7 7) ∧ decode c [some 0xE8, some 7] = .ok (.rleIrunK9 0xE8 7) ∧
      decode c [some 0xE9, some 7] = .ok (.rleIrunK10 0xE9 7) := by decide +kernel

/-- R94: S4's header, and the rejections V3, V4 and V5. -/
theorem test_decode_vhdr :
    decode .vhdr [some 0x81, some 2, some 0x41, some 0x42] = .ok (.vleHdr [2] [0x41, 0x42]) ∧
      decode .vhdr [some 0x01] = .error .badVLEHeader ∧ decode .vhdr [some 0x90] = .error .badVLEHeader ∧
      decode .vhdr [some 0x82, some 0xFF, some 2] = .error .badVLEHeader := by decide +kernel

/-- R97: a prefix whose entry is w is a short code of width w, one whose entry is 0x40 a long code. -/
theorem test_decode_vdec :
    let c := Ctx.vdec false identityWidths
    decode c [some 1] = .ok (.vleShortW1 1) ∧ decode c [some 2] = .ok (.vleShortW2 2) ∧
      decode c [some 3] = .ok (.vleShortW3 3) ∧ decode c [some 4] = .ok (.vleShortW4 4) ∧
      decode c [some 5] = .ok (.vleShortW5 5) ∧ decode c [some 6] = .ok (.vleShortW6 6) ∧
      decode c [some 7] = .ok (.vleShortW7 7) ∧ decode c [some 8] = .ok (.vleShortW8 8) ∧
      decode c [some 9] = .ok (.vleLong 9) ∧
      decode (.vdec false (Vector.replicate 256 0)) [some 9] = .error .badVLECode := by decide +kernel

/-- A table word is placed where the next step runs it. -/
theorem test_table_words :
    decodeTableWord 0 0 = some .runStart ∧ decodeTableWord 8 0x80 = some (.chdrMulti 0) ∧
      decodeTableWord 8 3 = some (.rleLrun 3 0 0) ∧
      gives (step (State.reset.withFetchWord 8 0x80)) (fun t => decide (t.phase = .phdr ∧ t.cur.rd = 4)) = true ∧
      gives (step (State.reset.withFetchWord 8 3)) (fun t => decide (t.phase = .sbr ∧ t.cur.rd = 4)) = true := by
  decide +kernel

/-! ### Single steps -/

/-- D1, D2 and D3. -/
theorem test_step_chdr_errors :
    errs (step { coreAt .chdr [] 0 with host.inLen := 0x01000000 })
        { coreAt .chdr [] 0 with host.inLen := 0x01000000 } .inputTooLarge = true ∧
      errs (step (coreAt .chdr [] 0)) (coreAt .chdr [] 0) .truncated = true ∧
      errs (step (coreAt .chdr [0x80, 0, 0] 0)) (coreAt .chdr [0x80, 0, 0] 0) .truncated = true := by decide +kernel

/-- R116: byte 0 is not consumed. R117: pass count 0x82 − 0x80 = 2, `rd` = 4. -/
theorem test_step_chdr :
    gives (step (coreAt .chdr [1, 3, 0, 0] 0))
        (fun t => decide (t.phase = .phdr ∧ t.cur.rd = 0 ∧ t.cur.srcLen = 4 ∧ t.pass.passCount = 1)) = true ∧
      gives (step (coreAt .chdr [0x82, 9, 9, 9] 0))
        (fun t => decide (t.phase = .phdr ∧ t.cur.rd = 4 ∧ t.pass.passCount = 2)) = true := by decide +kernel

/-- S1 step 2, S4's header, and R118, D8 and D12's order of checks. -/
theorem test_step_phdr :
    gives (step (coreAt .phdr [1, 3, 0, 0] 9))
        (fun t => decide (t.phase = .rhdr ∧ t.cur.rd = 4 ∧ t.pass.tag = 1 ∧ t.dest.dstLen = 3)) = true ∧
      gives (step (coreAt .phdr [2, 4, 0, 0] 9))
        (fun t => decide (t.phase = .vhdr ∧ t.pass.tag = 2 ∧ t.pass.subFileSize = 4)) = true ∧
      errs (step { coreAt .phdr [1, 3, 0, 0] 9 with pass.passCount := 0 })
        { coreAt .phdr [1, 3, 0, 0] 9 with pass.passCount := 0 } .badContainerHeader = true ∧
      errs (step (coreAt .phdr [3, 0, 0, 0] 9)) (coreAt .phdr [3, 0, 0, 0] 9) .badAlgorithmTag = true ∧
      errs (step { coreAt .phdr [3, 0xFF, 0xFF, 0xFF] 9 with cfg.bufCapacity := 2 })
        { coreAt .phdr [3, 0xFF, 0xFF, 0xFF] 9 with cfg.bufCapacity := 2 } .allocationFailed = true := by
  decide +kernel

/-- R139–R142 on S2's and S3's headers. -/
theorem test_step_rhdr :
    gives (step (coreAt .rhdr [0, 0, 0, 0, 0x81, 0xAA] 5))
        (fun t => decide (t.phase = .sbr ∧ t.cur.rd = 6 ∧ t.rle.noSeq = true ∧ t.rle.escLookup[0xAA] = 1)) = true ∧
      gives (step (coreAt .rhdr [0, 0, 0, 0, 2, 0x7E, 0x7F] 12))
        (fun t => decide (t.phase = .seq ∧ t.cur.rd = 7 ∧ t.rle.bracket = 0x7F ∧ t.dest.dst = .tmp)) = true := by
  decide +kernel

/-- A SEQ state with the escapes of S3. -/
def seqAt (src : List Byte) (n : Nat) : State :=
  { coreAt .seq src n with rle := { State.reset.rle.withEscapes false [0x7E, 0x7F] with bracket := 0x7F } }

/-- S3 step 2, a literal, and the end of the pre-pass (R148). -/
theorem test_step_seq :
    gives (step (seqAt [0x7F, 1, 2, 3, 0x7F, 4] 12)) (fun t => decide (t.cur.rd = 6 ∧ t.rle.rep = 4 ∧
        t.buf.tmp = cellsAt 0 [1, 2, 3, 1, 2, 3, 1, 2, 3, 1, 2, 3] ∧ t.dest.tmpWr = 12 ∧ t.buf.out = [])) = true ∧
      gives (step (seqAt [0x41] 12)) (fun t => decide (t.buf.tmp = [(0, 0x41)] ∧ t.dest.tmpWr = 1)) = true ∧
      gives (step (seqAt [] 12)) (fun t => decide (t.phase = .sbr ∧ t.cur.src = .tmp ∧ t.dest.dst = .out)) = true := by
  decide +kernel

/-- Q5a, Q5b, Q7 and Q8, at the block. -/
theorem test_step_seq_errors :
    errs (step (seqAt [0x7F, 0x41, 0x42, 0x7F, 0] 2)) (seqAt [0x7F, 0x41, 0x42, 0x7F, 0] 2) .badSequenceRepeat = true ∧
      gives (step { seqAt [0x7F, 0x41, 0x42, 0x7F, 0] 2 with cfg.seqRepZero := .noExtra })
        (fun t => decide (t.buf.tmp = cellsAt 0 [0x41, 0x42])) = true ∧
      errs (step (seqAt [0x7F, 0x41, 0x7F] 1)) (seqAt [0x7F, 0x41, 0x7F] 1) .truncated = true ∧
      errs (step (seqAt [0x7F, 0x41, 0x42, 0x7F, 3] 5)) (seqAt [0x7F, 0x41, 0x42, 0x7F, 3] 5) .overflowOutput = true := by
  decide +kernel

/-- An SBR state with the ten escapes of H5. -/
def sbrAt (src : List Byte) (n : Nat) : State :=
  { coreAt .sbr src n with
    rle := State.reset.rle.withEscapes true [0xE0, 0xE1, 0xE2, 0xE3, 0xE4, 0xE5, 0xE6, 0xE7, 0xE8, 0xE9] }

/-- A run token leaves `n` copies of `v` and a read cursor of `rd`. -/
def leavesRun (src : List Byte) (rd n : Nat) (v : Byte) : Bool :=
  gives (step (sbrAt src 300)) fun t =>
    decide (t.buf.out = cellsAt 0 (List.replicate n v) ∧ t.cur.rd = rd ∧ t.dest.wr = n)

/-- R144–R147: the run lengths 1, 5, 0, 258 (B9) and `k − 1`. -/
theorem test_step_sbr :
    leavesRun [0x41] 1 1 0x41 = true ∧ leavesRun [0xE0, 5, 0x42] 3 5 0x42 = true ∧
      leavesRun [0xE0, 0, 0x42] 3 0 0x42 = true ∧ leavesRun [0xE2, 0x02, 0x01, 0x55] 4 258 0x55 = true ∧
      leavesRun [0xE1, 7] 2 1 7 = true ∧ leavesRun [0xE3, 7] 2 3 7 = true ∧ leavesRun [0xE4, 7] 2 4 7 = true ∧
      leavesRun [0xE5, 7] 2 5 7 = true ∧ leavesRun [0xE6, 7] 2 6 7 = true ∧ leavesRun [0xE7, 7] 2 7 7 = true ∧
      leavesRun [0xE8, 7] 2 8 7 = true ∧ leavesRun [0xE9, 7] 2 9 7 = true := by decide +kernel

/-- B5, B7, B15 and R143. -/
theorem test_step_sbr_ends :
    errs (step (sbrAt [0xE0, 6, 0x42] 5)) (sbrAt [0xE0, 6, 0x42] 5) .overflowOutput = true ∧
      errs (step (sbrAt [0xE0, 5] 5)) (sbrAt [0xE0, 5] 5) .truncated = true ∧
      errs (step (sbrAt [] 5)) (sbrAt [] 5) .underflowOutput = true ∧
      gives (step (sbrAt [0x41] 0)) (fun t => decide (t.phase = .pend ∧ t.cur.rd = 0)) = true := by decide +kernel

/-- S4's tables and window (42_vle.md R197), the errors V2 and V6, and a header cut inside its counts, whose total is
already above 256 (R173, R174). -/
theorem test_step_vhdr :
    gives (step (coreAt .vhdr [0x81, 2, 0x41, 0x42, 0x40, 0x00] 4))
        (fun t => decide (t.phase = .vdec ∧ t.win.word = 0x4000 ∧ t.win.br = 8 ∧ t.cur.rd = 6 ∧
          t.vle.escLimit[0] = 2 ∧ t.vle.escBase[0] = 0 ∧ t.vle.widths[0x80] = 1 ∧ t.vle.symbols[0x7F] = 0x41 ∧
          t.vle.symbols[0x80] = 0x42)) = true ∧
      errs (step (coreAt .vhdr [0x81, 2, 0x41, 0x42, 0x40] 4)) (coreAt .vhdr [0x81, 2, 0x41, 0x42, 0x40] 4)
        .truncated = true ∧
      errs (step (coreAt .vhdr [0x83, 0xFF, 0xFF] 4)) (coreAt .vhdr [0x83, 0xFF, 0xFF] 4) .truncated = true ∧
      errs (step (coreAt .vhdr [0x81, 3, 0x41, 0x42, 0x43, 0, 0] 1)) (coreAt .vhdr [0x81, 3, 0x41, 0x42, 0x43, 0, 0] 1)
        .badVLEHeader = true := by decide +kernel

/-- The limits and bases of V12's header (95_test_vectors.md, the table after 2.5). -/
theorem test_tables_v12 :
    let v := built [1, 1, 1, 1, 1, 1, 1, 2] [0x41, 0x42, 0x43, 0x44, 0x45, 0x46, 0x47, 0x48, 0x49]
    v.escLimit.toList.take 8 = [1, 3, 7, 15, 31, 63, 127, 256] ∧
      (v.escBase.toList.take 8).map BitVec.toInt = [0, -1, -4, -11, -26, -57, -120, -247] := by decide +kernel

/-- A short code emits `b` and leaves the window `word` with `br` bits. -/
def leavesShort (s : State) (b : Byte) (word : BitVec 16) (br : Nat) : Bool :=
  gives (step s) fun t => decide (t.buf.out = [(0, b)] ∧ t.win.word = word ∧ t.win.br = br)

/-- V12's code: width w is w − 1 ones and a zero; the window moves on by w bits (R186). -/
theorem test_step_short :
    let s := fun (hi : Byte) => vdecAt [1, 1, 1, 1, 1, 1, 1, 2] [1, 2, 3, 4, 5, 6, 7, 8, 9] hi 0x55 [0xFF] 9
    leavesShort (s 0x00) 1 0x00AA 7 = true ∧ leavesShort (s 0x80) 2 0x0154 6 = true ∧
      leavesShort (s 0xC0) 3 0x02A8 5 = true ∧ leavesShort (s 0xE0) 4 0x0550 4 = true ∧
      leavesShort (s 0xF0) 5 0x0AA0 3 = true ∧ leavesShort (s 0xF8) 6 0x1540 2 = true ∧
      leavesShort (s 0xFC) 7 0x2A80 1 = true ∧ leavesShort (s 0xFF) 9 0x5500 0 = true := by decide +kernel

/-- R186's refill: 1 bit is left, a width-2 code takes it and one bit of the next byte. -/
theorem test_step_short_refill :
    let s := vdecAt [1, 1] [1, 2] 0x80 0x80 [0xC1] 9
    gives (step { s with win.br := 1 }) (fun t => decide (t.buf.out = [(0, 2)] ∧ t.win.word = 0x0382 ∧
      t.win.br = 7 ∧ t.cur.rd = 1)) = true ∧
    errs (step { s with win.br := 1, cur.srcLen := 0 }) { s with win.br := 1, cur.srcLen := 0 } .truncated = true ∧
    gives (step { s with win.br := 1, dest.wr := 8, buf.out := cellsAt 0 [0, 0, 0, 0, 0, 0, 0, 0] })
      (fun t => decide (t.dest.wr = 9 ∧ t.win = { s.win with br := 1 } ∧ t.cur.rd = 0)) = true := by decide +kernel

/-- V9's long code B = 100000000: one iteration past the prefix, then the reload (R187–R192). V11 and V11b: an
unused code is cut, or bad. V10: the reload byte is missing; where the output is full it is not read. -/
theorem test_step_long :
    let s := vdecAt [1, 0, 0, 0, 0, 0, 0, 0, 2] [0x41, 0x42, 0x43] 0x80 0x20 [0x20] 3
    let u := fun rest => vdecAt [1] [0x41] 0x80 0x00 rest 1
    gives (step s) (fun t => decide (t.buf.out = [(0, 0x42)] ∧ t.win.word = 0x4040 ∧ t.win.br = 7 ∧
      t.win.escIndex = 8 ∧ t.cur.rd = 1)) = true ∧
    errs (step (u [])) (u []) .truncated = true ∧ errs (step (u [0])) (u [0]) .badVLECode = true ∧
    errs (step { s with cur.srcLen := 0 }) { s with cur.srcLen := 0 } .truncated = true ∧
    gives (step { s with dest.dstLen := 1 }) (fun t => decide (t.win = { word := 0x0100, br := 7, cs := 0x40, escIndex := 8 } ∧
      t.cur.rd = 0)) = true := by decide +kernel

/-- R32, 20_memory.md R80: TMP is gone when its pass has ended. -/
theorem test_step_pass_end :
    let s := { coreAt .sbr [] 0 with cur.src := .tmp, buf.tmp := [(0, 5)] }
    gives (step s) (fun t => decide (t.phase = .pend ∧ t.buf.tmp = [])) = true := by decide +kernel

/-- R126, R127. -/
theorem test_step_pend :
    let s := { coreAt .pend [] 1 with dest.wr := 1, buf.out := [(0, 5)] }
    gives (step s) (fun t => decide (t.phase = .done ∧ t.host.resultLen = 1 ∧ t.buf.result = [(0, 5)])) = true ∧
    gives (step { s with pass.passCount := 2 }) (fun t => decide (t.phase = .phdr ∧ t.pass.passIndex = 1 ∧
      t.cur.src = .prevOut ∧ t.cur.srcLen = 1 ∧ t.buf.prevOut = [(0, 5)])) = true := by decide +kernel

/-- The model's own stop: a byte below IN_LEN that nothing has written (log 5). -/
theorem test_step_unwritten :
    (match step { coreAt .chdr [] 0 with host.inLen := 1 } with
      | .fault .unwrittenByte => true
      | .next _ | .refused _ => false) = true := by decide +kernel

/-- R221–R224, R41, R45, R245: START, a busy IN_LEN write, a busy IN_MEM write, and the readable result. -/
theorem test_host :
    let s := { coreAt .done [1] 1 with host.resultLen := 1, buf.result := [(0, 7)] }
    gives (hostStep (.writeReg 0 1) s) (fun t => decide (t.phase = .chdr ∧ t.host.resultLen = 0 ∧ t.buf.result = [])) = true ∧
      gives (hostStep (.writeReg 0x10 9) (coreAt .sbr [1] 1)) (fun t => decide (t.host.inLen = 1)) = true ∧
      (match hostStep (.writeInput 0 9) (coreAt .sbr [1] 1) with
        | .refused .inputWriteWhileBusy => true
        | .next _ | .fault _ | .refused _ => false) = true ∧
      (match readResult 0 s with | .ok b => decide (b = 7) | .error _ => false) = true ∧
      (match readReg 0x04 s with | .ok v => decide (v = 2) | .error _ => false) = true := by decide +kernel

/-! ### Sound states -/

/-- A core right after START, with an RLE container of one literal loaded. -/
def started : State :=
  (State.reset.loadContainer [1, 1, 0, 0, 0, 0, 0, 0, 0x80, 0x41]).startRun

/-- An idle core with that container loaded. -/
def loaded : State :=
  State.reset.loadContainer [1, 1, 0, 0, 0, 0, 0, 0, 0x80, 0x41]

/-- A core in SBR after a sequence pre-pass that left one byte in TMP. -/
def afterPrePass : State :=
  { seqAt [] 1 with
    phase := .sbr
    cur := { rd := 0, srcLen := 1, src := .tmp }
    dest := { dst := .out, wr := 0, dstLen := 1, tmpWr := 1 }
    buf := { State.reset.buf with tmp := [(0, 0x41)] } }

/-- A core at the end of its only pass, with one byte in OUT. -/
def finished : State :=
  { coreAt .pend [] 1 with dest.wr := 1, buf.out := [(0, 5)] }

theorem read_singleton (b : Byte) (a : Nat) : Memory.read [(0, b)] a = if a = 0 then some b else none := by
  cases a <;> rfl

theorem filledTo_one (b : Byte) : Memory.FilledTo [(0, b)] 1 := by
  intro a
  rw [read_singleton]
  by_cases h : a = 0 <;> simp [h]

/-- The VLE engine of a state that has decoded no VLE pass since reset. -/
theorem vleSound_of_reset {s : State} (hv : s.vle = State.reset.vle) (hw : s.win = State.reset.win)
    (hp : s.phase ≠ .vdec) : s.VleSound where
  window h := absurd h hp
  brLe := by rw [hw]; decide
  escIndexRange := by rw [hw]; exact .inl rfl
  wLe := by rw [hv]; decide
  offsets h := absurd h hp
  alphabetLe := by rw [hv]; decide
  widthSumRange := by rw [hv]; decide
  tableRanges := by rw [hv]; decide
  tableTail := by rw [hv]; decide
  widthsLegal h := absurd h hp
  escapeSymbols h := absurd h hp

theorem started_sound : started.Sound where
  memories := ⟨by decide, by decide, by decide, by decide, by decide, by decide⟩
  cursors := ⟨by decide, by decide, by decide, by decide, by decide, by decide, by decide, by decide, by decide, by decide, by decide⟩
  passes := ⟨by decide, by decide, by decide, by decide, by decide, by decide, by decide, by decide, by decide⟩
  buffers := ⟨fun h => absurd h (by decide), by decide, fun h => absurd h (by decide), by decide, fun _ h => absurd rfl h,
    fun h => absurd h (by decide), by decide, by decide, by decide⟩
  rle := ⟨by decide, by decide, by decide, by decide, by decide, fun h => absurd h (by decide), fun h => absurd h (by decide)⟩
  vle := vleSound_of_reset rfl rfl (by decide)

theorem loaded_sound : loaded.Sound where
  memories := ⟨by decide, by decide, by decide, by decide, by decide, by decide⟩
  cursors := ⟨by decide, by decide, by decide, by decide, by decide, by decide, by decide, by decide, by decide, by decide, by decide⟩
  passes := ⟨by decide, by decide, by decide, by decide, by decide, by decide, by decide, by decide, by decide⟩
  buffers := ⟨fun h => absurd h (by decide), by decide, fun h => absurd h (by decide), by decide, fun _ h => absurd rfl h,
    fun h => absurd h (by decide), by decide, by decide, by decide⟩
  rle := ⟨by decide, by decide, by decide, by decide, by decide, fun h => absurd h (by decide), fun h => absurd h (by decide)⟩
  vle := vleSound_of_reset rfl rfl (by decide)

/-- The same with other bytes beyond the input and a stale register. -/
def loadedOver : State :=
  { State.reset.loadContainer [1, 1, 0, 0, 0, 0, 0, 0, 0x80, 0x41, 0x99] with
    host.inLen := 10
    rle.bracket := 0x41 }

theorem loadedOver_sound : loadedOver.Sound where
  memories := ⟨by decide, by decide, by decide, by decide, by decide, by decide⟩
  cursors := ⟨by decide, by decide, by decide, by decide, by decide, by decide, by decide, by decide, by decide, by decide, by decide⟩
  passes := ⟨by decide, by decide, by decide, by decide, by decide, by decide, by decide, by decide, by decide⟩
  buffers := ⟨fun h => absurd h (by decide), by decide, fun h => absurd h (by decide), by decide, fun _ h => absurd rfl h,
    fun h => absurd h (by decide), by decide, by decide, by decide⟩
  rle := ⟨by decide, by decide, by decide, by decide, by decide, fun h => absurd h (by decide), fun h => absurd h (by decide)⟩
  vle := vleSound_of_reset rfl rfl (by decide)

theorem afterPrePass_sound : afterPrePass.Sound where
  memories := ⟨by decide, by decide, by decide, by decide, by decide, by decide⟩
  cursors := ⟨by decide, by decide, by decide, by decide, by decide, by decide, by decide, by decide, by decide, by decide, by decide⟩
  passes := ⟨by decide, by decide, by decide, by decide, by decide, by decide, by decide, by decide, by decide⟩
  buffers := ⟨fun _ a => by simp [afterPrePass, State.reset], by decide, fun h => absurd h (by decide), by decide,
    fun _ _ _ a h => ((filledTo_one 0x41) a).2 h, fun h => absurd h (by decide), by decide, by decide, by decide⟩
  rle := ⟨by decide, by decide, by decide, by decide, by decide, fun _ => ⟨by decide, fun a => by
      rw [show afterPrePass.buf.tmp = [(0, 0x41)] from rfl, read_singleton]
      by_cases h : a = 0
      · simp [h]
        decide
      · simp [h]⟩, fun _ => by decide +kernel⟩
  vle := vleSound_of_reset rfl rfl (by decide)

theorem finished_sound : finished.Sound where
  memories := ⟨by decide, by decide, by decide, by decide, by decide, by decide⟩
  cursors := ⟨by decide, by decide, by decide, by decide, by decide, by decide, by decide, by decide, by decide, by decide, by decide⟩
  passes := ⟨by decide, by decide, by decide, by decide, by decide, by decide, by decide, by decide, by decide⟩
  buffers := ⟨fun _ => filledTo_one 5, by decide, fun h => absurd h (by decide), by decide, fun _ h => absurd rfl h,
    fun h => absurd h (by decide), by decide, by decide, by decide⟩
  rle := ⟨by decide, by decide, by decide, by decide, by decide, fun h => absurd h (by decide), fun h => absurd h (by decide)⟩
  vle := vleSound_of_reset rfl rfl (by decide)

theorem started_loaded : started.InputLoaded := by
  show ∀ a < 10, _
  decide

/-! ### Witnesses: concrete values that meet a statement's hypotheses, clause by clause, at the bounds -/

theorem test_witness_DecodeOfEncodeIsTheToken :
    let ws : List (Ctx × Instr) :=
      [(.rhdr, .rhdrNoseq (List.replicate 10 7)), (.rhdr, .rhdrNoseq []), (.rhdr, .rhdrSeq [1, 2]),
        (.seq 0x7F, .seqBlock 0x7F [1] 0), (.seq 0x7F, .seqLit 0x7E), (.chdr, .chdrMulti 0x7F),
        (.sbr false (buildLookup [1, 2, 3]), .rleLrun 3 0xFFFF 9), (.sbr true (buildLookup []), .passEnd),
        (.vhdr, .vleHdr [0xFF, 1] (List.replicate 256 0)), (.vdec false identityWidths, .vleLong 0xFF),
        (.vdec false identityWidths, .vleShortW8 8), (.pend false, .passChain)]
    (ws.all fun w => w.2.wellFormed && w.1.selects w.2) = true := by decide +kernel

theorem test_witness_DecodedTokenHasItsLayout :
    decode .rhdr [none, none, none, none, some 0x82, some 1, some 2] = .ok (.rhdrNoseq [1, 2]) := rfl

theorem test_witness_ReservedBytesAreIgnored :
    highBit 0x80 = true ∧ ([none, none] : List Slot).length < 3 ∧ ([none, none, none] : List Slot).length < 4 ∧
      ([none, some 1, none] : List Slot).length = 3 ∧ ([none, some 1, none, none] : List Slot).length = 4 := by decide

theorem test_witness_StepRunsTheDecodedToken :
    (let s := sbrAt [0x41] 1
     s.entryContext = none ∧ s.context = some (.sbr false s.rle.escLookup) ∧
       ¬(s.phase = .seq ∧ s.cur.rd = s.cur.srcLen) ∧
       ¬(s.phase = .sbr ∧ s.dest.wr ≠ s.dest.dstLen ∧ s.cur.rd = s.cur.srcLen) ∧
       decode (.sbr false s.rle.escLookup) s.tokenSlots = .ok (.rleLit 0x41)) ∧
    (let s := coreAt .chdr [1, 3, 0, 0] 0
     s.phase = .chdr ∧ gives (exec .runStart s) (fun t => decide (t.phase = .chdr ∧ t.srcSlots = s.srcSlots)) = true ∧
       decode .chdr s.srcSlots = .ok (.chdrSingle 1)) ∧
    (let s := coreAt .phdr [1, 3, 0, 0] 0
     s.phase = .phdr ∧ s.pass.passCount ≠ 0 ∧ decode .phdr s.srcSlots = .ok (.phdrRle 3)) := by decide +kernel

theorem test_witness_IdleCoreStaysAsItIs :
    Phase.idle.busy = false ∧ Phase.done.busy = false ∧ Phase.error.busy = false := by decide

theorem test_witness_ControlTransfersAreTheGraph : started.Sound ∧ ∃ t, step started = .next t :=
  ⟨started_sound, (exists_next (p := fun _ => true) (by decide +kernel)).imp fun _ h => h.1⟩

theorem test_witness_StepKeepsInputAndConfig : ∃ t, step started = .next t :=
  test_witness_ControlTransfersAreTheGraph.2

theorem test_witness_SourceIsNeverWritten : afterPrePass.Sound ∧ afterPrePass.phase ≠ .pend ∧
    ∃ t, step afterPrePass = .next t ∧
      decide (t.phase ≠ .error ∧ ¬(t.phase = .pend ∧ afterPrePass.cur.src = .tmp) ∧ t.cur.src = afterPrePass.cur.src) = true :=
  ⟨afterPrePass_sound, by decide,
    exists_next (p := fun t => decide (t.phase ≠ .error ∧ ¬(t.phase = .pend ∧ afterPrePass.cur.src = .tmp) ∧
      t.cur.src = afterPrePass.cur.src)) (by decide +kernel)⟩

theorem test_witness_OutputIsWrittenOnce : afterPrePass.phase.inPass = true ∧
    ∃ t, step afterPrePass = .next t ∧ t.phase.inPass = true :=
  ⟨by decide, exists_next (p := fun t => t.phase.inPass) (by decide +kernel)⟩

theorem test_witness_DriverTokensComplete :
    let s := { coreAt .phdr [] 0 with host.inLen := 16777215, cfg.bufCapacity := 3 }
    s.host.inLen.toNat ≤ 16777215 ∧ s.pass.passCount ≠ 0 ∧ (3 : BitVec 24).toNat ≤ s.cfg.bufCapacity := by decide

theorem test_witness_ContainerHeaderStep :
    let s := fun (b : Byte) (n : BitVec 32) => { coreAt .chdr [b] 0 with host.inLen := n }
    (s 0 0).phase = .chdr ∧ 16777215 < (s 0 16777216).host.inLen.toNat ∧ (s 0 0).host.inLen.toNat = 0 ∧
      (s 0x7F 16777215).host.inLen.toNat ≤ 16777215 ∧ (s 0x7F 1).buf.inMem.read 0 = some 0x7F ∧ highBit 0x7F = false ∧
      highBit 0x80 = true ∧ (s 0x80 3).host.inLen.toNat < 4 ∧ 4 ≤ (s 0x80 4).host.inLen.toNat := by decide

theorem test_witness_PassHeaderErrorsInOrder :
    let s := fun (l : List Byte) (cap : Nat) => { coreAt .phdr l 0 with cfg.bufCapacity := cap }
    (s [] 0).phase = .phdr ∧ ({ s [] 0 with pass.passCount := 0 } : State).pass.passCount = 0 ∧ (s [] 0).pass.passCount ≠ 0 ∧
      (∀ slot ∈ (s [1, 2, 3] 0).srcSlots, slot.isSome = true) ∧ (s [1, 2, 3] 0).srcSlots.length < 4 ∧
      (s [3, 5, 0, 0] 4).srcSlots = [some 3, some 5, some 0, some 0] ∧ (s [3, 5, 0, 0] 4).cfg.bufCapacity < (le24 5 0 0).toNat ∧
      (le24 5 0 0).toNat ≤ (s [3, 5, 0, 0] 5).cfg.bufCapacity := by decide +kernel

theorem test_witness_PassEndChainsOrFinishes :
    finished.phase = .pend ∧ finished.pass.passIndex + 1 = finished.pass.passCount ∧
      finished.pass.passIndex + 1 < ({ finished with pass.passCount := 2 } : State).pass.passCount := by decide

theorem test_witness_ErrorEntryIsPrecise : (sbrAt [] 5).phase ≠ .error ∧
    ∃ t, step (sbrAt [] 5) = .next t ∧ decide (t.phase = .error) = true :=
  ⟨by decide, exists_next (p := fun t => decide (t.phase = .error)) (by decide +kernel)⟩

theorem test_witness_NoOutputAfterError : ((sbrAt [] 5).raise .truncated).phase = .error ∧ (sbrAt [] 5).phase ≠ .error ∧
    ∃ t, step (sbrAt [] 5) = .next t ∧ decide (t.phase = .error) = true :=
  ⟨rfl, test_witness_ErrorEntryIsPrecise⟩

theorem test_witness_RleHeadersComplete :
    (List.replicate 10 (7 : Byte)).length ≤ 10 ∧ 2 ≤ ([1, 2] : List Byte).length ∧
      (coreAt .rhdr [] 16777215).dest.dstLen ≤ (coreAt .rhdr [] 0).cfg.bufCapacity := by decide

theorem test_witness_EscapeLookupIsTheLastIndex : ([1, 2, 3, 4, 5, 6, 7, 8, 9, 9] : List Byte).length ≤ 10 := by decide

theorem test_witness_RleHeaderErrorsInOrder :
    let s := fun (l : List Byte) => coreAt .rhdr l 5
    (s []).phase = .rhdr ∧ (∀ slot ∈ (s [0, 0, 0, 0]).srcSlots, slot.isSome = true) ∧ (s [0, 0, 0, 0]).srcSlots.length < 5 ∧
      (s [0, 0, 0, 0, 0x8B]).srcSlots = [some 0, some 0, some 0, some 0, some 0x8B] ∧ 10 < (low7 0x8B).toNat ∧
      highBit 0x01 = false ∧ (low7 0x01).toNat < 2 ∧ highBit 0x81 = true ∧ 2 ≤ (low7 0x02).toNat ∧
      (low7 0x8A).toNat ≤ 10 ∧ (∀ slot ∈ (s [0, 0, 0, 0, 0x02, 9]).srcSlots, slot.isSome = true) ∧
      ([some 9] : List Slot).length < (low7 0x02).toNat := by decide +kernel

theorem test_witness_SingleRunLoopHead :
    (sbrAt [1] 0).phase = .sbr ∧ (sbrAt [1] 0).dest.wr = (sbrAt [1] 0).dest.dstLen ∧
      (sbrAt [] 5).dest.wr ≠ (sbrAt [] 5).dest.dstLen ∧ (sbrAt [] 5).cur.rd = (sbrAt [] 5).cur.srcLen ∧
      (Ctx.sbr false (sbrAt [0xE9, 7, 8] 5).rle.escLookup).selects (.rleIrunK10 0xE9 7) = true ∧
      (sbrAt [0xE9, 7, 8] 5).srcSlots = encodeSlots (.rleIrunK10 0xE9 7) ++ [some 8] := by decide +kernel

theorem test_witness_RunTokens :
    (let s := sbrAt [] 65535
     runLayout (.rleLrun 3 0xFFFF 9) = some (4, 9, 65535) ∧ runLayout (.rleSrun 3 0 9) = some (3, 9, 0) ∧
       s.dest.dst = .out ∧ s.dest.wr + 65535 ≤ s.dest.dstLen) ∧
    (let s := sbrAt [] 8
     runLayout (.rleIrunK10 3 9) = some (2, 9, 9) ∧ s.dest.dst = .out ∧ s.dest.dstLen < s.dest.wr + 9) ∧
    (let s := sbrAt [0xE2, 1, 2] 8
     s.phase = .sbr ∧ s.dest.wr ≠ s.dest.dstLen ∧
       (Ctx.sbr false s.rle.escLookup).selects (.rleLrun 0xE2 0x0201 9) = true ∧
       3 < (encode (.rleLrun 0xE2 0x0201 9)).length ∧
       s.srcSlots = (encodeSlots (.rleLrun 0xE2 0x0201 9)).take 3) := by decide +kernel

theorem test_witness_SequenceLoopHead :
    (seqAt [] 1).phase = .seq ∧ (seqAt [] 1).cur.rd = (seqAt [] 1).cur.srcLen ∧ (0x7E : Byte) ≠ (seqAt [] 1).rle.bracket ∧
      (seqAt [0x7E] 1).srcSlots = [some 0x7E] ∧ (seqAt [] 1).rle.bracket ∉ ([] : List Byte) ∧
      (seqAt [0x7F, 0x7F, 5] 1).srcSlots = ((0x7F : Byte) :: [] ++ [0x7F, 5]).map some ++ [] := by decide +kernel

theorem test_witness_SequenceLiterals :
    (seqAt [] 1).dest.dst = .tmp ∧ (seqAt [] 1).dest.tmpWr + 1 ≤ (seqAt [] 1).dest.dstLen ∧
      (seqAt [] 0).dest.dstLen ≤ (seqAt [] 0).dest.tmpWr := by decide

theorem test_witness_SequenceBlocksComplete :
    let s := seqAt [] 510
    s.dest.dst = .tmp ∧ totalCopies s.cfg.seqRepZero 0xFF = some 255 ∧
      totalCopies .wrap255 0 = some 256 ∧ totalCopies .noExtra 0 = some 1 ∧ s.dest.tmpWr + 255 * 2 ≤ s.dest.dstLen := by decide

theorem test_witness_SequenceBlockErrors :
    let s := seqAt [] 2
    s.dest.dst = .tmp ∧ s.dest.dstLen < s.dest.tmpWr + 3 ∧ s.dest.tmpWr + 2 ≤ s.dest.dstLen ∧
      totalCopies s.cfg.seqRepZero 0 = none ∧ totalCopies s.cfg.seqRepZero 2 = some 2 ∧
      s.dest.dstLen < s.dest.tmpWr + 2 * 2 := by decide

theorem test_witness_CutBlockReportsTheFirstFailure :
    let s := fun (l : List Byte) => seqAt l 2
    (s []).phase = .seq ∧ (s []).dest.dst = .tmp ∧ (s []).rle.bracket ∉ ([1, 2] : List Byte) ∧
      (s [0x7F, 1, 2]).srcSlots = ((s []).rle.bracket :: [1, 2] ++ []).map some ∧
      (s [0x7F, 1, 2, 0x7F]).srcSlots = ((s []).rle.bracket :: [1, 2] ++ [(s []).rle.bracket]).map some := by decide +kernel

theorem test_witness_NoBracketReachesSingleRuns :
    afterPrePass.Sound ∧ afterPrePass.phase = .sbr ∧ afterPrePass.cur.src = .tmp :=
  ⟨afterPrePass_sound, by decide, by decide⟩

theorem test_witness_CountRecurrenceIsCanonical : (List.replicate 15 (0xFF : Byte)).length ≤ 15 := by decide

theorem test_witness_RecurrenceStaysInRange : (List.replicate 15 (0xFF : Byte)).length ≤ 15 := by decide

/-- V9's header has long codes; its prefix 0x80 is long and 0x7F is the symbol of width 1. -/
def v9Counts : List Byte := [1, 0, 0, 0, 0, 0, 0, 0, 2]

theorem built_ok : (State.reset.vle.withCounts v9Counts [0x41, 0x42, 0x43]).withDirect v9Counts
    = .ok (built v9Counts [0x41, 0x42, 0x43]) := by
  rfl

theorem built_from : (built v9Counts [0x41, 0x42, 0x43]).BuiltFrom v9Counts [0x41, 0x42, 0x43] :=
  ⟨_, _, (built v9Counts [0x41, 0x42, 0x43]).widthsOffset, (built v9Counts [0x41, 0x42, 0x43]).codesOffset, built_ok, rfl⟩

theorem test_witness_DirectTableDecodesShortCodes :
    (State.reset.vle.withCounts v9Counts [0x41, 0x42, 0x43]).withDirect v9Counts
      = .ok (built v9Counts [0x41, 0x42, 0x43]) ∧
    (0 < min v9Counts.length 8 ∧ 0 < countAt v9Counts 0 ∧ (0x7F : Byte).toNat >>> (7 - 0) = firstCode v9Counts 0 + 0) ∧
    ∀ i < min v9Counts.length 8, ¬(firstCode v9Counts i ≤ (0x80 : Byte).toNat >>> (7 - i) ∧
      (0x80 : Byte).toNat >>> (7 - i) < firstCode v9Counts i + countAt v9Counts i) :=
  ⟨built_ok, by decide, by decide⟩

theorem test_witness_VleHeaderCompletes :
    let s := coreAt .vhdr [0x81, 2, 0x41, 0x42, 0x40, 0x00] 4
    (Instr.vleHdr [2] [0x41, 0x42]).wellFormed = true ∧ directFits [2] ∧ s.cur.rd + 1 + 1 + 2 + 2 ≤ s.cur.srcLen ∧
      s.srcMem.read (s.cur.rd + 1 + 1 + 2) = some 0x40 ∧ s.srcMem.read (s.cur.rd + 1 + 1 + 2 + 1) = some 0x00 := by
  unfold directFits; decide

theorem test_witness_VleHeaderMeaningErrors :
    let s := coreAt .vhdr [0x81, 2, 0x41, 0x42, 0x40] 4
    (Instr.vleHdr [3] [1, 2, 3]).wellFormed = true ∧ ¬directFits [3] ∧ (Instr.vleHdr [2] [0x41, 0x42]).wellFormed = true ∧
      directFits [2] ∧ s.cur.srcLen < s.cur.rd + 1 + 1 + 2 + 2 ∧ s.cur.rd + 1 + 1 + 2 ≤ s.cur.srcLen ∧
      ∀ a < s.cur.srcLen, (s.srcMem.read a).isSome = true := by
  unfold directFits; decide

theorem test_witness_VleHeaderErrorsInOrder :
    let s := fun (l : List Byte) => coreAt .vhdr l 4
    (s []).phase = .vhdr ∧ (s []).srcSlots = [] ∧ (s [0x01]).srcSlots = [some 0x01] ∧ highBit 0x01 = false ∧
      15 < (low7 0x90).toNat ∧ 256 < countSum [0xFF, 2] ∧
      (s [0x82, 0xFF, 2]).srcSlots = some (mkByte true (BitVec.ofNat 7 2)) :: ([0xFF, 2] : List Byte).map some ++ [] ∧
      highBit 0x83 = true ∧ ([0xFF, 0xFF] : List Byte).length < (low7 0x83).toNat ∧
      (s [0x83, 0xFF, 0xFF]).srcSlots = some 0x83 :: ([0xFF, 0xFF] : List Byte).map some ∧
      countSum [0xFF, 1] ≤ 256 ∧ ([0x41] : List Byte).length < countSum [0xFF, 1] ∧
      (s [0x82, 0xFF, 1, 0x41]).srcSlots = (mkByte true (BitVec.ofNat 7 2) :: [0xFF, 1] ++ [0x41]).map some := by
  decide +kernel

/-- A boundary state: a short code of width 2 with 1 bit left, and one more byte in the source. -/
def shortAt (n : Nat) : State :=
  { vdecAt [1, 1] [1, 2] 0x80 0x80 [0xC1] n with win.br := 1 }

theorem test_witness_ShortCodesComplete :
    let s := shortAt 9
    shortLayout (.vleShortW2 0x80) = some (2, 0x80) ∧ s.dest.dst = .out ∧ s.dest.wr < s.dest.dstLen ∧
      (s.win.br ≤ 8 ∧ s.win.word.toNat % 2 ^ (8 - s.win.br) = 0) ∧ (∀ slot ∈ s.srcSlots, slot.isSome = true) ∧
      s.cur.rd < s.cur.srcLen ∧ (shortAt 1).dest.wr + 1 = (shortAt 1).dest.dstLen := by decide +kernel

/-- V9's stream at its first code, B = 100000000. -/
def longAt : State := vdecAt v9Counts [0x41, 0x42, 0x43] 0x80 0x20 [0x20] 3

theorem longAt_boundary : longAt.win.AtBoundary := ⟨by decide, by decide⟩

theorem longAt_written : longAt.RestWritten := by
  show ∀ slot ∈ longAt.srcSlots, slot.isSome = true
  decide +kernel

theorem test_witness_LongCodeCompletes :
    8 ≤ 8 ∧ 256 < 2 ^ (8 + 1) ∧ longAt.dest.dst = .out ∧ longAt.dest.wr < longAt.dest.dstLen ∧ longAt.win.AtBoundary ∧
      longAt.RestWritten ∧ codeBits (8 + 1) 256 <+: longAt.streamBits ∧ 8 + 1 + 8 ≤ longAt.streamBits.length ∧
      ((256 : Nat) : Int) < (longAt.vle.escLimit[8]).toInt ∧
      ((256 : Nat) : Int) + (longAt.vle.escBase[8]).toInt = (1 : Fin 256).val :=
  ⟨by decide, by decide, by decide, by decide, longAt_boundary, longAt_written, by decide +kernel, by decide +kernel,
    by decide +kernel, by decide +kernel⟩

theorem test_witness_LongCodeCompletes_full :
    let s := { longAt with dest.dstLen := 1 }
    s.dest.wr + 1 = s.dest.dstLen ∧ s.dest.wr < s.dest.dstLen := by decide

/-- A stream of zero bits with no table. -/
def emptyAt : State := vdecAt [] [] 0 0 [0] 1

theorem test_witness_UnmatchedLongCodeIsBad :
    emptyAt.win.AtBoundary ∧ emptyAt.RestWritten ∧ 0 < 2 ^ 17 ∧ codeBits 17 0 <+: emptyAt.streamBits ∧
      ∀ m (hm : m < 16), 8 ≤ m → (emptyAt.vle.escLimit[m]).toInt ≤ (((0 : Nat) >>> (16 - m) : Nat) : Int) :=
  ⟨⟨by decide, by decide⟩, by
    show ∀ slot ∈ emptyAt.srcSlots, slot.isSome = true
    decide +kernel, by decide, by decide +kernel, by decide +kernel⟩

theorem test_witness_MissingCodeByteIsTruncated_short :
    let s := vdecAt [1, 1] [1, 2] 0x80 0x00 [] 9
    shortLayout (.vleShortW2 0x80) = some (2, 0x80) ∧ s.dest.dst = .out ∧ s.dest.wr + 1 < s.dest.dstLen ∧
      ({ s with win.br := 1 } : State).win.br < 2 ∧ s.cur.srcLen ≤ s.cur.rd ∧
      ({ s with win.br := 0 } : State).win.br = 0 := by decide +kernel

/-- V11's stream 80 00: the bits of an unused code run out after 16. -/
theorem test_witness_MissingCodeByteIsTruncated_refill :
    let s := vdecAt [1] [0x41] 0x80 0x00 [] 1
    s.win.AtBoundary ∧ s.RestWritten ∧ 0x8000 < 2 ^ 16 ∧ s.streamBits = codeBits 16 0x8000 ∧
      ∀ m (hm : m < 16), 8 ≤ m → m < 16 → (s.vle.escLimit[m]).toInt ≤ (((0x8000 : Nat) >>> (16 - 1 - m) : Nat) : Int) :=
  ⟨⟨by decide, by decide⟩, by
    show ∀ slot ∈ (vdecAt [1] [0x41] 0x80 0x00 [] 1).srcSlots, slot.isSome = true
    decide +kernel, by decide, by decide +kernel, by decide +kernel⟩

/-- V9's header with the stream 80 20 alone: B is there, and 7 bits follow it. -/
theorem test_witness_MissingCodeByteIsTruncated_reload :
    let s := vdecAt v9Counts [0x41, 0x42, 0x43] 0x80 0x20 [] 3
    256 < 2 ^ (8 + 1) ∧ s.dest.dst = .out ∧ s.dest.wr + 1 < s.dest.dstLen ∧ s.win.AtBoundary ∧ s.RestWritten ∧
      codeBits (8 + 1) 256 <+: s.streamBits ∧ s.streamBits.length < 8 + 1 + 8 ∧
      ((256 : Nat) : Int) < (s.vle.escLimit[8]).toInt ∧
      ((256 : Nat) : Int) + (s.vle.escBase[8]).toInt = (1 : Fin 256).val :=
  ⟨by decide, by decide, by decide, ⟨by decide, by decide⟩, by
    show ∀ slot ∈ (vdecAt v9Counts [0x41, 0x42, 0x43] 0x80 0x20 [] 3).srcSlots, slot.isSome = true
    decide +kernel, by decide +kernel, by decide +kernel, by decide +kernel, by decide +kernel⟩

theorem test_witness_BitStreamLoopHead :
    let s := vdecAt [1, 1] [1, 2] 0x80 0x80 [] 9
    s.phase = .vdec ∧ ({ s with dest.wr := 9 } : State).dest.wr = s.dest.dstLen ∧ s.dest.wr ≠ s.dest.dstLen ∧
      shortLayout (.vleShortW2 0x80) = some (2, prefixOf s.win.word) ∧ (s.vle.widths[0x80]).toNat = 2 ∧
      longAt.vle.widths[0x80] = 0x40 ∧ legalWidth 0 = false ∧ legalWidth 9 = false := by decide +kernel

theorem test_witness_LongCodeIndexIsInRange :
    (Instr.vleHdr v9Counts [0x41, 0x42, 0x43]).wellFormed = true ∧
      (built v9Counts [0x41, 0x42, 0x43]).BuiltFrom v9Counts [0x41, 0x42, 0x43] ∧
      (built v9Counts [0x41, 0x42, 0x43]).widths[0x80] = 0x40 ∧ 257 >>> (8 - 7) = 0x80 ∧
      ((257 : Nat) : Int) < ((built v9Counts [0x41, 0x42, 0x43]).escLimit[8]).toInt :=
  ⟨by decide, built_from, by decide +kernel, by decide, by decide +kernel⟩

theorem test_witness_CanonicalCodeDecodesInOneStep :
    (Instr.vleHdr v9Counts [0x41, 0x42, 0x43]).wellFormed = true ∧ longAt.vle.BuiltFrom v9Counts [0x41, 0x42, 0x43] ∧
      kraftOk v9Counts ∧ longAt.phase = .vdec ∧ longAt.dest.dst = .out ∧ longAt.dest.wr < longAt.dest.dstLen ∧
      longAt.win.AtBoundary ∧ longAt.RestWritten ∧ 8 < v9Counts.length ∧ 0 < countAt v9Counts 8 ∧
      ([0x41, 0x42, 0x43] : List Byte)[symbolsBefore v9Counts 8 + 0]? = some 0x42 ∧
      codeBits (8 + 1) (firstCode v9Counts 8 + 0) <+: longAt.streamBits ∧ 8 + 1 + 8 ≤ longAt.streamBits.length :=
  ⟨by decide, built_from, by unfold kraftOk; decide, by decide, by decide, by decide, longAt_boundary, longAt_written,
    by decide, by decide, by decide, by decide +kernel, by decide +kernel⟩

/-- V9's message B A C ends 5 bits before the end of its stream; of B A, 14 bits are left. -/
theorem test_witness_CanonicalMessageDecodes :
    let s := { longAt with dest.dstLen := 2 }
    (Instr.vleHdr v9Counts [0x41, 0x42, 0x43]).wellFormed = true ∧ s.vle.BuiltFrom v9Counts [0x41, 0x42, 0x43] ∧
      kraftOk v9Counts ∧ s.phase = .vdec ∧ s.dest.dst = .out ∧ s.win.AtBoundary ∧ s.RestWritten ∧
      s.dest.wr + ([(8, 0), (0, 0)] : List (Nat × Nat)).length = s.dest.dstLen ∧
      (∀ m ∈ ([(8, 0), (0, 0)] : List (Nat × Nat)), m.1 < v9Counts.length ∧ m.2 < countAt v9Counts m.1) ∧
      s.streamBits = (([(8, 0), (0, 0)] : List (Nat × Nat)).flatMap fun m =>
        codeBits (m.1 + 1) (firstCode v9Counts m.1 + m.2)) ++ s.streamBits.drop 10 ∧
      8 ≤ (s.streamBits.drop 10).length :=
  ⟨by decide, built_from, by unfold kraftOk; decide, by decide, by decide, longAt_boundary, longAt_written, by decide,
    by decide, by decide +kernel, by decide +kernel⟩

theorem test_witness_SoundStepIsSound : started.Sound ∧ ∃ t, step started = .next t :=
  test_witness_ControlTransfersAreTheGraph

theorem test_witness_SoundHostStepIsSound : loaded.Sound ∧ ∃ t, hostStep (.writeReg 0 1) loaded = .next t :=
  ⟨loaded_sound, _, rfl⟩

theorem test_witness_SoundLoadedStateSteps : started.Sound ∧ started.InputLoaded :=
  ⟨started_sound, started_loaded⟩

theorem test_witness_EveryRunEnds : started.Sound ∧ started.InputLoaded ∧ started.phase = .chdr :=
  ⟨started_sound, started_loaded, rfl⟩

theorem test_witness_DoneResultIsComplete : finished.Sound ∧ finished.phase ≠ .done ∧
    ∃ t, step finished = .next t ∧ decide (t.phase = .done) = true :=
  ⟨finished_sound, by decide, exists_next (p := fun t => decide (t.phase = .done)) (by decide +kernel)⟩

/-- Two idle cores that differ in the unread position 10 and in a stale register; both run 2 steps. -/
theorem test_witness_OutcomeDependsOnlyOnInput :
    loaded.Sound ∧ loadedOver.Sound ∧ loaded.phase.busy = false ∧ loadedOver.phase.busy = false ∧
      loaded.cfg = loadedOver.cfg ∧ loaded.host.inLen = loadedOver.host.inLen ∧
      (∀ a < loaded.host.inLen.toNat, loaded.buf.inMem.read a = loadedOver.buf.inMem.read a) ∧
      gives (core.run 2 (loaded.writeCtrl 1)) (fun t => decide (t.phase = .rhdr)) = true ∧
      gives (core.run 2 (loadedOver.writeCtrl 1)) (fun t => decide (t.phase = .rhdr)) = true :=
  ⟨loaded_sound, loadedOver_sound, by decide +kernel⟩

theorem test_witness_StartBeginsARun : (1 : BitVec 32).getLsbD 0 = true ∧ loaded.phase.busy = false := by decide

theorem test_witness_IgnoredStartChangesNothing :
    (sbrAt [] 1).phase.busy = true ∧ (0xFFFFFFFE : BitVec 32).getLsbD 0 = false := by decide

theorem test_witness_RegisterMapReadsAndWrites :
    let s := { loaded with host.errPass := 127, host.resultLen := 16777215, pass.passCount := 127, pass.passIndex := 127 }
    s.host.errPass ≤ 127 ∧ s.host.resultLen ≤ 16777215 ∧ s.pass.passCount ≤ 127 ∧ s.pass.passIndex ≤ 127 := by decide

theorem test_witness_InputLoadingWrites :
    loaded.phase.busy = false ∧ 16777214 < 16777215 ∧ (sbrAt [] 1).phase.busy = true ∧ 16777215 ≤ 16777215 := by decide

end Sys2Proof.Tests
end

