-- ==== Sys2Proof/Proofs/Status.lean ====
section
/-! What the STATUS register shows of the phase, and that writing it does nothing (10_state.md R42). -/

namespace Sys2Proof.Machine

theorem Phase.busy_iff (p : Phase) : p.busy = true ↔ p ≠ .idle ∧ p ≠ .done ∧ p ≠ .error := by
  cases p <;> decide

theorem Phase.status_getLsbD (p : Phase) (i : Nat) :
    p.status.getLsbD i = match i with
      | 0 => p.busy
      | 1 => p.isDone
      | 2 => p.isError
      | _ + 3 => false := by
  rw [Phase.status, BitVec.getLsbD_setWidth, BitVec.getLsbD_append, BitVec.getLsbD_append]
  match i with
  | 0 | 1 | 2 | _ + 3 => simp

/-- STATUS is a 3-bit value extended by zeros. -/
theorem Phase.status_toNat_lt (p : Phase) : p.status.toNat < 8 := by
  rw [Phase.status, BitVec.toNat_setWidth_of_le (by decide)]
  exact BitVec.isLt _

/-- The phases fall into four groups, and STATUS has one value on each. -/
theorem Phase.status_eq_zero_or_one_bit (p : Phase) :
    p.status = 0 ∨ p.status = 1 ∨ p.status = 2 ∨ p.status = 4 := by
  cases p with
  | idle => exact .inl rfl
  | done => exact .inr (.inr (.inl rfl))
  | error => exact .inr (.inr (.inr rfl))
  | chdr | phdr | rhdr | seq | sbr | vhdr | vdec | pend => exact .inr (.inl rfl)

theorem readReg_status (s : State) : readReg 0x04 s = .ok s.phase.status := rfl

theorem hostStep_writeReg_status (s : State) (v : BitVec 32) : hostStep (.writeReg 0x04 v) s = .next s := rfl

/-- Settles O55: each STATUS bit is one predicate of the phase, and those predicates exclude each other. -/
theorem statusFollowsThePhase : Obligations.StatusFollowsThePhase := by
  refine ⟨readReg_status, fun p => ⟨?busy, ?done, ?error, p.status_toNat_lt, p.status_eq_zero_or_one_bit⟩,
    hostStep_writeReg_status⟩
  case busy => rw [p.status_getLsbD, p.busy_iff]
  case done => rw [p.status_getLsbD, Phase.isDone, decide_eq_true_iff]
  case error => rw [p.status_getLsbD, Phase.isError, decide_eq_true_iff]

end Sys2Proof.Machine
end

