-- ==== Sys2Proof/Proofs/Headers.lean ====
section
/-! The two headers of the pass driver: what their decoders answer on every list of slots of known values, what a step
in CHDR and in PHDR does with that answer, and the order of the checks (40_driver.md R115–R124). -/

namespace Sys2Proof

/-! ### The container header -/

@[simp] theorem skipSlots_of_length_lt {n : Nat} {sl : List Slot} (h : sl.length < n) :
    skipSlots n sl = .error .truncated := if_pos h

theorem decodeChdr_nil : decodeChdr [] = .error .truncated := rfl

theorem decodeChdr_single {b : Byte} (h : highBit b = false) (rest : List Slot) :
    decodeChdr (some b :: rest) = .ok (.chdrSingle (low7 b)) := by
  simp [decodeChdr, bind, Except.bind, h]

theorem decodeChdr_multi {b : Byte} {rest : List Slot} (h : highBit b = true) (hr : 3 ≤ rest.length) :
    decodeChdr (some b :: rest) = .ok (.chdrMulti (low7 b)) := by
  simp [decodeChdr, bind, Except.bind, h, skipSlots_ok.2 ⟨hr, rfl⟩]

theorem decodeChdr_multi_cut {b : Byte} {rest : List Slot} (h : highBit b = true) (hr : rest.length < 3) :
    decodeChdr (some b :: rest) = .error .truncated := by
  simp [decodeChdr, bind, Except.bind, h, hr]

/-! ### The per-pass header -/

/-- A header cut by the end of the source, all of whose bytes are written. -/
theorem decodePhdr_cut (bs : List Byte) (h : bs.length < 4) : decodePhdr (bs.map some) = .error .truncated := by
  match bs, h with
  | [], _ | [_], _ | [_, _], _ | [_, _, _], _ => rfl

section
variable (s0 s1 s2 : Byte) (rest : List Slot)

theorem decodePhdr_rle :
    decodePhdr (some 0x01 :: some s0 :: some s1 :: some s2 :: rest) = .ok (.phdrRle (le24 s0 s1 s2)) := rfl

theorem decodePhdr_vle :
    decodePhdr (some 0x02 :: some s0 :: some s1 :: some s2 :: rest) = .ok (.phdrVle (le24 s0 s1 s2)) := rfl

theorem decodePhdr_unknownTag {tag : Byte} (h1 : tag ≠ 0x01) (h2 : tag ≠ 0x02) :
    decodePhdr (some tag :: some s0 :: some s1 :: some s2 :: rest)
      = .error (.badAlgorithmTag (le24 s0 s1 s2)) :=
  (if_neg h1).trans (if_neg h2)

end

end Sys2Proof

namespace Sys2Proof.Machine

/-! ### Slots -/

/-- Where the rest of the source is written, its slots are its bytes. -/
theorem State.RestWritten.srcSlots_eq {s : State} (h : s.RestWritten) : s.srcSlots = s.restBytes.map some := by
  have hsome : ∀ slot ∈ s.srcSlots, id slot = (some ∘ fun slot => slot.getD 0) slot := fun slot hs => by
    obtain ⟨b, rfl⟩ := Option.isSome_iff_exists.1 (h slot hs)
    rfl
  rw [State.restBytes, List.map_map, ← List.map_congr_left hsome, List.map_id]

/-- The slots of the container begin with the byte at position 0. -/
theorem State.rewound_srcSlots (s : State) (h : 0 < s.host.inLen.toNat) :
    s.rewound.srcSlots = s.buf.inMem.read 0 :: (s.rewound.advance 1).srcSlots :=
  s.rewound.srcSlots_cons h

/-! ### Fetching past the loop heads -/

section
variable {t : State} {c : Ctx} (hc : t.context = some c) (hseq : ¬(t.phase = .seq ∧ t.cur.rd = t.cur.srcLen))
  (hsbr : ¬(t.phase = .sbr ∧ t.dest.wr ≠ t.dest.dstLen ∧ t.cur.rd = t.cur.srcLen))
include hc hseq hsbr

theorem fetch_of_decode_ok {i : Instr} (hd : decode c t.tokenSlots = .ok i) : fetch t = .instr i := by
  simp only [fetch, hc, if_neg hseq, if_neg hsbr, hd]

theorem fetch_of_decode_error {r : Reject} (hd : decode c t.tokenSlots = .error r) : fetch t = .reject r := by
  simp only [fetch, hc, if_neg hseq, if_neg hsbr, hd]

end

/-! In the other phases there is no loop head to pass, and a token is decoded from the source. -/

section
variable {t : State} {c : Ctx} (hc : t.context = some c) (hp : t.phase ∉ [.seq, .sbr, .vdec]) (s : State)
include hc hp

theorem runFetched_of_decode_ok {i : Instr} (hd : decode c t.srcSlots = .ok i) :
    runFetched exec s t = exec i t := by
  simp only [List.mem_cons, List.not_mem_nil, or_false, not_or] at hp
  have hf : fetch t = .instr i := fetch_of_decode_ok hc (by simp [hp]) (by simp [hp]) (by simpa [State.tokenSlots, hp])
  simp only [runFetched, hf]

theorem runFetched_of_decode_error {r : Reject} (hd : decode c t.srcSlots = .error r) :
    runFetched exec s t = rejected s r := by
  simp only [List.mem_cons, List.not_mem_nil, or_false, not_or] at hp
  have hf : fetch t = .reject r :=
    fetch_of_decode_error hc (by simp [hp]) (by simp [hp]) (by simpa [State.tokenSlots, hp])
  simp only [runFetched, hf]

end

/-! ### The step in CHDR -/

section
variable {s : State} (hp : s.phase = .chdr)
include hp

/-- RUN_START raises InputTooLarge, and the header is not read (40_driver.md R115). -/
theorem step_chdr_of_inLen_gt (h : maxInLen < s.host.inLen.toNat) : step s = .next (s.raise .inputTooLarge) := by
  have he : exec .runStart s = .next (s.raise .inputTooLarge) := if_pos h
  simp [step, stepWith, State.entryContext, hp, decode, he]

/-- After RUN_START the container header is fetched in the same step (40_driver.md R115). -/
theorem step_chdr_of_inLen_le (h : s.host.inLen.toNat ≤ maxInLen) :
    step s = runFetched exec s s.rewound := by
  have he : exec .runStart s = .next s.rewound := if_neg (Nat.not_lt.2 h)
  simp [step, stepWith, State.entryContext, hp, decode, he]

theorem step_chdr_of_decodeChdr_ok {i : Instr} (h : s.host.inLen.toNat ≤ maxInLen)
    (hd : decodeChdr s.rewound.srcSlots = .ok i) : step s = exec i s.rewound :=
  (step_chdr_of_inLen_le hp h).trans
    (runFetched_of_decode_ok (c := .chdr) (by simp [State.context, hp]) (by simp [hp]) s hd)

theorem step_chdr_of_decodeChdr_error {r : Reject} (h : s.host.inLen.toNat ≤ maxInLen)
    (hd : decodeChdr s.rewound.srcSlots = .error r) : step s = rejected s r :=
  (step_chdr_of_inLen_le hp h).trans
    (runFetched_of_decode_error (c := .chdr) (by simp [State.context, hp]) (by simp [hp]) s hd)

end

/-- Settles O13: RUN_START's bound first, then the container header by its length and by bit 7 of byte 0. -/
theorem containerHeaderStep : Obligations.ContainerHeaderStep := by
  intro s hp
  refine ⟨step_chdr_of_inLen_gt hp, fun h0 => ?empty, fun b hpos hle hb => ?_⟩
  case empty =>
    refine step_chdr_of_decodeChdr_error hp (r := .truncated) (by omega) ?_
    rw [State.srcSlots_nil s.rewound (by simp [h0]), decodeChdr_nil]
  have hsl : s.rewound.srcSlots = some b :: (s.rewound.advance 1).srcSlots := by
    rw [s.rewound_srcSlots hpos, hb]
  have hrest : (s.rewound.advance 1).srcSlots.length = s.host.inLen.toNat - 1 := by simp
  refine ⟨fun hh => ?single, fun hh hlt => ?cut, fun hh hge => ?multi⟩
  case single => exact step_chdr_of_decodeChdr_ok hp hle (hsl ▸ decodeChdr_single hh _)
  case cut => exact step_chdr_of_decodeChdr_error hp hle (hsl ▸ decodeChdr_multi_cut hh (by omega))
  case multi => exact step_chdr_of_decodeChdr_ok hp hle (hsl ▸ decodeChdr_multi hh (by omega))

/-! ### The step in PHDR -/

theorem enterPass_of_oversize {tag : Byte} {size : BitVec 24} {engine : Phase} {s : State}
    (h : s.cfg.bufCapacity < size.toNat) : enterPass tag size engine s = .next (s.raise .allocationFailed) :=
  if_pos h

/-- An oversize pass fails by its size, whatever its tag (60_exceptions.md R215 item 3). -/
theorem rejected_badAlgorithmTag_of_oversize {size : BitVec 24} {s : State} (h : s.cfg.bufCapacity < size.toNat) :
    rejected s (.badAlgorithmTag size) = .next (s.raise .allocationFailed) :=
  if_pos h

theorem rejected_badAlgorithmTag {size : BitVec 24} {s : State} (h : size.toNat ≤ s.cfg.bufCapacity) :
    rejected s (.badAlgorithmTag size) = .next (s.raise .badAlgorithmTag) :=
  if_neg (Nat.not_lt.2 h)

section
variable {s : State} (hp : s.phase = .phdr)
include hp

/-- PASS_ENTRY raises BadContainerHeader, and the header is not read (40_driver.md R118). -/
theorem step_phdr_of_passCount_eq_zero (h : s.pass.passCount = 0) :
    step s = .next (s.raise .badContainerHeader) := by
  have he : exec .passEntry s = .next (s.raise .badContainerHeader) := if_pos h
  simp [step, stepWith, State.entryContext, hp, decode, he]

/-- After PASS_ENTRY the per-pass header is fetched in the same step (40_driver.md R118). -/
theorem step_phdr_of_passCount_ne_zero (h : s.pass.passCount ≠ 0) : step s = runFetched exec s s := by
  have he : exec .passEntry s = .next s := if_neg h
  simp [step, stepWith, State.entryContext, hp, decode, he]

theorem step_phdr_of_decodePhdr_ok {i : Instr} (h : s.pass.passCount ≠ 0) (hd : decodePhdr s.srcSlots = .ok i) :
    step s = exec i s :=
  (step_phdr_of_passCount_ne_zero hp h).trans
    (runFetched_of_decode_ok (c := .phdr) (by simp [State.context, hp]) (by simp [hp]) s hd)

theorem step_phdr_of_decodePhdr_error {r : Reject} (h : s.pass.passCount ≠ 0)
    (hd : decodePhdr s.srcSlots = .error r) : step s = rejected s r :=
  (step_phdr_of_passCount_ne_zero hp h).trans
    (runFetched_of_decode_error (c := .phdr) (by simp [State.context, hp]) (by simp [hp]) s hd)

/-- A header of four written bytes whose size is above the capacity: the size is judged before the tag, known or
not (60_exceptions.md R215 item 3). -/
theorem step_phdr_of_oversize {tag s0 s1 s2 : Byte} {rest : List Slot} (h : s.pass.passCount ≠ 0)
    (hsl : s.srcSlots = some tag :: some s0 :: some s1 :: some s2 :: rest)
    (hsize : s.cfg.bufCapacity < (le24 s0 s1 s2).toNat) : step s = .next (s.raise .allocationFailed) := by
  by_cases h1 : tag = 0x01
  · rw [step_phdr_of_decodePhdr_ok hp h (by rw [hsl, h1, decodePhdr_rle])]
    exact enterPass_of_oversize hsize
  by_cases h2 : tag = 0x02
  · rw [step_phdr_of_decodePhdr_ok hp h (by rw [hsl, h2, decodePhdr_vle])]
    exact enterPass_of_oversize hsize
  · rw [step_phdr_of_decodePhdr_error hp h (by rw [hsl, decodePhdr_unknownTag _ _ _ _ h1 h2])]
    exact rejected_badAlgorithmTag_of_oversize hsize

end

/-- Settles O14: one clause for each check that fails first, and the two tags where none fails. -/
theorem passHeaderErrorsInOrder : Obligations.PassHeaderErrorsInOrder := by
  intro s hp
  refine ⟨step_phdr_of_passCount_eq_zero hp, fun hc hw hlen => ?cut, fun tag s0 s1 s2 rest hc hsl =>
    ⟨step_phdr_of_oversize hp hc hsl, fun hsize h1 h2 => ?badTag, fun _ ht => ?rle, fun _ ht => ?vle⟩⟩
  case cut =>
    rw [hw.srcSlots_eq, List.length_map] at hlen
    exact step_phdr_of_decodePhdr_error hp hc (hw.srcSlots_eq ▸ decodePhdr_cut _ hlen)
  case badTag =>
    rw [step_phdr_of_decodePhdr_error hp hc (by rw [hsl, decodePhdr_unknownTag _ _ _ _ h1 h2])]
    exact rejected_badAlgorithmTag hsize
  case rle => exact step_phdr_of_decodePhdr_ok hp hc (by rw [hsl, ht, decodePhdr_rle])
  case vle => exact step_phdr_of_decodePhdr_ok hp hc (by rw [hsl, ht, decodePhdr_vle])

end Sys2Proof.Machine
end

