-- ==== Sys2Proof/Proofs/Rle.lean ====
section
/-! The RLE engine: what its three decoders answer, what a step in RHDR, SBR and SEQ does with that answer, and the
effect of the tokens that emit (41_rle.md R135–R149). -/

namespace Sys2Proof

/-! ### Readers -/

theorem ok_bind {ε α β : Type} (a : α) (f : α → Except ε β) : (Except.ok a >>= f) = f a := rfl

theorem takeBytes_cut {n : Nat} {bs : List Byte} (h : bs.length < n) :
    takeBytes n (bs.map some) = .error .truncated := by
  induction bs generalizing n with
  | nil => obtain ⟨n, rfl⟩ := Nat.exists_eq_add_one.2 h; rfl
  | cons b bs ih =>
    obtain ⟨n, rfl⟩ := Nat.exists_eq_add_one.2 (Nat.zero_lt_of_lt h)
    simp [takeBytes, ih (Nat.lt_of_succ_lt_succ h), bind, Except.bind]

/-! ### The RLE pass header -/

theorem decodeRhdr_of_length_lt {sl : List Slot} (h : sl.length < 5) : decodeRhdr sl = .error .truncated := by
  by_cases h4 : sl.length < 4
  · simp [decodeRhdr, h4, bind, Except.bind]
  · have hskip : skipSlots 4 sl = .ok [] :=
      skipSlots_ok.2 ⟨by omega, (List.drop_eq_nil_of_le (by omega)).symm⟩
    simp [decodeRhdr, hskip, takeByte, bind, Except.bind]

section
variable (r0 r1 r2 r3 : Slot) {escLen : Byte} (rest : List Slot)

/-- Past the reserved bytes, whatever they hold, the escape count is judged before the escape bytes are read. -/
theorem decodeRhdr_cons :
    decodeRhdr (r0 :: r1 :: r2 :: r3 :: some escLen :: rest) =
      if maxEscapes < (low7 escLen).toNat then .error .badRLEEscapeTable
      else if highBit escLen = false ∧ (low7 escLen).toNat < 2 then .error .badRLEEscapeTable
      else takeBytes (low7 escLen).toNat rest >>= fun p =>
        if highBit escLen then .ok (.rhdrNoseq p.1) else .ok (.rhdrSeq p.1) := by
  have hskip : skipSlots 4 (r0 :: r1 :: r2 :: r3 :: some escLen :: rest) = .ok (some escLen :: rest) :=
    skipSlots_ok.2 ⟨by simp, rfl⟩
  simp only [decodeRhdr, hskip, takeByte_cons, ok_bind, gt_iff_lt]

theorem decodeRhdr_count_gt (h : maxEscapes < (low7 escLen).toNat) :
    decodeRhdr (r0 :: r1 :: r2 :: r3 :: some escLen :: rest) = .error .badRLEEscapeTable := by
  rw [decodeRhdr_cons, if_pos h]

theorem decodeRhdr_seq_count_lt (hh : highBit escLen = false) (h : (low7 escLen).toNat < 2) :
    decodeRhdr (r0 :: r1 :: r2 :: r3 :: some escLen :: rest) = .error .badRLEEscapeTable := by
  rw [decodeRhdr_cons, if_pos (And.intro hh h), ite_self]

theorem decodeRhdr_escs_cut {bs : List Byte} (hmode : highBit escLen = true ∨ 2 ≤ (low7 escLen).toNat)
    (hle : (low7 escLen).toNat ≤ maxEscapes) (h : bs.length < (low7 escLen).toNat) :
    decodeRhdr (r0 :: r1 :: r2 :: r3 :: some escLen :: bs.map some) = .error .truncated := by
  have hlegal : ¬(highBit escLen = false ∧ (low7 escLen).toNat < 2) := by
    rintro ⟨hh, hlt⟩
    rcases hmode with hmode | hmode
    · simp [hh] at hmode
    · omega
  rw [decodeRhdr_cons, if_neg (Nat.not_lt.2 hle), if_neg hlegal, takeBytes_cut h]
  rfl

end

/-! ### The sequence-run tokens -/

theorem decodeSeq_literal {brk b : Byte} (h : b ≠ brk) (rest : List Slot) :
    decodeSeq brk (some b :: rest) = .ok (.seqLit b) := by
  simp [decodeSeq, h, bind, Except.bind]

theorem decodeSeq_block {brk : Byte} {body : List Byte} (h : brk ∉ body) (rep : Byte) (rest : List Slot) :
    decodeSeq brk ((brk :: body ++ [brk, rep]).map some ++ rest) = .ok (.seqBlock brk body rep) := by
  have hbody : takeBody brk 0 (body.map some ++ some brk :: some rep :: rest) = .ok (body, some rep :: rest) :=
    takeBody_ok.2 ⟨h, rfl⟩
  simp [decodeSeq, hbody, takeRep, bind, Except.bind]

/-! ### The single-byte-run tokens: a byte that selects, then the operand bytes of its selector -/

/-- How many operand bytes follow the first byte of a token with selector `k` (30_encoding.md R92). -/
def operandCount : Nat → Nat
  | 0 => 0
  | 1 => 2
  | 3 => 3
  | _ => 1

/-- The token with selector `k`, first byte `b` and the given operand bytes, `operandCount k` of them. -/
def runOfOperands (k : Nat) (b : Byte) : List Byte → Instr
  | [n, v] => .rleSrun b n v
  | [lo, hi, v] => .rleLrun b (le16 lo hi) v
  | [v] => irunOf k b v
  | _ => .rleLit b

theorem decodeSbr_cons (lookup : Vector (Fin 11) 256) (b : Byte) (sl : List Slot) :
    decodeSbr lookup (some b :: sl) =
      takeBytes (operandCount (lookup[b.toNat]'b.isLt).val) sl >>=
        fun p => .ok (runOfOperands (lookup[b.toNat]'b.isLt).val b p.1) := by
  generalize hk : (lookup[b.toNat]'b.isLt).val = k
  match k with
  | 0 | 1 | 2 | 3 | k + 4 => simp [decodeSbr, hk, operandCount, takeBytes, runOfOperands, ok_bind, -Fin.val_eq_zero_iff]

/-- A token whose head is a selector is its first byte and its selector's operands. -/
theorem encode_of_head_sbr {i : Instr} {b : Byte} {k : Nat} (h : i.head = .sbr b k) :
    ∃ ops, encode i = b :: ops ∧ ops.length = operandCount k ∧ runOfOperands k b ops = i := by
  cases i with
  | rleLit b => cases h; exact ⟨[], rfl, rfl, rfl⟩
  | rleSrun esc n v => cases h; exact ⟨[n, v], rfl, rfl, rfl⟩
  | rleLrun esc n v =>
    cases h
    exact ⟨[byteOf n 0, byteOf n 1, v], rfl, rfl, congrArg (Instr.rleLrun _ · v) (le16_byteOf n)⟩
  | rleIrunK2 esc v | rleIrunK4 esc v | rleIrunK5 esc v | rleIrunK6 esc v | rleIrunK7 esc v | rleIrunK8 esc v
  | rleIrunK9 esc v | rleIrunK10 esc v => cases h; exact ⟨[v], rfl, rfl, rfl⟩
  | _ => cases h

theorem head_of_sbr_selects {lookup : Vector (Fin 11) 256} {i : Instr}
    (h : (Ctx.sbr false lookup).selects i = true) :
    ∃ b : Byte, i.head = .sbr b (lookup[b.toNat]'b.isLt).val := by
  cases hh : i.head with
  | sbr b k =>
    have hk : (lookup[b.toNat]'b.isLt).val = k := by simpa [Ctx.selects, Ctx.finds, hh] using h
    exact ⟨b, by rw [hk]⟩
  | _ => simp [Ctx.selects, Ctx.finds, hh] at h

/-- The bytes of a selected token, in full, decode to it (30_encoding.md R91, R92). -/
theorem decodeSbr_encodeSlots {lookup : Vector (Fin 11) 256} {i : Instr}
    (h : (Ctx.sbr false lookup).selects i = true) (rest : List Slot) :
    decodeSbr lookup (encodeSlots i ++ rest) = .ok i := by
  obtain ⟨b, hb⟩ := head_of_sbr_selects h
  obtain ⟨ops, henc, hlen, hi⟩ := encode_of_head_sbr hb
  rw [encodeSlots, henc, List.map_cons, List.cons_append, decodeSbr_cons, ← hlen, takeBytes_append, ok_bind, hi]

/-- A selected token whose operand bytes are cut (41_rle.md R145–R147). -/
theorem decodeSbr_take_encodeSlots {lookup : Vector (Fin 11) 256} {i : Instr} {m : Nat}
    (h : (Ctx.sbr false lookup).selects i = true) (hm : m + 1 < (encode i).length) :
    decodeSbr lookup ((encodeSlots i).take (m + 1)) = .error .truncated := by
  obtain ⟨b, hb⟩ := head_of_sbr_selects h
  obtain ⟨ops, henc, hlen, -⟩ := encode_of_head_sbr hb
  have hcut : (ops.take m).length < ops.length := by
    rw [henc, List.length_cons] at hm
    rw [List.length_take]
    omega
  rw [encodeSlots, henc, List.map_cons, List.take_succ_cons, ← List.map_take, decodeSbr_cons, ← hlen,
    takeBytes_cut hcut]
  rfl

theorem encode_ne_nil_of_sbr_selects {lookup : Vector (Fin 11) 256} {i : Instr}
    (h : (Ctx.sbr false lookup).selects i = true) : encode i ≠ [] := by
  obtain ⟨b, hb⟩ := head_of_sbr_selects h
  obtain ⟨ops, henc, -⟩ := encode_of_head_sbr hb
  simp [henc]

end Sys2Proof

namespace Sys2Proof.Machine

theorem State.rd_ne_srcLen_of_srcSlots_ne_nil {s : State} (h : s.srcSlots ≠ []) : s.cur.rd ≠ s.cur.srcLen :=
  fun he => h (s.srcSlots_nil he.ge)

/-- In a phase with no entry token, a step is what the loop head fetches. -/
theorem step_of_entryContext_none {s : State} (h : s.entryContext = none) : step s = runFetched exec s s := by
  simp only [step, stepWith, h]

/-! ### The step in RHDR -/

theorem step_rhdr_of_decodeRhdr_error {s : State} (hp : s.phase = .rhdr) {r : Reject}
    (hd : decodeRhdr s.srcSlots = .error r) : step s = rejected s r :=
  (step_of_entryContext_none (by simp [State.entryContext, hp])).trans
    (runFetched_of_decode_error (c := .rhdr) (by simp [State.context, hp]) (by simp [hp]) s hd)

/-- Settles O21: the count is judged past the reserved bytes, and the cuts are those before and after that check. -/
theorem rleHeaderErrorsInOrder : Obligations.RleHeaderErrorsInOrder := by
  intro s hp
  refine ⟨fun _ hlen => step_rhdr_of_decodeRhdr_error hp (decodeRhdr_of_length_lt hlen),
    fun r0 r1 r2 r3 escLen rest hsl => ⟨fun hn => ?tooMany, fun hh hn => ?tooFew, fun hmode hle hw hlen => ?cut⟩⟩
  case tooMany => exact step_rhdr_of_decodeRhdr_error hp (hsl ▸ decodeRhdr_count_gt r0 r1 r2 r3 rest hn)
  case tooFew => exact step_rhdr_of_decodeRhdr_error hp (hsl ▸ decodeRhdr_seq_count_lt r0 r1 r2 r3 rest hh hn)
  case cut =>
    have hrest : rest = (s.restBytes.drop 5).map some := by
      rw [List.map_drop, ← hw.srcSlots_eq, hsl, List.drop_succ_cons]
      rfl
    subst hrest
    rw [List.length_map] at hlen
    exact step_rhdr_of_decodeRhdr_error hp (hsl ▸ decodeRhdr_escs_cut r0 r1 r2 r3 hmode hle hlen)

/-! ### The step in SBR -/

section
variable {s : State} (hp : s.phase = .sbr)
include hp

theorem step_sbr : step s = runFetched exec s s :=
  step_of_entryContext_none (by simp [State.entryContext, hp])

theorem step_sbr_of_full (hw : s.dest.wr = s.dest.dstLen) : step s = exec .passEnd s := by
  have hf : fetch s = .instr .passEnd :=
    fetch_of_decode_ok (c := .sbr true s.rle.escLookup) (by simp [State.context, hp, hw]) (by simp [hp])
      (by simp [hw]) rfl
  rw [step_sbr hp, runFetched, hf]

theorem step_sbr_of_exhausted (hw : s.dest.wr ≠ s.dest.dstLen) (hr : s.cur.rd = s.cur.srcLen) :
    step s = .next (s.raise .underflowOutput) := by
  have hf : fetch s = .underflow := by simp [fetch, State.context, hp, hw, hr]
  rw [step_sbr hp, runFetched, hf]

variable (hw : s.dest.wr ≠ s.dest.dstLen) (hsl : s.srcSlots ≠ [])
include hw hsl

theorem step_sbr_of_decodeSbr_ok {i : Instr} (hd : decodeSbr s.rle.escLookup s.srcSlots = .ok i) :
    step s = exec i s := by
  have hf : fetch s = .instr i :=
    fetch_of_decode_ok (c := .sbr false s.rle.escLookup) (by simp [State.context, hp, hw]) (by simp [hp])
      (by simp [State.rd_ne_srcLen_of_srcSlots_ne_nil hsl]) (by simpa [State.tokenSlots, hp, decode] using hd)
  rw [step_sbr hp, runFetched, hf]

theorem step_sbr_of_decodeSbr_error {r : Reject} (hd : decodeSbr s.rle.escLookup s.srcSlots = .error r) :
    step s = rejected s r := by
  have hf : fetch s = .reject r :=
    fetch_of_decode_error (c := .sbr false s.rle.escLookup) (by simp [State.context, hp, hw]) (by simp [hp])
      (by simp [State.rd_ne_srcLen_of_srcSlots_ne_nil hsl]) (by simpa [State.tokenSlots, hp, decode] using hd)
  rw [step_sbr hp, runFetched, hf]

end

/-- Settles O22: the three cases of the loop head; a selected token's bytes decode to it. -/
theorem singleRunLoopHead : Obligations.SingleRunLoopHead := by
  intro s hp
  refine ⟨step_sbr_of_full hp, step_sbr_of_exhausted hp, fun i rest hw hsel hsl => ?token⟩
  case token =>
    have hne : s.srcSlots ≠ [] := by simp [hsl, encodeSlots, encode_ne_nil_of_sbr_selects hsel]
    exact step_sbr_of_decodeSbr_ok hp hw hne (hsl ▸ decodeSbr_encodeSlots hsel rest)

/-! ### The tokens that emit -/

theorem Memory.read_store_singleton (m : Memory) (a : Nat) (b : Byte) (x : Nat) :
    (m.store a [b]).read x = if x = a then some b else m.read x :=
  (m.read_store_replicate a 1 b x).trans (if_congr (by omega) rfl rfl)

theorem State.wrCursor_out {s : State} (h : s.dest.dst = .out) : s.wrCursor = s.dest.wr := by
  simp only [State.wrCursor, h]

theorem State.wrCursor_tmp {s : State} (h : s.dest.dst = .tmp) : s.wrCursor = s.dest.tmpWr := by
  simp only [State.wrCursor, h]

/-- Passing a token's bytes and emitting touches the cursors and the destination buffer alone. -/
theorem onlyStreams_advance_append (s : State) (n : Nat) (bs : List Byte) :
    OnlyStreams s ((s.advance n).append bs) := by
  constructor <;> simp

/-- Settles O23: the eleven tokens are one run by their layout, and a cut token is rejected by the decoder. -/
theorem runTokens : Obligations.RunTokens := by
  refine ⟨fun s i len n v hi hdst hfit => ?fits, fun s i len n v hi hdst hover => ?overflow,
    fun s i m hp hw hsel hpos hm hsl => ?cut⟩
  case fits =>
    refine ⟨(s.advance len).append (List.replicate n v), ?_, onlyStreams_advance_append s len _, rfl, rfl, rfl, ?_⟩
    · rw [exec_run hi, runToken_eq, State.wrCursor_out hdst, if_pos hfit]
    · simp [Dest.wrote_out _ _ hdst, Buffers.wrote_out _ _ _ hdst, Memory.read_store_replicate]
  case overflow =>
    rw [exec_run hi, runToken_eq, State.wrCursor_out hdst, if_neg (Nat.not_le.2 hover)]
  case cut =>
    obtain ⟨m, rfl⟩ := Nat.exists_eq_add_one.2 hpos
    have hne : s.srcSlots ≠ [] := by simp [hsl, encodeSlots, encode_ne_nil_of_sbr_selects hsel]
    exact step_sbr_of_decodeSbr_error hp hw hne (hsl ▸ decodeSbr_take_encodeSlots hsel hm)

/-! ### The step in SEQ -/

section
variable {s : State} (hp : s.phase = .seq)
include hp

theorem step_seq : step s = runFetched exec s s :=
  step_of_entryContext_none (by simp [State.entryContext, hp])

theorem step_seq_of_exhausted (hr : s.cur.rd = s.cur.srcLen) : step s = .next (endPrePass s) := by
  have hf : fetch s = .seqEnd := by simp [fetch, State.context, hp, hr]
  rw [step_seq hp, runFetched, hf]

theorem step_seq_of_decodeSeq_ok {i : Instr} (hsl : s.srcSlots ≠ [])
    (hd : decodeSeq s.rle.bracket s.srcSlots = .ok i) : step s = exec i s := by
  have hf : fetch s = .instr i :=
    fetch_of_decode_ok (c := .seq s.rle.bracket) (by simp [State.context, hp])
      (by simp [State.rd_ne_srcLen_of_srcSlots_ne_nil hsl]) (by simp [hp])
      (by simpa [State.tokenSlots, hp, decode] using hd)
  rw [step_seq hp, runFetched, hf]

end

/-- Settles O24: the three cases of the loop head. -/
theorem sequenceLoopHead : Obligations.SequenceLoopHead := by
  intro s hp
  refine ⟨step_seq_of_exhausted hp, fun b rest hb hsl => ?literal, fun body rep rest hbody hsl => ?block⟩
  case literal => exact step_seq_of_decodeSeq_ok hp (by simp [hsl]) (hsl ▸ decodeSeq_literal hb rest)
  case block => exact step_seq_of_decodeSeq_ok hp (by simp [hsl]) (hsl ▸ decodeSeq_block hbody rep rest)

/-- Settles O25: one byte is emitted to TMP, or does not fit. -/
theorem sequenceLiterals : Obligations.SequenceLiterals := by
  intro s b hdst
  have hcur : (s.advance 1).wrCursor = s.dest.tmpWr := State.wrCursor_tmp hdst
  refine ⟨fun hfit => ⟨(s.advance 1).append [b], ?fits, onlyStreams_advance_append s 1 _, rfl, rfl, rfl, ?effect⟩,
    fun hfull => ?overflow⟩
  case fits =>
    have he : emit [b] (s.advance 1) = .ok ((s.advance 1).append [b]) := emit_ok.2 ⟨by simpa [hcur] using hfit, rfl⟩
    exact congrArg (finish s) he
  case effect =>
    simp [Dest.wrote_tmp _ _ hdst, Buffers.wrote_tmp _ _ _ hdst, Memory.read_store_singleton]
  case overflow =>
    have he : emit [b] (s.advance 1) = .error (.raise .overflowOutput) :=
      emit_error.2 ⟨by simpa [hcur, Nat.lt_succ_iff] using hfull, rfl⟩
    exact congrArg (finish s) he

end Sys2Proof.Machine
end

