-- ==== Sys2Proof/Proofs/VleHeads.lean ====
section
/-! The VLE engine's two decoders on slots of known values, the order of the checks of a step in VHDR, and the loop
head of VDEC (42_vle.md R170, R173, R174, R177, R184, R193). -/

namespace Sys2Proof

/-! ### The VLE pass header -/

theorem decodeVhdr_nil : decodeVhdr [] = .error .truncated := rfl

/-- The checks in order: `widths_lengths`, the counts, their sum, the alphabet. -/
theorem decodeVhdr_cons (wl : Byte) (rest : List Slot) :
    decodeVhdr (some wl :: rest) =
      if highBit wl = false ∨ maxWidths < (low7 wl).toNat then .error .badVLEHeader
      else takeBytes (low7 wl).toNat rest >>= fun p =>
        if maxAlphabet < countSum p.1 then .error .badVLEHeader
        else takeBytes (countSum p.1) p.2 >>= fun q => .ok (.vleHdr p.1 q.1) := rfl

theorem decodeVhdr_illegal_widths {wl : Byte} (h : highBit wl = false ∨ maxWidths < (low7 wl).toNat)
    (rest : List Slot) : decodeVhdr (some wl :: rest) = .error .badVLEHeader := by
  rw [decodeVhdr_cons, if_pos h]

theorem decodeVhdr_counts_cut {wl : Byte} {bs : List Byte} (hh : highBit wl = true) (hle : (low7 wl).toNat ≤ maxWidths)
    (h : bs.length < (low7 wl).toNat) : decodeVhdr (some wl :: bs.map some) = .error .truncated := by
  rw [decodeVhdr_cons, if_neg (by simp [hh, hle]), takeBytes_cut h]
  rfl

section
variable {counts : List Byte} (hlen : counts.length ≤ maxWidths)
include hlen

/-- Past a legal number of counts, all of them present, their sum is judged before the alphabet is read. -/
theorem decodeVhdr_counts (rest : List Slot) :
    decodeVhdr (some (mkByte true (BitVec.ofNat 7 counts.length)) :: (counts.map some ++ rest)) =
      if maxAlphabet < countSum counts then .error .badVLEHeader
      else takeBytes (countSum counts) rest >>= fun q => .ok (.vleHdr counts q.1) := by
  have hW : (low7 (mkByte true (BitVec.ofNat 7 counts.length))).toNat = counts.length := by
    rw [low7_mkByte, BitVec.toNat_ofNat, Nat.mod_eq_of_lt (Nat.lt_of_le_of_lt hlen (by decide))]
  rw [decodeVhdr_cons, hW, if_neg (by simp [hlen]), takeBytes_append, ok_bind]

theorem decodeVhdr_sum_gt (h : maxAlphabet < countSum counts) (rest : List Slot) :
    decodeVhdr (some (mkByte true (BitVec.ofNat 7 counts.length)) :: (counts.map some ++ rest)) =
      .error .badVLEHeader := by
  rw [decodeVhdr_counts hlen, if_pos h]

theorem decodeVhdr_alphabet_cut {bs : List Byte} (hle : countSum counts ≤ maxAlphabet)
    (h : bs.length < countSum counts) :
    decodeVhdr (some (mkByte true (BitVec.ofNat 7 counts.length)) :: (counts.map some ++ bs.map some)) =
      .error .truncated := by
  rw [decodeVhdr_counts hlen, if_neg (Nat.not_lt.2 hle), takeBytes_cut h]
  rfl

end

/-! ### The VLE codes -/

section
variable {widths : Vector Byte 256} {pfx : Byte} (rest : List Slot)

theorem decodeVdec_short {i : Instr} {w : Nat} (hi : Machine.shortLayout i = some (w, pfx))
    (hw : (widths[pfx.toNat]'pfx.isLt).toNat = w) : decodeVdec widths (some pfx :: rest) = .ok i := by
  cases i with
  | vleShortW1 | vleShortW2 | vleShortW3 | vleShortW4 | vleShortW5 | vleShortW6 | vleShortW7 | vleShortW8 =>
    cases hi
    simp only [decodeVdec, takeByte_cons, ok_bind, hw]
  | _ => cases hi

theorem decodeVdec_long (hw : widths[pfx.toNat]'pfx.isLt = vleEscapeWidth) :
    decodeVdec widths (some pfx :: rest) = .ok (.vleLong pfx) := by
  simp only [decodeVdec, takeByte_cons, ok_bind, hw]
  rfl

/-- Every width that selects a row is legal, so an illegal one meets the last branch (42_vle.md R193). -/
theorem decodeVdec_illegal (hw : Machine.legalWidth (widths[pfx.toNat]'pfx.isLt) = false) :
    decodeVdec widths (some pfx :: rest) = .error .badVLECode := by
  have hshort : ¬(1 ≤ (widths[pfx.toNat]'pfx.isLt).toNat ∧ (widths[pfx.toNat]'pfx.isLt).toNat ≤ 8) := by
    rintro ⟨h1, h8⟩
    simp [Machine.legalWidth, h1, h8] at hw
  have hlong : (widths[pfx.toNat]'pfx.isLt).toNat ≠ 0x40 := fun h => by
    have he : widths[pfx.toNat]'pfx.isLt = vleEscapeWidth := BitVec.eq_of_toNat_eq h
    simp [Machine.legalWidth, he] at hw
  simp only [decodeVdec, takeByte_cons, ok_bind]
  split
  case h_10 => rfl
  all_goals omega

end

end Sys2Proof

namespace Sys2Proof.Machine

/-! ### The step in VHDR -/

theorem step_vhdr_of_decodeVhdr_error {s : State} (hp : s.phase = .vhdr) {r : Reject}
    (hd : decodeVhdr s.srcSlots = .error r) : step s = rejected s r :=
  (step_of_entryContext_none (by simp [State.entryContext, hp])).trans
    (runFetched_of_decode_error (c := .vhdr) (by simp [State.context, hp]) (by simp [hp]) s hd)

/-- Settles O36: each case is the first check of the header's decoder that fails. -/
theorem vleHeaderErrorsInOrder : Obligations.VleHeaderErrorsInOrder := by
  intro s hp
  refine ⟨fun hsl => ?empty, fun wl rest hsl hw => ?widths, fun wl counts hh hle hlen hsl => ?countsCut,
    fun counts rest hlen hsum hsl => ?sum, fun counts alphabet hlen hsum hcut hsl => ?alphabetCut⟩
  case empty => exact step_vhdr_of_decodeVhdr_error hp (hsl ▸ decodeVhdr_nil)
  case widths => exact step_vhdr_of_decodeVhdr_error hp (hsl ▸ decodeVhdr_illegal_widths hw rest)
  case countsCut => exact step_vhdr_of_decodeVhdr_error hp (hsl ▸ decodeVhdr_counts_cut hh hle hlen)
  case sum =>
    rw [List.cons_append] at hsl
    exact step_vhdr_of_decodeVhdr_error hp (hsl ▸ decodeVhdr_sum_gt hlen hsum rest)
  case alphabetCut =>
    rw [List.map_append, List.map_cons, List.cons_append] at hsl
    exact step_vhdr_of_decodeVhdr_error hp (hsl ▸ decodeVhdr_alphabet_cut hlen hsum hcut)

/-! ### The step in VDEC -/

section
variable {s : State} (hp : s.phase = .vdec)
include hp

theorem step_vdec : step s = runFetched exec s s :=
  step_of_entryContext_none (by simp [State.entryContext, hp])

theorem step_vdec_of_full (hw : s.dest.wr = s.dest.dstLen) : step s = exec .passEnd s := by
  have hf : fetch s = .instr .passEnd :=
    fetch_of_decode_ok (c := .vdec true s.vle.widths) (by simp [State.context, hp, hw]) (by simp [hp])
      (by simp [hp]) rfl
  rw [step_vdec hp, runFetched, hf]

variable (hw : s.dest.wr ≠ s.dest.dstLen)
include hw

theorem step_vdec_of_decodeVdec_ok {i : Instr} (hd : decodeVdec s.vle.widths [some (prefixOf s.win.word)] = .ok i) :
    step s = exec i s := by
  have hf : fetch s = .instr i :=
    fetch_of_decode_ok (c := .vdec false s.vle.widths) (by simp [State.context, hp, hw]) (by simp [hp]) (by simp [hp])
      (by simpa [State.tokenSlots, hp, decode] using hd)
  rw [step_vdec hp, runFetched, hf]

theorem step_vdec_of_decodeVdec_error {r : Reject}
    (hd : decodeVdec s.vle.widths [some (prefixOf s.win.word)] = .error r) : step s = rejected s r := by
  have hf : fetch s = .reject r :=
    fetch_of_decode_error (c := .vdec false s.vle.widths) (by simp [State.context, hp, hw]) (by simp [hp])
      (by simp [hp]) (by simpa [State.tokenSlots, hp, decode] using hd)
  rw [step_vdec hp, runFetched, hf]

end

/-- Settles O41: the output's fill, then the prefix's entry, pick one of the four cases. -/
theorem bitStreamLoopHead : Obligations.BitStreamLoopHead := by
  intro s hp
  refine ⟨step_vdec_of_full hp, fun i w hne hi hw => ?short, fun hne hw => ?long, fun hne hw => ?illegal⟩
  case short => exact step_vdec_of_decodeVdec_ok hp hne (decodeVdec_short [] hi hw)
  case long => exact step_vdec_of_decodeVdec_ok hp hne (decodeVdec_long [] hw)
  case illegal => exact step_vdec_of_decodeVdec_error hp hne (decodeVdec_illegal [] hw)

end Sys2Proof.Machine
end

