-- ==== Sys2Proof/Proofs/HostPort.lean ====
section
/-! What a host write of CTRL does, and the two conditions under which it is ignored (10_state.md R41,
60_exceptions.md R222). -/

namespace Sys2Proof.Machine

theorem hostStep_writeReg_ctrl (s : State) (v : BitVec 32) :
    hostStep (.writeReg 0 v) s = .next (s.writeCtrl v) := rfl

theorem State.writeCtrl_of_busy {s : State} (hb : s.phase.busy = true) (v : BitVec 32) : s.writeCtrl v = s := by
  simp [State.writeCtrl, hb]

theorem State.writeCtrl_of_bit_clear {v : BitVec 32} (hv : v.getLsbD 0 = false) (s : State) : s.writeCtrl v = s := by
  simp only [State.writeCtrl, hv, Bool.false_and, Bool.false_eq_true, if_false]

/-- Settles O53: START needs bit 0 set and a core that is not busy, and each part denies one of the two. -/
theorem ignoredStartChangesNothing : Obligations.IgnoredStartChangesNothing := by
  refine ⟨fun s v hb => ?busy, fun s v hv => ?bitClear⟩
  case busy => rw [hostStep_writeReg_ctrl, State.writeCtrl_of_busy hb]
  case bitClear => rw [hostStep_writeReg_ctrl, State.writeCtrl_of_bit_clear hv]

end Sys2Proof.Machine
end

