-- ==== Sys2Proof/Proofs/Reset.lean ====
section
/-! The reset input (70_reset_and_hazards.md R240, R241): what each group of fields holds after it, whatever the state
before, and what the host then reads. -/

namespace Sys2Proof.Machine

theorem hostStep_reset (s : State) : hostStep .reset s = .next s.applyReset := rfl

@[simp] theorem State.applyReset_phase (s : State) : s.applyReset.phase = .idle := rfl

@[simp] theorem State.applyReset_cur (s : State) :
    s.applyReset.cur = { rd := 0, srcLen := 0, src := .inMem } := rfl

@[simp] theorem State.applyReset_dest (s : State) :
    s.applyReset.dest = { dst := .out, wr := 0, dstLen := 0, tmpWr := 0 } := rfl

@[simp] theorem State.applyReset_pass (s : State) :
    s.applyReset.pass = { passCount := 0, passIndex := 0, tag := 0, subFileSize := 0 } := rfl

@[simp] theorem State.applyReset_rle (s : State) : s.applyReset.rle =
    { escLen := 0, noSeq := false, escN := 0, escCodes := Vector.replicate 10 0,
      escLookup := Vector.replicate 256 0, bracket := 0, seqStart := 0, rep := 0 } := rfl

@[simp] theorem State.applyReset_vle (s : State) : s.applyReset.vle =
    { W := 0, widthsOffset := 0, codesOffset := 0, widthSum := 0, alphabetLength := 0,
      escBase := Vector.replicate 16 0, escLimit := Vector.replicate 16 0, alphabet := Vector.replicate 256 0,
      symbols := Vector.replicate 256 0, widths := Vector.replicate 256 0 } := rfl

@[simp] theorem State.applyReset_win (s : State) :
    s.applyReset.win = { word := 0, br := 0, cs := 0, escIndex := 0 } := rfl

@[simp] theorem State.applyReset_host (s : State) :
    s.applyReset.host = { errKind := .none, errPass := 0, inLen := 0, resultLen := 0 } := rfl

/-- The host reads 0 from every register of the block; STATUS and ERR_KIND are those of R241. -/
theorem State.regValue_applyReset (s : State) (r : HostReg) : s.applyReset.regValue r = 0 := by
  cases r with
  | ctrl | reserved => rfl
  | status => rw [State.regValue, State.applyReset_phase]; decide
  | errKind | errPass | inLen | resultLen => simp [State.regValue, ErrKind.code]
  | passCount | passIndex => simp [State.regValue]

/-- A result is readable in DONE alone (60_exceptions.md R224). -/
theorem readResult_of_not_done {s : State} (hp : s.phase ≠ .done) (pos : Nat) :
    readResult pos s = .error .resultNotReadable :=
  if_neg fun h => hp h.1

/-- Settles O57: each group of fields after reset is one value from every state, and the phase is not DONE. -/
theorem resetClearsEverything : Obligations.ResetClearsEverything := by
  intro s
  refine ⟨s.applyReset, hostStep_reset s, s.applyReset_phase, s.applyReset_cur, by simp, by simp, by simp,
    s.applyReset_pass, ?rleZero, ?vleZero, s.applyReset_win, by simp, s.regValue_applyReset,
    readResult_of_not_done (by simp)⟩
  case rleZero => simp
  case vleZero => simp

end Sys2Proof.Machine
end

