-- ==== Sys2Proof/Proofs/Encoding.lean ====
section
/-! The decoder and the encoder are each other's inverse, context by context, the reserved header bytes apart
(30_encoding.md R86–R100). -/

namespace Sys2Proof

open Machine (reservedAt shortLayout)

/-! ### What a token's head says of the token -/

theorem wellFormed_of_head_sbr {i : Instr} {b : Byte} {k : Nat} (h : i.head = .sbr b k) : i.wellFormed = true := by
  cases i with
  | rhdrNoseq | rhdrSeq | seqBlock | vleHdr => cases h
  | _ => rfl

/-- A code's head is a legal width with its prefix: 1 … 8 of a short code, 0x40 of the long one (30_encoding.md R97). -/
theorem layout_of_head_vdec {i : Instr} {pfx : Byte} {w : Nat} (h : i.head = .vdec pfx w) :
    shortLayout i = some (w, pfx) ∨ (i = .vleLong pfx ∧ w = 0x40) := by
  cases i with
  | vleShortW1 | vleShortW2 | vleShortW3 | vleShortW4 | vleShortW5 | vleShortW6 | vleShortW7 | vleShortW8 =>
    cases h; exact .inl rfl
  | vleLong => cases h; exact .inr ⟨rfl, rfl⟩
  | _ => cases h

theorem of_shortLayout {i : Instr} {pfx : Byte} {w : Nat} (h : shortLayout i = some (w, pfx)) :
    i.wellFormed = true ∧ i.head = .vdec pfx w ∧ encode i = [pfx] := by
  cases i with
  | vleShortW1 | vleShortW2 | vleShortW3 | vleShortW4 | vleShortW5 | vleShortW6 | vleShortW7 | vleShortW8 =>
    cases h; exact ⟨rfl, rfl, rfl⟩
  | _ => cases h

theorem encode_of_head_vdec {i : Instr} {pfx : Byte} {w : Nat} (h : i.head = .vdec pfx w) : encode i = [pfx] := by
  rcases layout_of_head_vdec h with h | ⟨rfl, -⟩
  · exact (of_shortLayout h).2.2
  · rfl

/-- The token a selector and its operands make has that selector and those bytes (30_encoding.md R91, R92). -/
theorem runOfOperands_layout {k : Nat} (hk : k < 11) (b : Byte) {ops : List Byte} (h : ops.length = operandCount k) :
    encode (runOfOperands k b ops) = b :: ops ∧ (runOfOperands k b ops).head = .sbr b k := by
  match k, hk, ops, h with
  | 0, _, [], _ => exact ⟨rfl, rfl⟩
  | 1, _, [n, v], _ => exact ⟨rfl, rfl⟩
  | 3, _, [lo, hi, v], _ =>
    obtain ⟨hlo, hhi⟩ := byteOf_le16 lo hi
    exact ⟨by simp [runOfOperands, encode, hlo, hhi], rfl⟩
  | 2, _, [v], _ | 4, _, [v], _ | 5, _, [v], _ | 6, _, [v], _ | 7, _, [v], _ | 8, _, [v], _ | 9, _, [v], _
  | 10, _, [v], _ => exact ⟨rfl, rfl⟩

/-! ### The bytes of a token decode to it -/

theorem decodeChdr_encodeSlots {i : Instr} (h : i.head = .chdr) (rest : List Slot) :
    decodeChdr (encodeSlots i ++ rest) = .ok i := by
  cases i with
  | chdrSingle low => exact (decodeChdr_single (highBit_mkByte false low) rest).trans (by rw [low7_mkByte])
  | chdrMulti pc => exact (decodeChdr_multi (highBit_mkByte true pc) (by simp)).trans (by rw [low7_mkByte])
  | _ => cases h

theorem decodePhdr_encodeSlots {i : Instr} (h : i.head = .phdr) (rest : List Slot) :
    decodePhdr (encodeSlots i ++ rest) = .ok i := by
  cases i with
  | phdrRle size => exact (decodePhdr_rle _ _ _ rest).trans (by rw [le24_byteOf])
  | phdrVle size => exact (decodePhdr_vle _ _ _ rest).trans (by rw [le24_byteOf])
  | _ => cases h

/-- A legal list of escape bytes behind a count that declares it (30_encoding.md R88, R89). -/
theorem decodeRhdr_escs {noSeq : Bool} {escs : List Byte} (hle : escs.length ≤ maxEscapes)
    (hmode : noSeq = true ∨ 2 ≤ escs.length) (r0 r1 r2 r3 : Slot) (rest : List Slot) :
    decodeRhdr (r0 :: r1 :: r2 :: r3 :: some (mkByte noSeq (BitVec.ofNat 7 escs.length)) :: (escs.map some ++ rest)) =
      .ok (if noSeq then .rhdrNoseq escs else .rhdrSeq escs) := by
  have hn : (BitVec.ofNat 7 escs.length).toNat = escs.length := by
    rw [BitVec.toNat_ofNat, Nat.mod_eq_of_lt (Nat.lt_of_le_of_lt hle (by decide))]
  have hlegal : ¬(noSeq = false ∧ escs.length < 2) := by
    rintro ⟨rfl, hlt⟩
    simp at hmode
    omega
  rw [decodeRhdr_cons, low7_mkByte, highBit_mkByte, hn, if_neg (Nat.not_lt.2 hle), if_neg hlegal, takeBytes_append,
    ok_bind]
  cases noSeq <;> rfl

theorem decodeRhdr_encodeSlots {i : Instr} (h : i.head = .rhdr) (hw : i.wellFormed = true) (rest : List Slot) :
    decodeRhdr (encodeSlots i ++ rest) = .ok i := by
  cases i with
  | rhdrNoseq escs =>
    have hle : escs.length ≤ maxEscapes := of_decide_eq_true hw
    exact decodeRhdr_escs hle (.inl rfl) _ _ _ _ rest
  | rhdrSeq escs =>
    simp only [Instr.wellFormed, Bool.and_eq_true, decide_eq_true_eq] at hw
    exact decodeRhdr_escs hw.2 (.inr hw.1) _ _ _ _ rest
  | _ => cases h

theorem decodeSeq_encodeSlots {brk : Byte} {i : Instr} (h : (Ctx.seq brk).selects i = true) (hw : i.wellFormed = true)
    (rest : List Slot) : decodeSeq brk (encodeSlots i ++ rest) = .ok i := by
  cases i with
  | seqLit b => exact decodeSeq_literal (by simpa [Ctx.selects, Ctx.finds, Instr.head] using h) rest
  | seqBlock b body rep =>
    obtain rfl : b = brk := by simpa [Ctx.selects, Ctx.finds, Instr.head] using h
    exact decodeSeq_block (by simpa [Instr.wellFormed] using hw) rep rest
  | _ => cases h

theorem decodeVhdr_encodeSlots {i : Instr} (h : i.head = .vhdr) (hw : i.wellFormed = true) (rest : List Slot) :
    decodeVhdr (encodeSlots i ++ rest) = .ok i := by
  cases i with
  | vleHdr counts alphabet =>
    simp only [Instr.wellFormed, Bool.and_eq_true, decide_eq_true_eq] at hw
    obtain ⟨⟨hlen, hsum⟩, halpha⟩ := hw
    simp only [encodeSlots, encode, List.map_cons, List.map_append, List.cons_append, List.append_assoc]
    rw [decodeVhdr_counts hlen, if_neg (Nat.not_lt.2 hsum), ← halpha, takeBytes_append, ok_bind]
  | _ => cases h

theorem decodeVdec_encodeSlots {widths : Vector Byte 256} {i : Instr} (h : (Ctx.vdec false widths).selects i = true)
    (rest : List Slot) : decodeVdec widths (encodeSlots i ++ rest) = .ok i := by
  cases hh : i.head with
  | vdec pfx w =>
    have hw : (widths[pfx.toNat]'pfx.isLt).toNat = w := by simpa [Ctx.selects, Ctx.finds, hh] using h
    rw [encodeSlots, encode_of_head_vdec hh]
    rcases layout_of_head_vdec hh with hs | ⟨rfl, rfl⟩
    · exact decodeVdec_short rest hs hw
    · exact decodeVdec_long rest (BitVec.eq_of_toNat_eq hw)
  | _ => simp [Ctx.selects, Ctx.finds, hh] at h

/-- A token that reads no byte is the only one of its head. -/
theorem eq_of_head_eq {i j : Instr} (hj : encode j = []) (h : i.head = j.head) : i = j := by
  cases j with
  | runStart => cases i with | runStart => rfl | _ => cases h
  | passEntry => cases i with | passEntry => rfl | _ => cases h
  | passEnd => cases i with | passEnd => rfl | _ => cases h
  | passChain => cases i with | passChain => rfl | _ => cases h
  | runDone => cases i with | runDone => rfl | _ => cases h
  | _ => cases hj

theorem eq_passEnd_of_sbr_selects {lookup : Vector (Fin 11) 256} {i : Instr} (h : (Ctx.sbr true lookup).selects i = true) :
    i = .passEnd := by
  refine eq_of_head_eq rfl ?_
  cases hh : i.head with
  | passEnd => rfl
  | _ => simp [Ctx.selects, Ctx.finds, hh] at h

theorem eq_passEnd_of_vdec_selects {widths : Vector Byte 256} {i : Instr} (h : (Ctx.vdec true widths).selects i = true) :
    i = .passEnd := by
  refine eq_of_head_eq rfl ?_
  cases hh : i.head with
  | passEnd => rfl
  | _ => simp [Ctx.selects, Ctx.finds, hh] at h

theorem eq_of_pend_selects {last : Bool} {i : Instr} (h : (Ctx.pend last).selects i = true) :
    i = if last then .runDone else .passChain := by
  have hhead : i.head = if last then .runDone else .passChain := of_decide_eq_true h
  cases last with
  | true => exact eq_of_head_eq rfl hhead
  | false => exact eq_of_head_eq rfl hhead

/-- Settles O1: context by context, the bytes of a selected token decode to it. -/
theorem decodeOfEncodeIsTheToken : Obligations.DecodeOfEncodeIsTheToken := by
  intro c i rest hw hsel
  cases c with
  | runStart => rw [eq_of_head_eq (j := .runStart) rfl (of_decide_eq_true hsel)]; rfl
  | passEntry => rw [eq_of_head_eq (j := .passEntry) rfl (of_decide_eq_true hsel)]; rfl
  | chdr => exact decodeChdr_encodeSlots (of_decide_eq_true hsel) rest
  | phdr => exact decodePhdr_encodeSlots (of_decide_eq_true hsel) rest
  | rhdr => exact decodeRhdr_encodeSlots (of_decide_eq_true hsel) hw rest
  | seq brk => exact decodeSeq_encodeSlots hsel hw rest
  | vhdr => exact decodeVhdr_encodeSlots (of_decide_eq_true hsel) hw rest
  | sbr full lookup =>
    cases full with
    | false => exact decodeSbr_encodeSlots hsel rest
    | true => rw [eq_passEnd_of_sbr_selects hsel]; rfl
  | vdec full widths =>
    cases full with
    | false => exact decodeVdec_encodeSlots hsel rest
    | true => rw [eq_passEnd_of_vdec_selects hsel]; rfl
  | pend last => rw [eq_of_pend_selects hsel]; rfl

/-! ### The layout of a decoded token -/

/-- The slots begin with the token's bytes, those it reserves apart (30_encoding.md R100). -/
def LaidOut (i : Instr) (sl : List Slot) : Prop :=
  (encode i).length ≤ sl.length ∧
    ∀ j (h : j < (encode i).length), reservedAt i j = false → sl[j]? = some (some (encode i)[j])

theorem laidOut_append (i : Instr) (rest : List Slot) : LaidOut i (encodeSlots i ++ rest) := by
  refine ⟨by simp [encodeSlots], fun j h _ => ?_⟩
  rw [List.getElem?_append_left (by simpa [encodeSlots] using h), encodeSlots, List.getElem?_map,
    List.getElem?_eq_getElem h, Option.map_some]

theorem laidOut_of_eq {i : Instr} {sl rest : List Slot} (h : sl = encodeSlots i ++ rest) : LaidOut i sl :=
  h ▸ laidOut_append i rest

/-- Other slots in the place of the reserved ones: the layout speaks of the unreserved alone. -/
theorem LaidOut.congr {i : Instr} {sl sl' : List Slot} (h : LaidOut i sl) (hlen : sl.length = sl'.length)
    (hj : ∀ j, reservedAt i j = false → sl'[j]? = sl[j]?) : LaidOut i sl' :=
  ⟨hlen ▸ h.1, fun j hlt hr => (hj j hr).trans (h.2 j hlt hr)⟩

/-- What is said of a decoded token: it is well-formed, its context selects it, and its bytes are there. -/
def ReadsAs (c : Ctx) (sl : List Slot) (i : Instr) : Prop :=
  i.wellFormed = true ∧ c.selects i = true ∧ LaidOut i sl

theorem readsAs_chdr {sl : List Slot} {i : Instr} (h : decodeChdr sl = .ok i) : ReadsAs .chdr sl i := by
  obtain ⟨b, rest, rfl, ⟨hb, rfl⟩ | ⟨hb, h3, rfl⟩⟩ := decodeChdr_ok h
  · have hm : mkByte false (low7 b) = b := by rw [← hb, mkByte_fields]
    exact ⟨rfl, rfl, laidOut_of_eq (rest := rest) (by simp [encodeSlots, encode, hm])⟩
  · have hm : mkByte true (low7 b) = b := by rw [← hb, mkByte_fields]
    obtain ⟨r1, r2, r3, rest, rfl⟩ : ∃ r1 r2 r3 rest', rest = r1 :: r2 :: r3 :: rest' := by
      match rest, h3 with
      | r1 :: r2 :: r3 :: rest', _ => exact ⟨r1, r2, r3, rest', rfl⟩
    refine ⟨rfl, rfl, (laidOut_append (.chdrMulti (low7 b)) rest).congr rfl fun j hj => ?_⟩
    match j with
    | 0 => simp [encodeSlots, encode, hm]
    | j + 1 => simp [reservedAt] at hj

theorem readsAs_phdr {sl : List Slot} {i : Instr} (h : decodePhdr sl = .ok i) : ReadsAs .phdr sl i := by
  obtain ⟨tag, s0, s1, s2, rest, rfl, ⟨rfl, rfl⟩ | ⟨rfl, rfl⟩⟩ := decodePhdr_ok h <;>
  · obtain ⟨h0, h1, h2⟩ := byteOf_le24 s0 s1 s2
    exact ⟨rfl, rfl, laidOut_of_eq (rest := rest) (by simp [encodeSlots, encode, h0, h1, h2])⟩

/-- A decoded RLE header in full: four reserved slots, the count with its mode bit, the escape bytes. -/
theorem decodeRhdr_slots {sl : List Slot} {i : Instr} (h : decodeRhdr sl = .ok i) :
    ∃ (noSeq : Bool) (escs : List Byte) (r0 r1 r2 r3 : Slot) (rest : List Slot),
      escs.length ≤ maxEscapes ∧ (noSeq = true ∨ 2 ≤ escs.length) ∧
      i = (if noSeq then .rhdrNoseq escs else .rhdrSeq escs) ∧
      sl = r0 :: r1 :: r2 :: r3 :: some (mkByte noSeq (BitVec.ofNat 7 escs.length)) :: (escs.map some ++ rest) := by
  obtain ⟨r0, h0, h'⟩ := Machine.Except.bind_eq_ok.1 h
  obtain ⟨⟨b, rest⟩, hb, -⟩ := Machine.Except.bind_eq_ok.1 h'
  obtain ⟨hl, rfl⟩ := skipSlots_ok.1 h0
  obtain ⟨x0, x1, x2, x3, tl, rfl⟩ : ∃ x0 x1 x2 x3 tl, sl = x0 :: x1 :: x2 :: x3 :: tl := by
    match sl, hl with
    | x0 :: x1 :: x2 :: x3 :: tl, _ => exact ⟨x0, x1, x2, x3, tl, rfl⟩
  obtain rfl : tl = some b :: rest := takeByte_ok.1 hb
  rw [decodeRhdr_cons] at h
  split at h
  · cases h
  next hle =>
  split at h
  · cases h
  next hmode =>
  obtain ⟨⟨escs, rest'⟩, he, hi⟩ := Machine.Except.bind_eq_ok.1 h
  obtain ⟨hlen, rfl⟩ := takeBytes_ok.1 he
  have hm : mkByte (highBit b) (BitVec.ofNat 7 escs.length) = b := by
    rw [hlen, BitVec.ofNat_toNat, BitVec.setWidth_eq, mkByte_fields]
  refine ⟨highBit b, escs, x0, x1, x2, x3, rest', by omega, ?_, ?_, by rw [hm]⟩
  · cases hh : highBit b with
    | true => exact .inl rfl
    | false => exact .inr (Nat.not_lt.1 fun hlt => hmode ⟨hh, hlen ▸ hlt⟩)
  · cases hh : highBit b <;> simp [hh] at hi <;> simp [hi]

theorem readsAs_rhdr {sl : List Slot} {i : Instr} (h : decodeRhdr sl = .ok i) : ReadsAs .rhdr sl i := by
  obtain ⟨noSeq, escs, r0, r1, r2, r3, rest, hle, hmode, rfl, rfl⟩ := decodeRhdr_slots h
  have hcongr : ∀ (x : Byte) (j : Nat), decide (j < 4) = false →
      (r0 :: r1 :: r2 :: r3 :: some x :: (escs.map some ++ rest))[j]? =
        (some 0 :: some 0 :: some 0 :: some 0 :: some x :: (escs.map some ++ rest))[j]? := fun x j hj => by
    obtain ⟨j, rfl⟩ := Nat.exists_eq_add_of_le' (Nat.not_lt.1 (of_decide_eq_false hj))
    rfl
  cases noSeq with
  | true => exact ⟨decide_eq_true hle, rfl, (laidOut_append (.rhdrNoseq escs) rest).congr rfl (hcongr _)⟩
  | false =>
    have h2 : 2 ≤ escs.length := hmode.resolve_left Bool.false_ne_true
    exact ⟨by simp [Instr.wellFormed, hle, h2], rfl, (laidOut_append (.rhdrSeq escs) rest).congr rfl (hcongr _)⟩

theorem readsAs_seq {brk : Byte} {sl : List Slot} {i : Instr} (h : decodeSeq brk sl = .ok i) :
    ReadsAs (.seq brk) sl i := by
  obtain ⟨b, rest, hb, rfl, rfl⟩ | ⟨body, rep, rest, hbody, rfl, rfl⟩ := decodeSeq_ok h
  · exact ⟨rfl, by simpa [Ctx.selects, Ctx.finds, Instr.head] using hb, laidOut_of_eq (rest := rest) rfl⟩
  · refine ⟨by simpa [Instr.wellFormed] using hbody, by simp [Ctx.selects, Ctx.finds, Instr.head],
      laidOut_of_eq (rest := rest) (by simp [encodeSlots, encode])⟩

theorem readsAs_sbr {lookup : Vector (Fin 11) 256} {sl : List Slot} {i : Instr} (h : decodeSbr lookup sl = .ok i) :
    ReadsAs (.sbr false lookup) sl i := by
  obtain ⟨⟨b, rest⟩, hb, -⟩ := Machine.Except.bind_eq_ok.1 h
  obtain rfl := takeByte_ok.1 hb
  rw [decodeSbr_cons] at h
  obtain ⟨⟨ops, rest'⟩, ho, hi⟩ := Machine.Except.bind_eq_ok.1 h
  obtain ⟨hlen, rfl⟩ := takeBytes_ok.1 ho
  injection hi with hi
  subst hi
  obtain ⟨henc, hhead⟩ := runOfOperands_layout (Fin.isLt _) b hlen
  refine ⟨wellFormed_of_head_sbr hhead, by rw [Ctx.selects, hhead]; simp [Ctx.finds],
    laidOut_of_eq (rest := rest') ?_⟩
  rw [encodeSlots, henc, List.map_cons, List.cons_append]

theorem readsAs_vhdr {sl : List Slot} {i : Instr} (h : decodeVhdr sl = .ok i) : ReadsAs .vhdr sl i := by
  obtain ⟨counts, alphabet, rest, rfl, h1, h2, h3, rfl⟩ := decodeVhdr_ok h
  exact ⟨by simp [Instr.wellFormed, h1, h2, h3], rfl,
    laidOut_of_eq (rest := rest) (by simp [encodeSlots, encode, List.append_assoc])⟩

theorem readsAs_vdec {widths : Vector Byte 256} {sl : List Slot} {i : Instr} (h : decodeVdec widths sl = .ok i) :
    ReadsAs (.vdec false widths) sl i := by
  obtain ⟨pfx, rest, rfl, ⟨w, -, -, hs, hw⟩ | ⟨rfl, hw⟩⟩ := Machine.decodeVdec_ok h
  · obtain ⟨hwf, hhead, henc⟩ := of_shortLayout hs
    exact ⟨hwf, by simp [Ctx.selects, Ctx.finds, hhead, hw],
      laidOut_of_eq (rest := rest) (by rw [encodeSlots, henc]; rfl)⟩
  · exact ⟨rfl, by simp [Ctx.selects, Ctx.finds, Instr.head, hw], laidOut_of_eq (rest := rest) rfl⟩

/-- A token without bytes is laid out anywhere. -/
theorem laidOut_of_encode_nil {i : Instr} (h : encode i = []) (sl : List Slot) : LaidOut i sl :=
  laidOut_of_eq (rest := sl) (by simp [encodeSlots, h])

/-- Settles O2: context by context, what a decoded token says of the slots. -/
theorem decodedTokenHasItsLayout : Obligations.DecodedTokenHasItsLayout := by
  intro c sl i h
  show ReadsAs c sl i
  cases c with
  | runStart | passEntry => cases h; exact ⟨rfl, rfl, laidOut_of_encode_nil rfl sl⟩
  | chdr => exact readsAs_chdr h
  | phdr => exact readsAs_phdr h
  | rhdr => exact readsAs_rhdr h
  | seq brk => exact readsAs_seq h
  | vhdr => exact readsAs_vhdr h
  | sbr full lookup =>
    cases full with
    | false => exact readsAs_sbr h
    | true => cases h; exact ⟨rfl, rfl, laidOut_of_encode_nil rfl sl⟩
  | vdec full widths =>
    cases full with
    | false => exact readsAs_vdec h
    | true => cases h; exact ⟨rfl, rfl, laidOut_of_encode_nil rfl sl⟩
  | pend last => cases last <;> cases h <;> exact ⟨rfl, rfl, laidOut_of_encode_nil rfl sl⟩

/-! ### Reserved bytes -/

/-- Settles O3: in both headers a `Skip` stands where the reserved bytes are, and it looks at their number alone. -/
theorem reservedBytesAreIgnored : Obligations.ReservedBytesAreIgnored := by
  have hskip : ∀ {n : Nat} {xs ys : List Slot} (rest : List Slot), xs.length = n → ys.length = n →
      skipSlots n (xs ++ rest) = skipSlots n (ys ++ rest) := fun rest hx hy => by
    rw [skipSlots_ok.2 ⟨by simp [hx], (List.drop_left' hx).symm⟩,
      skipSlots_ok.2 ⟨by simp [hy], (List.drop_left' hy).symm⟩]
  refine ⟨fun b xs ys rest hx hy => ?chdr, fun xs ys rest hx hy => ?rhdr, fun b xs hb hlt => ?chdrCut,
    fun xs hlt => ?rhdrCut⟩
  case chdr =>
    cases b with
    | none => rfl
    | some b =>
      simp only [decode, decodeChdr, List.cons_append, takeByte_cons, ok_bind]
      rw [hskip rest hx hy]
  case rhdr => simp only [decode, decodeRhdr, hskip rest hx hy]
  case chdrCut => exact decodeChdr_multi_cut hb hlt
  case rhdrCut => exact decodeRhdr_of_length_lt (Nat.lt_succ_of_lt hlt)

/-- Settles O4: each word is evaluated. -/
theorem specWordsDecode : Obligations.SpecWordsDecode := by
  refine ⟨?_, ?_, ?_, ?_, ?_, ?_, ?_, ?_⟩ <;> decide

end Sys2Proof
end

