-- ==== Sys2Proof/Proofs/Steps.lean ====
section
/-! What a step runs, and what every step keeps: the phases' graph, the input, the source, the output written so far,
and the state before an error (20_memory.md R66, R70, 40_driver.md R129, 60_exceptions.md R212). -/

namespace Sys2Proof.Machine

/-! ### What a step runs -/

theorem exec_runStart_next {s t : State} (h : exec .runStart s = .next t) (hp : t.phase = .chdr) :
    s.host.inLen.toNat ≤ maxInLen ∧ t = s.rewound := by
  have h : execRunStart s = .next t := h
  unfold execRunStart at h
  split at h
  · cases h; cases hp
  · next hle => cases h; exact ⟨Nat.not_lt.1 hle, rfl⟩

/-- Settles O5: the fetch passes the loop heads, and the entry token of CHDR or PHDR leaves the state of the header. -/
theorem stepRunsTheDecodedToken : Obligations.StepRunsTheDecodedToken := by
  refine ⟨fun s c i he hc hseq hsbr hd => ?plain, fun s t i hp hx ht hd => ?chdr, fun s i hp hc hd => ?phdr⟩
  case plain =>
    have hf : fetch s = .instr i := fetch_of_decode_ok hc hseq hsbr hd
    rw [step_of_entryContext_none he, runFetched, hf]
  case chdr =>
    obtain ⟨hle, rfl⟩ := exec_runStart_next hx ht
    exact step_chdr_of_decodeChdr_ok hp hle hd
  case phdr => exact step_phdr_of_decodePhdr_ok hp hc hd

/-- Settles O6: outside BUSY there is no context to fetch in. -/
theorem idleCoreStaysAsItIs : Obligations.IdleCoreStaysAsItIs := by
  intro s hb
  have hctx : s.entryContext = none ∧ s.context = none := by
    unfold State.entryContext State.context
    cases hp : s.phase with
    | idle | done | error => exact ⟨rfl, rfl⟩
    | _ => rw [hp] at hb; cases hb
  have hf : fetch s = .idle := by simp only [fetch, hctx.2]
  rw [step_of_entryContext_none hctx.1, runFetched, hf]

theorem next_ne_refused {s : State} {r : Refusal} : (.next s : Out) ≠ .refused r := nofun

theorem fault_ne_refused {f : Fault} {r : Refusal} : (.fault f : Out) ≠ .refused r := nofun

theorem ite_next_ne_refused {c : Prop} [Decidable c] {s t : State} {r : Refusal} :
    (if c then .next s else .next t : Out) ≠ .refused r := by
  split <;> exact next_ne_refused

/-- Every instruction has its meaning. -/
theorem exec_ne_refused (i : Instr) (s : State) (r : Refusal) : exec i s ≠ .refused r := by
  cases i with
  | runStart | passEntry | phdrRle | phdrVle | rhdrSeq => exact ite_next_ne_refused
  | chdrSingle | chdrMulti | rhdrNoseq | passEnd | passChain | runDone => exact next_ne_refused
  | _ => exact finish_ne_refused

theorem rejected_ne_refused (s : State) (j : Reject) (r : Refusal) : rejected s j ≠ .refused r := by
  cases j with
  | blockCut got hole =>
    simp only [rejected]
    split
    · exact next_ne_refused
    · split
      · exact fault_ne_refused
      · exact next_ne_refused
  | badAlgorithmTag => exact ite_next_ne_refused
  | unwritten => exact fault_ne_refused
  | _ => exact next_ne_refused

theorem runFetched_ne_refused (s t : State) (r : Refusal) : runFetched exec s t ≠ .refused r := by
  unfold runFetched
  cases fetch t with
  | instr i => exact exec_ne_refused i t r
  | reject j => exact rejected_ne_refused s j r
  | _ => exact next_ne_refused

/-- Settles O7: neither the entry token nor what is fetched after it is refused. -/
theorem stepIsNeverRefused : Obligations.StepIsNeverRefused := by
  intro s r
  unfold step stepWith
  split
  · exact runFetched_ne_refused s s r
  split
  · exact rejected_ne_refused s _ r
  split
  · split
    · exact next_ne_refused
    · exact runFetched_ne_refused s _ r
  · exact fault_ne_refused
  · next i _ _ q hq => exact absurd hq (exec_ne_refused i s q)

/-! ### A decoded code: one byte is emitted, and only the read side moves beside it -/

theorem SameButWindow.append {s u : State} (h : SameButWindow s u) (bs : List Byte) :
    SameButWindow (s.append bs) (u.append bs) :=
  ⟨h.cfg, h.src, h.srcLen, h.rdLe, h.rdBound, by simp [h.dest], h.pass, h.rle, h.vle, h.host, by simp [h.dest, h.buf]⟩

theorem SameButWindow.wrCursor {s t : State} (h : SameButWindow s t) : t.wrCursor = s.wrCursor := by
  rw [State.wrCursor, State.wrCursor, h.dest]

/-- `t` is `s` after one code: a byte that fits was emitted, and nothing but the read cursor and the window moved. -/
def DecodesCode (s t : State) : Prop :=
  ∃ b : Byte, s.wrCursor + 1 ≤ s.dest.dstLen ∧ SameButWindow (s.append [b]) t ∧ t.phase = s.phase

theorem decodesCode_of_short {w : Nat} {b : Byte} {s u t : State} (he : emit [b] s = .ok u)
    (ht : if u.dest.wr = u.dest.dstLen then t = u else shiftWindow w u = .ok t) : DecodesCode s t := by
  obtain ⟨hfit, rfl⟩ := emit_ok.1 he
  refine ⟨b, hfit, ?_⟩
  split at ht
  · subst ht; exact ⟨SameButWindow.refl _, rfl⟩
  · exact shiftWindow_same ht

theorem decodesCode_of_long {pfx : Byte} {s u t : State} (he : escapeLoop 9 (enterLong pfx s) = .ok u)
    (ht : if u.dest.wr = u.dest.dstLen then t = u else reloadWindow u = .ok t) : DecodesCode s t := by
  obtain ⟨v, idx, hi, hs, hp, -, hem⟩ := escapeLoop_ok he
  obtain ⟨hfit, rfl⟩ := emit_ok.1 hem
  have hsv : SameButWindow s v := (enterLong_same pfx s).trans hs
  refine ⟨v.vle.alphabet[idx], by rw [← hsv.wrCursor, ← hsv.dest]; exact hfit, ?_⟩
  split at ht
  · subst ht; exact ⟨hsv.append _, hp⟩
  · obtain ⟨hr, hrp⟩ := reloadWindow_same ht
    exact ⟨(hsv.append _).trans hr, hrp.trans hp⟩

/-! ### The control graph -/

theorem edge_of_stepEffect {s t : State} (h : StepEffect s t) : s.phase.edge t.phase = true := by
  cases h with
  | idle h =>
    cases hp : s.phase with
    | idle | done | error => rfl
    | _ => rw [hp] at h; cases h
  | error k hb hp hk =>
    rw [State.raise_phase]
    cases hs : s.phase with
    | pend => exact absurd hs hp
    | idle | done | error => rw [hs] at hb; cases hb
    | _ => rfl
  | container count rd h => rw [enterPasses_phase, h]; rfl
  | passHeader tag size engine h hc hs hrd he =>
    rcases he with ⟨rfl, -⟩ | ⟨rfl, -⟩ <;> rw [h] <;> rfl
  | rleHeader escs h => rw [h]; rfl
  | seqHeader escs h => rw [h]; rfl
  | preEnd h => rw [endPrePass_phase, h]; rfl
  | seqLit b h => rw [State.append_phase, State.advance_phase, h]; rfl
  | seqBlock body rep extra h => rw [State.append_phase, State.append_phase, State.advance_phase, h]; rfl
  | run len n v h => rw [State.append_phase, State.advance_phase, h]; rfl
  | passEnd h => rcases h with h | h <;> rw [h] <;> rfl
  | vleHeader counts alphabet v t h hw hrd hv hi => rw [(initWindow_ok hi).2.1, h]; rfl
  | short w u t h hw hr hx he ht =>
    obtain ⟨b, -, -, hp⟩ := decodesCode_of_short he ht
    rw [hp, h]; rfl
  | long u t h hw he ht =>
    obtain ⟨b, -, -, hp⟩ := decodesCode_of_long he ht
    rw [hp, h]; rfl
  | chain t h hc ht => cases ht; rw [h]; rfl
  | done t h hc ht => cases ht; rw [h]; rfl

/-- The read cursor moves forward, or is set to 0; in CHDR it stands at 0. -/
theorem rd_of_stepEffect {s t : State} (hs : s.Sound) (h : StepEffect s t) :
    s.cur.rd ≤ t.cur.rd ∨ t.cur.rd = 0 := by
  cases h with
  | idle | error => exact .inl (Nat.le_refl _)
  | container count rd h => exact .inl (by rw [(hs.cursors.chdrStart h).1]; exact Nat.zero_le _)
  | passHeader | rleHeader | seqHeader | seqLit | seqBlock | run => exact .inl (Nat.le_add_right _ _)
  | preEnd => exact .inr rfl
  | passEnd => exact .inl (Nat.le_refl _)
  | vleHeader counts alphabet v t h hw hrd hv hi =>
    have hle := (initWindow_ok hi).1.rdLe
    exact .inl (by simp only at hle; omega)
  | short w u t h hw hr hx he ht =>
    obtain ⟨b, -, hsame, -⟩ := decodesCode_of_short he ht
    exact .inl hsame.rdLe
  | long u t h hw he ht =>
    obtain ⟨b, -, hsame, -⟩ := decodesCode_of_long he ht
    exact .inl hsame.rdLe
  | chain t h hc ht => cases ht; exact .inr rfl
  | done t h hc ht => cases ht; exact .inl (Nat.le_refl _)

/-- Settles O8: the two facts of every effect, and START's edge. -/
theorem controlTransfersAreTheGraph : Obligations.ControlTransfersAreTheGraph := by
  refine ⟨fun s t h => edge_of_stepEffect (step_effect h), fun s t hs h => rd_of_stepEffect hs (step_effect h),
    fun s v => ?start⟩
  case start =>
    have hb := s.phase.busy_iff
    unfold State.writeCtrl
    by_cases hc : v.getLsbD 0 = true ∧ s.phase.busy = false
    · rw [if_pos (by simp [hc]), if_pos ⟨hc.1, by grind⟩, State.startRun_phase]
    · rw [if_neg (by simpa using hc), if_neg (by grind)]

/-! ### What every step keeps -/

theorem keeps_of_sameButWindow {s t : State} {bs : List Byte} (h : SameButWindow (s.append bs) t) :
    t.buf.inMem = s.buf.inMem ∧ t.host.inLen = s.host.inLen ∧ t.cfg = s.cfg := by
  simp [h.buf, h.host, h.cfg]

/-- Settles O9: no effect names `IN_MEM`, `IN_LEN` or the configuration. -/
theorem stepKeepsInputAndConfig : Obligations.StepKeepsInputAndConfig := by
  intro s t hst
  cases step_effect hst with
  | idle | error | container | passHeader | rleHeader | seqHeader | preEnd | passEnd => exact ⟨rfl, rfl, rfl⟩
  | seqLit | seqBlock | run => simp
  | vleHeader counts alphabet v t h hw hrd hv hi =>
    have hsame := (initWindow_ok hi).1
    exact ⟨by rw [hsame.buf], by rw [hsame.host], hsame.cfg⟩
  | short w u t h hw hr hx he ht =>
    obtain ⟨b, -, hsame, -⟩ := decodesCode_of_short he ht
    exact keeps_of_sameButWindow hsame
  | long u t h hw he ht =>
    obtain ⟨b, -, hsame, -⟩ := decodesCode_of_long he ht
    exact keeps_of_sameButWindow hsame
  | chain t h hc ht => cases ht; exact ⟨rfl, rfl, rfl⟩
  | done t h hc ht => cases ht; exact ⟨rfl, rfl, rfl⟩

/-! No source is OUT, and TMP is a source outside the pre-pass alone. -/

theorem srcMem_append_of_out {s : State} (h : s.dest.dst = .out) (bs : List Byte) :
    (s.append bs).srcMem = s.srcMem := by
  simp [State.srcMem, Buffers.wrote_out _ _ _ h]

theorem srcMem_append_of_src {s : State} (h : s.cur.src ≠ .tmp) (bs : List Byte) :
    (s.append bs).srcMem = s.srcMem := by
  cases hsrc : s.cur.src with
  | tmp => exact absurd hsrc h
  | inMem | prevOut => simp [State.srcMem, hsrc]

theorem State.Sound.src_ne_tmp {s : State} (hs : s.Sound) (hb : s.phase.busy = true) (h1 : s.phase ≠ .sbr)
    (h2 : s.phase ≠ .pend) : s.cur.src ≠ .tmp :=
  fun h => (hs.cursors.tmpSrc hb h).elim h1 h2

theorem State.Sound.dst_out {s : State} (hs : s.Sound) (hp : s.phase.inPass = true) (hseq : s.phase ≠ .seq) :
    s.dest.dst = .out :=
  hs.cursors.passDst hp hseq

/-- Settles O10: the destination is never the source, and the effects that empty TMP do not read it. -/
theorem sourceIsNeverWritten : Obligations.SourceIsNeverWritten := by
  intro s t hs hst hpend herr htmp hsrc a
  cases step_effect hst with
  | idle => rfl
  | error => exact absurd rfl herr
  | container count rd h =>
    have hin := (hs.cursors.chdrStart h).2
    simp [State.srcMem, hin]
  | passHeader => rfl
  | rleHeader => rfl
  | seqHeader escs h =>
    have hne := hs.src_ne_tmp (by rw [h]; rfl) (by simp [h]) (by simp [h])
    cases hsrc : s.cur.src with
    | tmp => exact absurd hsrc hne
    | inMem | prevOut => simp [State.srcMem, hsrc]
  | preEnd =>
    have htmp : s.cur.src = .tmp := hsrc.symm
    simp [State.srcMem, htmp]
  | seqLit b h =>
    have hne := hs.src_ne_tmp (by rw [h]; rfl) (by simp [h]) (by simp [h])
    rw [srcMem_append_of_src (s := s.advance 1) hne, State.advance_srcMem]
  | seqBlock body rep extra h =>
    have hne := hs.src_ne_tmp (by rw [h]; rfl) (by simp [h]) (by simp [h])
    rw [srcMem_append_of_src (s := (s.atBlock body.length rep).append body) hne,
      srcMem_append_of_src (s := s.atBlock body.length rep) hne]
    rfl
  | run len n v h =>
    have hout := hs.dst_out (by rw [h]; rfl) (by simp [h])
    rw [srcMem_append_of_out (s := s.advance len) hout, State.advance_srcMem]
  | passEnd =>
    cases hsrc : s.cur.src with
    | tmp => exact absurd ⟨rfl, hsrc⟩ htmp
    | inMem | prevOut => simp [State.srcMem, hsrc]
  | vleHeader counts alphabet v t h hw hrd hv hi =>
    rw [(initWindow_ok hi).1.srcMem]
    rfl
  | short w u t h hw hr hx he ht =>
    obtain ⟨b, -, hsame, -⟩ := decodesCode_of_short he ht
    rw [hsame.srcMem, srcMem_append_of_out (hs.dst_out (by rw [h]; rfl) (by simp [h]))]
  | long u t h hw he ht =>
    obtain ⟨b, -, hsame, -⟩ := decodesCode_of_long he ht
    rw [hsame.srcMem, srcMem_append_of_out (hs.dst_out (by rw [h]; rfl) (by simp [h]))]
  | chain t h hc ht => exact absurd h hpend
  | done t h hc ht => exact absurd h hpend

/-- Appending moves OUT's cursor forward or not at all, and leaves what is below it. -/
theorem out_append (s : State) (bs : List Byte) :
    s.dest.wr ≤ (s.append bs).dest.wr ∧ ∀ a < s.dest.wr, (s.append bs).buf.out.read a = s.buf.out.read a := by
  cases h : s.dest.dst with
  | out =>
    simp only [State.append_dest, State.append_buf, Dest.wrote_out _ _ h, Buffers.wrote_out _ _ _ h]
    exact ⟨Nat.le_add_right _ _, fun a ha => Memory.read_store_outside _ _ _ _ (.inl ha)⟩
  | tmp =>
    simp [Dest.wrote_tmp _ _ h, Buffers.wrote_tmp _ _ _ h]

theorem out_of_sameButWindow {s t : State} {bs : List Byte} (h : SameButWindow (s.append bs) t) :
    s.dest.wr ≤ t.dest.wr ∧ ∀ a < s.dest.wr, t.buf.out.read a = s.buf.out.read a := by
  rw [h.dest, h.buf]
  exact out_append s bs

/-- Settles O11: inside a pass OUT is only ever appended to. -/
theorem outputIsWrittenOnce : Obligations.OutputIsWrittenOnce := by
  intro s t hst hs ht
  cases step_effect hst with
  | idle | rleHeader | seqHeader | preEnd | passEnd => exact ⟨Nat.le_refl _, fun _ _ => rfl⟩
  | error => cases ht
  | container count rd h => rw [h] at hs; cases hs
  | passHeader tag size engine h => rw [h] at hs; cases hs
  | seqLit | run => exact out_append _ _
  | seqBlock body rep extra =>
    obtain ⟨h1, h2⟩ := out_append (s.atBlock body.length rep) body
    obtain ⟨h3, h4⟩ := out_append ((s.atBlock body.length rep).append body) (List.replicate extra body).flatten
    exact ⟨Nat.le_trans h1 h3, fun a ha => (h4 a (Nat.lt_of_lt_of_le ha h1)).trans (h2 a ha)⟩
  | vleHeader counts alphabet v t h hw hrd hv hi =>
    have hsame := (initWindow_ok hi).1
    exact ⟨by rw [hsame.dest], fun a _ => by rw [hsame.buf]⟩
  | short w u t h hw hr hx he ht =>
    obtain ⟨b, -, hsame, -⟩ := decodesCode_of_short he ht
    exact out_of_sameButWindow hsame
  | long u t h hw he ht =>
    obtain ⟨b, -, hsame, -⟩ := decodesCode_of_long he ht
    exact out_of_sameButWindow hsame
  | chain t h hc ht' => cases ht'; cases ht
  | done t h hc ht' => cases ht'; cases ht

/-! ### Errors -/

/-- ERROR is entered by a raise alone. -/
theorem raise_of_stepEffect {s t : State} (h : StepEffect s t) (hs : s.phase ≠ .error) (ht : t.phase = .error) :
    ∃ k, k ≠ .none ∧ t = s.raise k := by
  cases h with
  | idle => exact absurd ht hs
  | error k hb hp hk => exact ⟨k, hk, rfl⟩
  | passHeader tag size engine h hc hsz hrd he => rcases he with ⟨rfl, -⟩ | ⟨rfl, -⟩ <;> cases ht
  | container | rleHeader | seqHeader | preEnd | passEnd => cases ht
  | seqLit b h => rw [State.append_phase, State.advance_phase, h] at ht; cases ht
  | seqBlock body rep extra h => rw [State.append_phase, State.append_phase, State.advance_phase, h] at ht; cases ht
  | run len n v h => rw [State.append_phase, State.advance_phase, h] at ht; cases ht
  | vleHeader counts alphabet v t h hw hrd hv hi => rw [(initWindow_ok hi).2.1] at ht; cases ht
  | short w u t h hw hr hx he htt =>
    obtain ⟨b, -, -, hp⟩ := decodesCode_of_short he htt
    rw [hp, h] at ht; cases ht
  | long u t h hw he htt =>
    obtain ⟨b, -, -, hp⟩ := decodesCode_of_long he htt
    rw [hp, h] at ht; cases ht
  | chain t h hc htt => cases htt; cases ht
  | done t h hc htt => cases htt; cases ht

/-- Settles O16: the one effect that enters ERROR is a raise, whose fields these are. -/
theorem errorEntryIsPrecise : Obligations.ErrorEntryIsPrecise := by
  intro s t h hs ht
  obtain ⟨k, hk, rfl⟩ := raise_of_stepEffect (step_effect h) hs ht
  exact ⟨k, hk, rfl⟩

/-- Settles O17: the table, and its injectivity over the twelve kinds. -/
theorem errorCodesAreDistinct : Obligations.ErrorCodesAreDistinct := by
  refine ⟨fun k l h => ?inj, fun k => ?bound, rfl, rfl, rfl, rfl, rfl, rfl, rfl, rfl, rfl, rfl, rfl, rfl⟩
  case inj => revert h; cases k <;> cases l <;> decide
  case bound => cases k <;> decide

/-- Settles O18: a raise discards the buffers, and RESULT is readable in DONE alone. -/
theorem noOutputAfterError : Obligations.NoOutputAfterError := by
  refine ⟨fun s t h hs ht => ?entry, fun s pos hp => readResult_of_not_done (by simp [hp]) pos⟩
  case entry =>
    obtain ⟨k, -, rfl⟩ := raise_of_stepEffect (step_effect h) hs ht
    exact ⟨rfl, rfl, (by decide : Phase.error.status = 4), fun a => ⟨rfl, rfl, rfl⟩⟩

/-! ### The pass driver -/

/-- Settles O12: each token's rule, its guard decided. -/
theorem driverTokensComplete : Obligations.DriverTokensComplete := by
  refine ⟨fun s h => if_neg (Nat.not_lt.2 h), fun s b => rfl, fun s pc => rfl, fun s h => if_neg h,
    fun s size tag i engine hi hsize => ?header, fun s => rfl, fun s => rfl, fun s => rfl⟩
  case header =>
    rcases hi with ⟨rfl, rfl, rfl⟩ | ⟨rfl, rfl, rfl⟩
    · exact if_neg (Nat.not_lt.2 hsize)
    · exact if_neg (Nat.not_lt.2 hsize)

theorem step_pend {s : State} (hp : s.phase = .pend) {last : Bool}
    (hl : decide (s.pass.passIndex + 1 = s.pass.passCount) = last) :
    step s = exec (if last then .runDone else .passChain) s :=
  (step_of_entryContext_none (by simp [State.entryContext, hp])).trans
    (runFetched_of_decode_ok (c := .pend last) (by simp [State.context, hp, hl]) (by simp [hp]) s rfl)

/-- Settles O15: the context of PEND is the comparison of the pass counters. -/
theorem passEndChainsOrFinishes : Obligations.PassEndChainsOrFinishes := by
  intro s hp
  exact ⟨fun hlt => step_pend hp (last := false) (decide_eq_false (Nat.ne_of_lt hlt)),
    fun heq => step_pend hp (last := true) (decide_eq_true heq)⟩

/-! ### The host interface -/

/-- Settles O52: bit 0 is set and the core is not busy. -/
theorem startBeginsARun : Obligations.StartBeginsARun := by
  intro s v hv hb
  have hw : s.writeCtrl v = s.startRun := if_pos (by simp [hv, hb])
  rw [hostStep_writeReg_ctrl, hw]
  rfl

/-- A narrow register shows its value in 32 bits. -/
theorem setWidth_ofNat_of_lt {w n : Nat} (hw : w ≤ 32) (h : n < 2 ^ w) :
    (BitVec.ofNat w n).setWidth 32 = BitVec.ofNat 32 n := by
  have h32 : n < 2 ^ 32 := Nat.lt_of_lt_of_le h (Nat.pow_le_pow_right (by decide) hw)
  refine BitVec.eq_of_toNat_eq ?_
  rw [BitVec.toNat_setWidth_of_le hw, BitVec.toNat_ofNat, BitVec.toNat_ofNat, Nat.mod_eq_of_lt h, Nat.mod_eq_of_lt h32]

/-- From offset 0x20 on the block has reserved registers alone. -/
theorem HostReg.at_reserved {n : Nat} (h : 8 ≤ n) : HostReg.at (4 * n) = some .reserved := by
  obtain ⟨m, rfl⟩ := Nat.exists_eq_add_of_le h
  unfold HostReg.at
  split
  case h_9 => simp
  all_goals omega

/-- Of the registers of the block, CTRL at offset 0 and IN_LEN at offset 0x10 alone take a write. -/
theorem writeReg_ignored {n : Nat} (h0 : n ≠ 0) (h4 : n ≠ 4) (v : BitVec 32) (s : State) :
    writeReg (4 * n) v s = .next s := by
  by_cases h8 : 8 ≤ n
  · rw [writeReg, HostReg.at_reserved h8]
  · have hn : n = 1 ∨ n = 2 ∨ n = 3 ∨ n = 5 ∨ n = 6 ∨ n = 7 := by omega
    rcases hn with rfl | rfl | rfl | rfl | rfl | rfl <;> rfl

/-- Settles O54: each offset names its register, whose value its width holds. -/
theorem registerMapReadsAndWrites : Obligations.RegisterMapReadsAndWrites := by
  intro s
  refine ⟨rfl, rfl, rfl, fun h => ?_, rfl, fun h => ?_, fun h => ?_, fun h => ?_, fun n h => ?reserved,
    fun n v h0 h4 => writeReg_ignored h0 h4 v s⟩
  case reserved => rw [readReg, HostReg.at_reserved h]; rfl
  all_goals exact congrArg Except.ok (setWidth_ofNat_of_lt (by decide) (Nat.lt_succ_of_le h))

/-- Settles O56: a write of one byte is a store of one byte; the other clauses are the guards. -/
theorem inputLoadingWrites : Obligations.InputLoadingWrites := by
  refine ⟨fun s pos b hb hpos => ?write, fun s pos b hb => if_pos hb, fun s pos b hb hpos => ?beyond,
    fun s v hb => ?lenBusy, fun s v hb => ?len⟩
  case write =>
    refine ⟨{ s with buf.inMem := s.buf.inMem.store pos [b] }, ?_, rfl, fun a => ?_⟩
    · simp only [hostStep, writeInput, hb, Bool.false_eq_true, if_false, maxInLen, if_pos hpos]
    · exact Memory.read_store_singleton _ _ _ _
  case beyond =>
    simp only [hostStep, writeInput, hb, Bool.false_eq_true, if_false, maxInLen, if_neg (Nat.not_lt.2 hpos)]
  case lenBusy => exact congrArg Host.Outcome.next (if_pos hb)
  case len => exact congrArg Host.Outcome.next (if_neg (by simp [hb]))

end Sys2Proof.Machine
end

