-- ==== Sys2Proof/Proofs/RleEffects.lean ====
section
/-! The RLE engine's headers and its escape table, the sequence blocks with their copies and their errors, and the
bracket that never reaches the single-byte-run phase (41_rle.md R135–R142, R150–R154). -/

namespace Sys2Proof

/-! ### The escape table -/

theorem getElem_populate_of_not_mem {escs : List Byte} {b : Byte} (h : b ∉ escs) (i : Nat) (v : Vector (Fin 11) 256) :
    (populate i escs v)[b.toNat]'b.isLt = v[b.toNat]'b.isLt := by
  induction escs generalizing i v with
  | nil => rfl
  | cons e es ih =>
    simp only [List.mem_cons, not_or] at h
    have hne : e.toNat ≠ b.toNat := fun he => h.1 (BitVec.eq_of_toNat_eq he.symm)
    rw [populate, ih h.2, Vector.getElem_set_ne _ _ hne]

/-- The index `j` is the last at which `b` stands. -/
def IsLastIndex (escs : List Byte) (b : Byte) (j : Nat) : Prop :=
  escs[j]? = some b ∧ ∀ k, j < k → escs[k]? ≠ some b

theorem exists_isLastIndex {escs : List Byte} {b : Byte} (h : b ∈ escs) : ∃ j, IsLastIndex escs b j := by
  induction escs with
  | nil => cases h
  | cons e es ih =>
    by_cases hes : b ∈ es
    · obtain ⟨j, hj, hlast⟩ := ih hes
      refine ⟨j + 1, hj, fun k hk => ?_⟩
      obtain ⟨k, rfl⟩ := Nat.exists_eq_add_one.2 (Nat.zero_lt_of_lt hk)
      exact hlast k (Nat.lt_of_succ_lt_succ hk)
    · obtain rfl : b = e := (List.mem_cons.1 h).resolve_right hes
      refine ⟨0, rfl, fun k hk hget => hes ?_⟩
      obtain ⟨k, rfl⟩ := Nat.exists_eq_add_one.2 hk
      exact List.mem_of_getElem? hget

/-- The write at the last index of a byte is the one that stays. -/
theorem getElem_populate_of_isLastIndex {escs : List Byte} {b : Byte} {j : Nat} (h : IsLastIndex escs b j) {i : Nat}
    (hi : i + escs.length ≤ 10) (v : Vector (Fin 11) 256) :
    ((populate i escs v)[b.toNat]'b.isLt).val = i + j + 1 := by
  obtain ⟨hget, hlast⟩ := h
  induction escs generalizing i j v with
  | nil => cases hget
  | cons e es ih =>
    rw [List.length_cons] at hi
    cases j with
    | zero =>
      obtain rfl : e = b := Option.some.inj hget
      have hes : e ∉ es := fun hmem => by
        obtain ⟨k, hk⟩ := List.mem_iff_getElem?.1 hmem
        exact hlast (k + 1) (Nat.succ_pos k) hk
      rw [populate, getElem_populate_of_not_mem hes, Vector.getElem_set_self]
      exact Nat.mod_eq_of_lt (by omega)
    | succ j =>
      rw [populate, ih (i := i + 1) (j := j) (by omega) _ hget fun k hk => hlast (k + 1) (Nat.succ_lt_succ hk)]
      omega

/-- Settles O20: a byte's entry is the start value 0, or what the write at its last index left. -/
theorem escapeLookupIsTheLastIndex : Obligations.EscapeLookupIsTheLastIndex := by
  intro escs b hlen
  have hzero : b ∉ escs → ((buildLookup escs)[b.toNat]'b.isLt).val = 0 := fun h => by
    rw [buildLookup, getElem_populate_of_not_mem h, Vector.getElem_replicate]
    rfl
  have hlast : ∀ j, IsLastIndex escs b j → ((buildLookup escs)[b.toNat]'b.isLt).val = j + 1 := fun j hj => by
    rw [buildLookup, getElem_populate_of_isLastIndex hj (by omega), Nat.zero_add]
  refine ⟨⟨fun h0 hmem => ?entry, hzero⟩, fun i _ => ⟨fun hi => ?index, fun hi => hlast i hi⟩⟩
  case entry =>
    obtain ⟨j, hj⟩ := exists_isLastIndex hmem
    rw [hlast j hj] at h0
    cases h0
  case index =>
    by_cases hmem : b ∈ escs
    · obtain ⟨j, hj⟩ := exists_isLastIndex hmem
      obtain rfl : j = i := Nat.succ.inj ((hlast j hj).symm.trans hi)
      exact hj
    · rw [hzero hmem] at hi
      cases hi

/-! ### A cut block -/

theorem takeBody_cut {brk : Byte} {body : List Byte} (h : brk ∉ body) (got : Nat) :
    takeBody brk got (body.map some) = .error (.blockCut (got + body.length) false) := by
  induction body generalizing got with
  | nil => rfl
  | cons c body ih =>
    simp only [List.mem_cons, not_or] at h
    have hc : c ≠ brk := Ne.symm h.1
    simp only [List.map_cons, takeBody, if_neg hc, ih h.2, List.length_cons]
    exact congrArg (fun n => Except.error (Reject.blockCut n false)) (by omega)

/-- A block that ends after its body bytes, or after the closing bracket. -/
theorem decodeSeq_cut {brk : Byte} {body : List Byte} (h : brk ∉ body) (closed : Bool) :
    decodeSeq brk ((brk :: body ++ if closed then [brk] else []).map some) =
      .error (.blockCut body.length false) := by
  cases closed with
  | false => simp [decodeSeq, takeBody_cut h, bind, Except.bind]
  | true =>
    have hbody : takeBody brk 0 (body.map some ++ [some brk]) = .ok (body, []) := takeBody_ok.2 ⟨h, rfl⟩
    simp [decodeSeq, hbody, takeRep, bind, Except.bind]

/-! ### Copies -/

theorem length_flatten_replicate {α : Type} (n : Nat) (xs : List α) :
    (List.replicate n xs).flatten.length = n * xs.length := by
  rw [List.length_flatten, List.map_replicate, List.sum_replicate, smul_eq_mul]

theorem getElem?_flatten_replicate {α : Type} (xs : List α) {n i : Nat} (h : i < n * xs.length) :
    (List.replicate n xs).flatten[i]? = xs[i % xs.length]? := by
  induction n generalizing i with
  | zero => omega
  | succ n ih =>
    rw [List.replicate_succ, List.flatten_cons]
    by_cases hi : i < xs.length
    · rw [List.getElem?_append_left hi, Nat.mod_eq_of_lt hi]
    · have hle : xs.length ≤ i := Nat.not_lt.1 hi
      rw [Nat.succ_mul] at h
      rw [List.getElem?_append_right hle, ih (by omega), Nat.mod_eq_sub_mod hle]

end Sys2Proof

namespace Sys2Proof.Machine

/-! ### The headers -/

theorem mkByte_count_toNat {noSeq : Bool} {n : Nat} (h : n ≤ 10) :
    (mkByte noSeq (BitVec.ofNat 7 n)).toNat = (if noSeq then 0x80 else 0) + n := by
  have hn : (BitVec.ofNat 7 n).toNat = n := by rw [BitVec.toNat_ofNat, Nat.mod_eq_of_lt (by omega)]
  cases noSeq with
  | true => rw [mkByte_true_toNat, hn]; rfl
  | false => rw [mkByte_false_toNat, hn]; simp

/-- Settles O19: each header's rule, with the escape table of `withEscapes`. -/
theorem rleHeadersComplete : Obligations.RleHeadersComplete := by
  intro s escs hlen
  refine ⟨⟨_, rfl, ?noseqFrame, mkByte_count_toNat hlen, rfl, rfl, fun j h => getElem_overlay _ _ j h, rfl, rfl, rfl,
    rfl⟩, fun h2 hcap => ⟨_, if_neg (Nat.not_lt.2 hcap), ?seqFrame, (mkByte_count_toNat hlen).trans (Nat.zero_add _), rfl,
    rfl, fun j h => getElem_overlay _ _ j h, rfl, ?bracket, rfl, rfl⟩⟩
  case noseqFrame => simp [State.advance, Nat.add_assoc]
  case seqFrame => simp [State.advance, Nat.add_assoc]
  case bracket => simp [RleRegs.withEscapes, List.getElem?_eq_getElem h2]

/-! ### Sequence blocks -/

/-- `totalCopies` counts the first copy too. -/
theorem extraCopies_of_totalCopies {z : SeqRepZero} {rep : Byte} {copies : Nat} (h : totalCopies z rep = some copies) :
    ∃ extra, extraCopies z rep = .ok extra ∧ copies = extra + 1 := by
  unfold totalCopies at h
  unfold extraCopies
  by_cases hr : rep = 0
  · rw [if_pos hr] at h ⊢
    cases z <;> cases h
    · exact ⟨0, rfl, rfl⟩
    · exact ⟨255, rfl, rfl⟩
  · rw [if_neg hr] at h ⊢
    have hpos : rep.toNat ≠ 0 := fun h0 => hr (BitVec.eq_of_toNat_eq h0)
    cases h
    exact ⟨rep.toNat - 1, rfl, by omega⟩

theorem extraCopies_of_totalCopies_none {z : SeqRepZero} {rep : Byte} (h : totalCopies z rep = none) :
    extraCopies z rep = .error (.raise .badSequenceRepeat) := by
  unfold totalCopies at h
  unfold extraCopies
  by_cases hr : rep = 0
  · rw [if_pos hr] at h ⊢
    cases z <;> cases h
    rfl
  · rw [if_neg hr] at h
    cases h

section
variable {s : State} (hdst : s.dest.dst = .tmp) (brk rep : Byte) (body : List Byte)
include hdst

/-- A block whose body fits goes on to judge the repeat byte (41_rle.md R150, R151). -/
theorem exec_seqBlock_of_fits (hfit : s.dest.tmpWr + body.length ≤ s.dest.dstLen) :
    exec (.seqBlock brk body rep) s = finish s (extraCopies s.cfg.seqRepZero rep >>= fun extra =>
      emit (List.replicate extra body).flatten ((s.atBlock body.length rep).append body)) := by
  have he : emit body (s.atBlock body.length rep) = .ok ((s.atBlock body.length rep).append body) :=
    emit_ok.2 ⟨by rw [State.wrCursor_tmp (s := s.atBlock body.length rep) hdst]; exact hfit, rfl⟩
  show finish s (emit body (s.atBlock body.length rep) >>= _) = _
  rw [he, ok_bind]

theorem exec_seqBlock_of_overflow (hover : s.dest.dstLen < s.dest.tmpWr + body.length) :
    exec (.seqBlock brk body rep) s = .next (s.raise .overflowOutput) := by
  have he : emit body (s.atBlock body.length rep) = .error (.raise .overflowOutput) :=
    emit_error.2 ⟨by rw [State.wrCursor_tmp (s := s.atBlock body.length rep) hdst]; exact hover, rfl⟩
  show finish s (emit body (s.atBlock body.length rep) >>= _) = _
  rw [he]
  rfl

theorem wrCursor_after_body :
    ((s.atBlock body.length rep).append body).wrCursor = s.dest.tmpWr + body.length := by
  rw [State.append_wrCursor, State.wrCursor_tmp (s := s.atBlock body.length rep) hdst]
  rfl

end

/-- A body and its further copies lie one after the other. -/
theorem read_store_copies (m : Memory) (p extra : Nat) (body : List Byte) (a : Nat) :
    ((m.store p body).store (p + body.length) (List.replicate extra body).flatten).read a =
      if p ≤ a ∧ a < p + (extra + 1) * body.length then body[(a - p) % body.length]? else m.read a := by
  rw [Memory.read_store, Memory.read_store, length_flatten_replicate, Nat.succ_mul]
  by_cases hbody : p ≤ a ∧ a < p + body.length
  · rw [if_neg (by omega), if_pos hbody, if_pos (by omega), Nat.mod_eq_of_lt (by omega)]
  by_cases hcopy : p + body.length ≤ a ∧ a < p + body.length + extra * body.length
  · have hle : body.length ≤ a - p := by omega
    rw [if_pos hcopy, if_pos (by omega), getElem?_flatten_replicate body (by omega), Nat.mod_eq_sub_mod hle,
      Nat.sub_sub]
  · rw [if_neg hcopy, if_neg hbody, if_neg (by omega)]

/-- Settles O26: the body and its copies are two stores, one after the other. -/
theorem sequenceBlocksComplete : Obligations.SequenceBlocksComplete := by
  intro s brk rep body copies hdst htotal hfit
  obtain ⟨extra, hextra, rfl⟩ := extraCopies_of_totalCopies htotal
  have hlen : (extra + 1) * body.length = body.length + extra * body.length := by rw [Nat.succ_mul, Nat.add_comm]
  rw [hlen] at hfit
  have he : emit (List.replicate extra body).flatten ((s.atBlock body.length rep).append body) =
      .ok (((s.atBlock body.length rep).append body).append (List.replicate extra body).flatten) := by
    refine emit_ok.2 ⟨?_, rfl⟩
    rw [wrCursor_after_body hdst, length_flatten_replicate, State.append_dest, Dest.wrote_dstLen]
    simpa [Nat.add_assoc] using hfit
  refine ⟨((s.atBlock body.length rep).append body).append (List.replicate extra body).flatten, ?run, ?frame, rfl, rfl,
    (Nat.add_assoc _ _ _).symm, ?wr, ?tmpWr, ?out, fun a => ?tmp⟩
  case run => rw [exec_seqBlock_of_fits hdst brk rep body (by omega), hextra, ok_bind, he, finish_ok]
  case frame => constructor <;> simp
  case wr => simp [Dest.wrote, hdst]
  case tmpWr => simp [Dest.wrote, hdst, hlen, Nat.add_assoc]
  case out => simp [Buffers.wrote, Dest.wrote, hdst]
  case tmp =>
    rw [← read_store_copies]
    simp [Buffers.wrote, Dest.wrote, hdst]

/-- Settles O27: the body is emitted, the repeat byte is judged, the copies are emitted, in this order. -/
theorem sequenceBlockErrors : Obligations.SequenceBlockErrors := by
  intro s brk rep body hdst
  refine ⟨exec_seqBlock_of_overflow hdst brk rep body, fun hfit hnone => ?zero, fun copies hfit htotal hover => ?copies⟩
  case zero =>
    rw [exec_seqBlock_of_fits hdst brk rep body hfit, extraCopies_of_totalCopies_none hnone]
    rfl
  case copies =>
    obtain ⟨extra, hextra, rfl⟩ := extraCopies_of_totalCopies htotal
    have he : emit (List.replicate extra body).flatten ((s.atBlock body.length rep).append body) =
        .error (.raise .overflowOutput) := by
      refine emit_error.2 ⟨?_, rfl⟩
      rw [wrCursor_after_body hdst, length_flatten_replicate, State.append_dest, Dest.wrote_dstLen]
      rw [Nat.succ_mul] at hover
      simp only [State.advance_dest]
      omega
    rw [exec_seqBlock_of_fits hdst brk rep body hfit, hextra, ok_bind, he, finish_raise]

theorem step_seq_of_decodeSeq_error {s : State} (hp : s.phase = .seq) (hsl : s.srcSlots ≠ []) {r : Reject}
    (hd : decodeSeq s.rle.bracket s.srcSlots = .error r) : step s = rejected s r := by
  have hf : fetch s = .reject r :=
    fetch_of_decode_error (c := .seq s.rle.bracket) (by simp [State.context, hp])
      (by simp [State.rd_ne_srcLen_of_srcSlots_ne_nil hsl]) (by simp [hp])
      (by simpa [State.tokenSlots, hp, decode] using hd)
  rw [step_seq hp, runFetched, hf]

/-- Settles O28: the decoder reports how many body bytes it met, and the reject compares them with the room in TMP. -/
theorem cutBlockReportsTheFirstFailure : Obligations.CutBlockReportsTheFirstFailure := by
  intro s body closed hp hdst hbody hsl
  rw [step_seq_of_decodeSeq_error hp (by simp [hsl]) (hsl ▸ decodeSeq_cut hbody closed)]
  simp only [rejected, State.wrCursor_tmp hdst, Bool.false_eq_true, if_false]
  split <;> rfl

/-! ### The bracket -/

/-- What the single-byte-run phase fetches was decoded from the source. -/
theorem decodeSbr_of_fetch {s : State} {i : Instr} (hp : s.phase = .sbr) (hi : encode i ≠ [])
    (hf : fetch s = .instr i) : decodeSbr s.rle.escLookup s.srcSlots = .ok i := by
  unfold fetch at hf
  simp only [State.context, State.tokenSlots, hp, decode, reduceCtorEq, false_and, if_false, decide_eq_true_eq] at hf
  split at hf
  · cases hf
  split at hf
  · next hd =>
    cases hf
    split at hd
    · cases hd; exact absurd rfl hi
    · exact hd
  · cases hf

/-- Settles O29: such a token's first byte would be the bracket, which TMP never holds. -/
theorem noBracketReachesSingleRuns : Obligations.NoBracketReachesSingleRuns := by
  intro s esc v hs hp hsrc hf
  obtain ⟨-, hsel, hlen, hlaid⟩ := readsAs_sbr (decodeSbr_of_fetch hp (by simp [encode]) hf)
  have hk : (s.rle.escLookup[esc.toNat]'esc.isLt).val = 2 := by
    simpa [Ctx.selects, Ctx.finds, Instr.head] using hsel
  obtain ⟨hbrk, hnone⟩ := hs.rle.seqBracket (.inr ⟨hp, hsrc⟩)
  have hesc : esc = s.rle.bracket := (hs.rle.selectorTwo (.inr hp) esc hk).trans hbrk.symm
  have hlt : s.cur.rd + 0 < s.cur.srcLen := by
    rw [State.length_srcSlots] at hlen
    have : 0 < (encode (.rleIrunK2 esc v)).length := by simp [encode]
    omega
  have hget := hlaid 0 (by simp [encode]) rfl
  rw [State.getElem?_srcSlots s 0 hlt] at hget
  refine hnone (s.cur.rd + 0) ?_
  have hmem : s.srcMem = s.buf.tmp := by simp [State.srcMem, hsrc]
  rw [← hmem, ← hesc]
  exact Option.some.inj hget

end Sys2Proof.Machine
end

