-- ==== Sys2Proof/Proofs/VleTables.lean ====
section
/-! The tables of a VLE header: the count recurrence and its ranges, the direct table, and the index a long code
selects (42_vle.md R172–R181, R194). -/

namespace Sys2Proof.Machine

/-! ### The canonical code's numbers -/

/-- The first value past the codes of width `n`, as a code of that width; 0 for width 0. It is what `width_sum` holds
once `n` counts are read. -/
def codesPast (counts : List Byte) : Nat → Nat
  | 0 => 0
  | i + 1 => firstCode counts i + countAt counts i

theorem codesPast_succ (counts : List Byte) (i : Nat) :
    codesPast counts (i + 1) = firstCode counts i + countAt counts i := rfl

theorem firstCode_eq (counts : List Byte) (n : Nat) : firstCode counts n = 2 * codesPast counts n := by
  cases n <;> rfl

theorem countAt_eq {counts : List Byte} {n : Nat} {c : Byte} (h : counts[n]? = some c) : countAt counts n = c.toNat := by
  rw [countAt, h, Option.getD_some]

theorem countAt_le (counts : List Byte) (n : Nat) : countAt counts n ≤ 255 :=
  Nat.le_of_lt_succ (BitVec.isLt _)

theorem symbolsBefore_zero (counts : List Byte) : symbolsBefore counts 0 = 0 := rfl

theorem symbolsBefore_succ (counts : List Byte) (n : Nat) :
    symbolsBefore counts (n + 1) = symbolsBefore counts n + countAt counts n := by
  rw [symbolsBefore, symbolsBefore, List.take_add_one, countSum, countSum, List.map_append, List.sum_append, countAt]
  cases counts[n]? <;> rfl

theorem symbolsBefore_length (counts : List Byte) : symbolsBefore counts counts.length = countSum counts := by
  rw [symbolsBefore, List.take_length]

theorem symbolsBefore_mono (counts : List Byte) {m n : Nat} (h : m ≤ n) :
    symbolsBefore counts m ≤ symbolsBefore counts n := by
  induction n, h using Nat.le_induction with
  | base => exact Nat.le_refl _
  | succ n _ ih => rw [symbolsBefore_succ]; omega

theorem symbolsBefore_le_countSum {counts : List Byte} {n : Nat} (h : n ≤ counts.length) :
    symbolsBefore counts n ≤ countSum counts :=
  (symbolsBefore_mono counts h).trans_eq (symbolsBefore_length counts)

theorem symbolsBefore_le (counts : List Byte) (n : Nat) : symbolsBefore counts n ≤ 255 * n := by
  induction n with
  | zero => exact Nat.le_refl _
  | succ n ih =>
    have hc := countAt_le counts n
    rw [symbolsBefore_succ]
    omega

theorem symbolsBefore_le_codesPast (counts : List Byte) (n : Nat) : symbolsBefore counts n ≤ codesPast counts n := by
  induction n with
  | zero => exact Nat.le_refl _
  | succ n ih => rw [symbolsBefore_succ, codesPast_succ, firstCode_eq]; omega

theorem codesPast_add_le (counts : List Byte) (n : Nat) : codesPast counts n + 255 ≤ 255 * 2 ^ n := by
  induction n with
  | zero => exact Nat.le_refl _
  | succ n ih =>
    have hc := countAt_le counts n
    rw [codesPast_succ, firstCode_eq, Nat.pow_succ]
    omega

/-- How far the first code of a width may lie beyond the symbols before it: the lower end of `escape_base`
(42_vle.md R176). -/
theorem firstCode_add_le (counts : List Byte) (n : Nat) :
    firstCode counts n + 255 * (n + 2) ≤ symbolsBefore counts n + 255 * 2 ^ (n + 1) := by
  induction n with
  | zero => simp [firstCode, symbolsBefore_zero]
  | succ n ih =>
    have hA := symbolsBefore_le counts n
    have hc := countAt_le counts n
    have hF : firstCode counts (n + 1) = 2 * (firstCode counts n + countAt counts n) := rfl
    rw [hF, symbolsBefore_succ, Nat.pow_succ 2 (n + 1)]
    linarith

/-- The codes of a width begin past those of every smaller width. -/
theorem codesPast_mul_le (counts : List Byte) (m k : Nat) :
    codesPast counts m * 2 ^ k ≤ codesPast counts (m + k) := by
  induction k with
  | zero => rw [Nat.pow_zero, Nat.mul_one, Nat.add_zero]
  | succ k ih =>
    rw [← Nat.add_assoc, codesPast_succ, firstCode_eq, Nat.pow_succ, ← Nat.mul_assoc]
    omega

/-! ### The count recurrence -/

theorem toInt_ofNat_of_lt {n : Nat} (h : n < 2 ^ 31) : (BitVec.ofNat 32 n).toInt = n := by
  have hn : (BitVec.ofNat 32 n).toNat = n := by rw [BitVec.toNat_ofNat, Nat.mod_eq_of_lt (by omega)]
  rw [BitVec.toInt_eq_toNat_of_lt (by omega), hn]

theorem toInt_sub_ofNat {a b : Nat} (ha : a < 2 ^ 31) (hb : b < 2 ^ 31) :
    (BitVec.ofNat 32 a - BitVec.ofNat 32 b).toInt = (a : Int) - b := by
  rw [BitVec.toInt_sub, toInt_ofNat_of_lt ha, toInt_ofNat_of_lt hb, Int.bmod_eq_of_le] <;> omega

/-- The recurrence has read the first `n` counts (42_vle.md R173). -/
structure CountedTo (counts : List Byte) (n : Nat) (v : VleRegs) : Prop where
  widthSum : v.widthSum = BitVec.ofNat 32 (codesPast counts n)
  alphabetLength : v.alphabetLength = BitVec.ofNat 32 (symbolsBefore counts n)
  escLimit : ∀ i (h : i < 16), v.escLimit[i] = if i < n then BitVec.ofNat 32 (codesPast counts (i + 1)) else 0
  escBase : ∀ i (h : i < 16), v.escBase[i] =
    if i < n then BitVec.ofNat 32 (symbolsBefore counts i) - BitVec.ofNat 32 (firstCode counts i) else 0

/-- Setting entry `n` of a table whose entries below `n` are those of `f` and whose others are 0. -/
theorem getElem_setIfInBounds_of_prefix {t : Vector Reg32 16} {f : Nat → Reg32} {n : Nat}
    (h : ∀ i (hi : i < 16), t[i] = if i < n then f i else 0) (i : Nat) (hi : i < 16) :
    (t.setIfInBounds n (f n))[i] = if i < n + 1 then f i else 0 := by
  rw [Vector.getElem_setIfInBounds hi, h i hi]
  by_cases he : n = i
  · subst he; simp
  · rw [if_neg he]
    exact if_congr (by omega) rfl rfl

theorem CountedTo.countStep {counts : List Byte} {n : Nat} {v : VleRegs} (h : CountedTo counts n v) {c : Byte}
    (hc : counts[n]? = some c) : CountedTo counts (n + 1) (countStep n c v) := by
  have hcw : c.setWidth 32 = BitVec.ofNat 32 (countAt counts n) := by rw [countAt_eq hc, BitVec.ofNat_toNat]
  have hdouble : v.widthSum + v.widthSum = BitVec.ofNat 32 (firstCode counts n) := by
    rw [h.widthSum, firstCode_eq, ← BitVec.ofNat_add, ← Nat.two_mul]
  have hsum : v.widthSum + v.widthSum + c.setWidth 32 = BitVec.ofNat 32 (codesPast counts (n + 1)) := by
    rw [hdouble, hcw, ← BitVec.ofNat_add, codesPast_succ]
  refine ⟨hsum, ?_, ?_, ?_⟩
  · show v.alphabetLength + c.setWidth 32 = _
    rw [h.alphabetLength, hcw, ← BitVec.ofNat_add, symbolsBefore_succ]
  · intro i hi
    show (v.escLimit.setIfInBounds n (v.widthSum + v.widthSum + c.setWidth 32))[i] = _
    rw [hsum]
    exact getElem_setIfInBounds_of_prefix (f := fun i => BitVec.ofNat 32 (codesPast counts (i + 1))) h.escLimit i hi
  · intro i hi
    show (v.escBase.setIfInBounds n (v.alphabetLength - (v.widthSum + v.widthSum)))[i] = _
    rw [hdouble, h.alphabetLength]
    exact getElem_setIfInBounds_of_prefix
      (f := fun i => BitVec.ofNat 32 (symbolsBefore counts i) - BitVec.ofNat 32 (firstCode counts i)) h.escBase i hi

theorem CountedTo.countLoop {counts rest : List Byte} {n : Nat} {v : VleRegs} (h : CountedTo counts n v)
    (hr : counts.drop n = rest) (hn : n ≤ counts.length) : CountedTo counts counts.length (countLoop n rest v) := by
  induction rest generalizing n v with
  | nil =>
    obtain rfl : n = counts.length := Nat.le_antisymm hn (List.drop_eq_nil_iff.1 hr)
    exact h
  | cons c rest ih =>
    have hc : counts[n]? = some c := by rw [← List.head?_drop, hr, List.head?_cons]
    have hlt : n < counts.length := (List.getElem?_eq_some_iff.1 hc).1
    refine ih (h.countStep hc) ?_ hlt
    rw [← List.tail_drop, hr, List.tail_cons]

/-- The recurrence touches the header's sums and the two escape tables alone. -/
theorem countLoop_frame (n : Nat) (counts : List Byte) (v : VleRegs) :
    (countLoop n counts v).W = v.W ∧ (countLoop n counts v).alphabet = v.alphabet ∧
      (countLoop n counts v).symbols = v.symbols ∧ (countLoop n counts v).widths = v.widths := by
  induction counts generalizing n v with
  | nil => exact ⟨rfl, rfl, rfl, rfl⟩
  | cons c counts ih => exact ih (n + 1) (countStep n c v)

theorem withCounts_counted (v : VleRegs) (counts alphabet : List Byte) :
    CountedTo counts counts.length (v.withCounts counts alphabet) := by
  have h0 : CountedTo counts 0
      { v with W := counts.length, escBase := Vector.replicate 16 0, escLimit := Vector.replicate 16 0,
               alphabetLength := 0, widthSum := 0 } :=
    ⟨rfl, rfl, fun i h => Vector.getElem_replicate h, fun i h => Vector.getElem_replicate h⟩
  have h := h0.countLoop rfl (Nat.zero_le _)
  exact ⟨h.widthSum, h.alphabetLength, h.escLimit, h.escBase⟩

@[simp] theorem withCounts_W (v : VleRegs) (counts alphabet : List Byte) :
    (v.withCounts counts alphabet).W = counts.length :=
  (countLoop_frame _ _ _).1

@[simp] theorem withCounts_alphabet (v : VleRegs) (counts alphabet : List Byte) :
    (v.withCounts counts alphabet).alphabet = overlay v.alphabet alphabet :=
  congrArg (overlay · alphabet) (countLoop_frame _ _ _).2.1

section
variable {counts : List Byte} (hlen : counts.length ≤ 15)
include hlen

theorem codesPast_le {n : Nat} (h : n ≤ counts.length) : codesPast counts n ≤ 8355585 := by
  have hle := codesPast_add_le counts n
  have hpow : 2 ^ n ≤ 2 ^ 15 := Nat.pow_le_pow_right (by decide) (h.trans hlen)
  omega

theorem symbolsBefore_le_total {n : Nat} (h : n ≤ counts.length) : symbolsBefore counts n ≤ 3825 := by
  have hle := symbolsBefore_le counts n
  omega

theorem firstCode_le {n : Nat} (h : n < counts.length) :
    firstCode counts n ≤ symbolsBefore counts n + 8351760 := by
  rcases Nat.lt_or_ge n 14 with hn | hn
  · have hle := codesPast_add_le counts n
    have hpow : 2 ^ n ≤ 2 ^ 13 := Nat.pow_le_pow_right (by decide) (by omega)
    rw [firstCode_eq]
    omega
  · obtain rfl : n = 14 := by omega
    have hle := firstCode_add_le counts 14
    omega

variable {v : VleRegs} (hv : CountedTo counts counts.length v) {i : Nat} (hi : i < 16)
include hv

theorem CountedTo.widthSum_toInt : v.widthSum.toInt = codesPast counts counts.length := by
  have hle := codesPast_le hlen (Nat.le_refl _)
  rw [hv.widthSum, toInt_ofNat_of_lt (by omega)]

theorem CountedTo.alphabetLength_toInt : v.alphabetLength.toInt = countSum counts := by
  have hle := symbolsBefore_le_total hlen (Nat.le_refl _)
  rw [hv.alphabetLength, toInt_ofNat_of_lt (by omega), symbolsBefore_length]

theorem CountedTo.escLimit_toInt (h : i < counts.length) : (v.escLimit[i]).toInt = codesPast counts (i + 1) := by
  have hle := codesPast_le hlen (n := i + 1) h
  rw [hv.escLimit i hi, if_pos h, toInt_ofNat_of_lt (by omega)]

theorem CountedTo.escBase_toInt (h : i < counts.length) :
    (v.escBase[i]).toInt = (symbolsBefore counts i : Int) - firstCode counts i := by
  have hA := symbolsBefore_le_total hlen h.le
  have hF := firstCode_le hlen h
  rw [hv.escBase i hi, if_pos h, toInt_sub_ofNat (by omega) (by omega)]

end

theorem CountedTo.tail {counts : List Byte} {v : VleRegs} (hv : CountedTo counts counts.length v) {i : Nat} (hi : i < 16)
    (h : counts.length ≤ i) : v.escLimit[i] = 0 ∧ v.escBase[i] = 0 :=
  ⟨by rw [hv.escLimit i hi, if_neg (Nat.not_lt.2 h)], by rw [hv.escBase i hi, if_neg (Nat.not_lt.2 h)]⟩

/-- Settles O30: the recurrence's tables are the canonical code's numbers. -/
theorem countRecurrenceIsCanonical : Obligations.CountRecurrenceIsCanonical := by
  intro v counts alphabet hlen
  have hv := withCounts_counted v counts alphabet
  refine ⟨withCounts_W v counts alphabet, hv.alphabetLength_toInt hlen, fun i hi => ⟨fun h => ?_, hv.tail hi⟩⟩
  have hsym := symbolsBefore_le_codesPast counts i
  rw [hv.escLimit_toInt hlen hi h, hv.escBase_toInt hlen hi h, codesPast_succ, symbolsBefore_succ, firstCode_eq]
  omega

/-- The ranges of 42_vle.md R176 once all counts are read. -/
theorem CountedTo.ranges {counts : List Byte} (hlen : counts.length ≤ 15) {v : VleRegs}
    (hv : CountedTo counts counts.length v) :
    (0 ≤ v.widthSum.toInt ∧ v.widthSum.toInt ≤ 8355585) ∧
    (0 ≤ v.alphabetLength.toInt ∧ v.alphabetLength.toInt ≤ 3825) ∧
    ∀ i (h : i < 16), (0 ≤ (v.escLimit[i]).toInt ∧ (v.escLimit[i]).toInt ≤ 8355585) ∧
      (-8351760 ≤ (v.escBase[i]).toInt ∧ (v.escBase[i]).toInt ≤ 0) := by
  have hS := codesPast_le hlen (Nat.le_refl _)
  have hA := symbolsBefore_le_total hlen (Nat.le_refl _)
  rw [symbolsBefore_length] at hA
  rw [hv.widthSum_toInt hlen, hv.alphabetLength_toInt hlen]
  refine ⟨by omega, by omega, fun i hi => ?_⟩
  by_cases h : i < counts.length
  · have hlim := codesPast_le hlen (n := i + 1) h
    have hbase := firstCode_le hlen h
    have hsym := symbolsBefore_le_codesPast counts i
    rw [hv.escLimit_toInt hlen hi h, hv.escBase_toInt hlen hi h]
    rw [firstCode_eq] at hbase ⊢
    omega
  · obtain ⟨h1, h2⟩ := hv.tail hi (Nat.not_lt.1 h)
    rw [h1, h2]
    decide

/-- Settles O31: the bounds of the canonical code's numbers for at most 15 counts of at most 255. -/
theorem recurrenceStaysInRange : Obligations.RecurrenceStaysInRange :=
  fun v counts alphabet hlen => (withCounts_counted v counts alphabet).ranges hlen

/-! ### The direct table -/

/-- Where the entries of the first `i` widths end in the direct table. -/
def directEnd (counts : List Byte) (i : Nat) : Nat :=
  codesPast counts i * 2 ^ (8 - i)

theorem two_pow_sub_eq {i : Nat} (h : i < 8) : 2 ^ (8 - i) = 2 * 2 ^ (7 - i) := by
  rw [← Nat.pow_succ', Nat.succ_sub (by omega)]

theorem directEnd_eq_firstCode (counts : List Byte) {i : Nat} (h : i < 8) :
    directEnd counts i = firstCode counts i * 2 ^ (7 - i) := by
  rw [directEnd, firstCode_eq, two_pow_sub_eq h, Nat.mul_comm 2 (codesPast counts i), Nat.mul_assoc]

theorem directEnd_succ (counts : List Byte) {i : Nat} (h : i < 8) :
    directEnd counts (i + 1) = directEnd counts i + countAt counts i * 2 ^ (7 - i) := by
  rw [directEnd_eq_firstCode counts h, directEnd, codesPast_succ, Nat.add_mul, Nat.add_sub_add_right 7 1 i]

/-- The entries of a width fit exactly when its codes are not over-subscribed. -/
theorem directEnd_succ_le_iff (counts : List Byte) {i : Nat} (h : i < 8) :
    directEnd counts (i + 1) ≤ 256 ↔ firstCode counts i + countAt counts i ≤ 2 ^ (i + 1) := by
  have hpow : 256 = 2 ^ (i + 1) * 2 ^ (8 - (i + 1)) := by
    rw [← Nat.pow_add, Nat.add_sub_cancel' (Nat.succ_le_of_lt h)]
  rw [directEnd, hpow, Nat.mul_le_mul_right_iff (Nat.two_pow_pos _), codesPast_succ]

/-- What the table's slices say of a prefix below the end: it begins with a code of one of the widths. -/
theorem exists_width_of_lt_directEnd {counts : List Byte} {n x : Nat} (hn : n ≤ 8) (h : x < directEnd counts n) :
    ∃ i < n, firstCode counts i ≤ x >>> (7 - i) ∧ x >>> (7 - i) < firstCode counts i + countAt counts i := by
  induction n with
  | zero => rw [directEnd, codesPast, Nat.zero_mul] at h; omega
  | succ n ih =>
    by_cases hx : x < directEnd counts n
    · obtain ⟨i, hi, hcode⟩ := ih (by omega) hx
      exact ⟨i, by omega, hcode⟩
    · refine ⟨n, Nat.lt_succ_self n, ?_⟩
      rw [directEnd_succ counts (by omega), directEnd_eq_firstCode counts (by omega), ← Nat.add_mul] at h
      rw [directEnd_eq_firstCode counts (by omega), Nat.not_lt] at hx
      rw [Nat.shiftRight_eq_div_pow]
      exact ⟨(Nat.le_div_iff_mul_le (Nat.two_pow_pos _)).2 hx, (Nat.div_lt_iff_lt_mul (Nat.two_pow_pos _)).2 h⟩

/-- The table's build has placed the symbols of the first `i` widths (42_vle.md R179). -/
structure PlacedTo (counts : List Byte) (alphabet : Vector Byte 256) (i : Nat) (d : Direct) : Prop where
  p : d.p = directEnd counts i
  a : d.a = symbolsBefore counts i
  entry : ∀ k j x (hx : x < 256), k < i → j < countAt counts k → x >>> (7 - k) = firstCode counts k + j →
    d.widths[x] = BitVec.ofNat 8 (k + 1) ∧ d.symbols[x] = (alphabet[symbolsBefore counts k + j]?).getD 0

/-- Symbols `m`, `m + 1`, … of one width are placed: `m` of them so far, from `d0` on. -/
structure PlacedSome (alphabet : Vector Byte 256) (w spw m : Nat) (d0 d : Direct) : Prop where
  p : d.p = d0.p + m * spw
  a : d.a = d0.a + m
  below : ∀ x (hx : x < 256), x < d0.p → d.widths[x] = d0.widths[x] ∧ d.symbols[x] = d0.symbols[x]
  entry : ∀ j x (hx : x < 256), j < m → d0.p + j * spw ≤ x → x < d0.p + (j + 1) * spw →
    d.widths[x] = BitVec.ofNat 8 w ∧ d.symbols[x] = (alphabet[d0.a + j]?).getD 0

theorem PlacedSome.refl (alphabet : Vector Byte 256) (w spw : Nat) (d : Direct) : PlacedSome alphabet w spw 0 d d :=
  ⟨by simp, rfl, fun _ _ _ => ⟨rfl, rfl⟩, fun _ _ _ h => absurd h (Nat.not_lt_zero _)⟩

/-- The table's next symbol. -/
def Direct.place (alphabet : Vector Byte 256) (w spw : Nat) (d : Direct) : Direct where
  p := d.p + spw
  a := d.a + 1
  symbols := fillRange d.symbols d.p spw ((alphabet[d.a]?).getD 0)
  widths := fillRange d.widths d.p spw (BitVec.ofNat 8 w)

theorem placeSymbols_succ (alphabet : Vector Byte 256) (w spw c : Nat) (d : Direct) :
    placeSymbols alphabet w spw (c + 1) d =
      if d.p + spw > 256 then .error (.raise .badVLEHeader)
      else placeSymbols alphabet w spw c (d.place alphabet w spw) := rfl

theorem PlacedSome.place {alphabet : Vector Byte 256} {w spw m : Nat} {d0 d : Direct}
    (h : PlacedSome alphabet w spw m d0 d) : PlacedSome alphabet w spw (m + 1) d0 (d.place alphabet w spw) := by
  have hp : (d.place alphabet w spw).p = d.p + spw := rfl
  refine ⟨by rw [hp, h.p, Nat.succ_mul, Nat.add_assoc], congrArg (· + 1) h.a, fun x hx hlt => ?below,
    fun j x hx hj hle hlt => ?entry⟩
  case below =>
    have hout : ¬(d.p ≤ x ∧ x < d.p + spw) := by have := h.p; omega
    obtain ⟨hw, hs⟩ := h.below x hx hlt
    simp only [Direct.place, getElem_fillRange, if_neg hout]
    exact ⟨hw, hs⟩
  case entry =>
    rcases Nat.lt_succ_iff_lt_or_eq.1 hj with hj | rfl
    · have hmul : (j + 1) * spw ≤ m * spw := Nat.mul_le_mul_right _ hj
      have hout : ¬(d.p ≤ x ∧ x < d.p + spw) := by have := h.p; omega
      obtain ⟨hw, hs⟩ := h.entry j x hx hj hle hlt
      simp only [Direct.place, getElem_fillRange, if_neg hout]
      exact ⟨hw, hs⟩
    · have hin : d.p ≤ x ∧ x < d.p + spw := by
        rw [Nat.succ_mul] at hlt
        have := h.p
        omega
      simp only [Direct.place, getElem_fillRange, if_pos hin, h.a, and_self]

/-- Placing the remaining `c` symbols of a width succeeds exactly where their entries fit. -/
theorem placeSymbols_cases {alphabet : Vector Byte 256} {w spw m : Nat} {d0 d : Direct}
    (h : PlacedSome alphabet w spw m d0 d) (hle : d.p ≤ 256) (c : Nat) :
    (d0.p + (m + c) * spw ≤ 256 ∧
      ∃ d', placeSymbols alphabet w spw c d = .ok d' ∧ PlacedSome alphabet w spw (m + c) d0 d') ∨
    (256 < d0.p + (m + c) * spw ∧ placeSymbols alphabet w spw c d = .error (.raise .badVLEHeader)) := by
  induction c generalizing m d with
  | zero => exact .inl ⟨h.p ▸ hle, d, rfl, h⟩
  | succ c ih =>
    rw [placeSymbols_succ]
    by_cases hover : d.p + spw > 256
    · rw [if_pos hover]
      have hmul : (m + 1) * spw ≤ (m + (c + 1)) * spw := Nat.mul_le_mul_right _ (by omega)
      rw [Nat.succ_mul] at hmul
      exact .inr ⟨by have := h.p; omega, rfl⟩
    · rw [if_neg hover]
      have hnext := ih h.place (Nat.not_lt.1 hover)
      rwa [Nat.add_assoc, Nat.add_comm 1 c] at hnext

theorem spw_eq {i : Nat} (h : i < 8) : 128 >>> i = 2 ^ (7 - i) := by
  rw [Nat.shiftRight_eq_div_pow, (by rfl : 128 = 2 ^ 7), Nat.pow_div (by omega) (by decide)]

theorem directEnd_mono (counts : List Byte) {m n : Nat} (hmn : m ≤ n) (hn : n ≤ 8) :
    directEnd counts m ≤ directEnd counts n := by
  have hsplit : 2 ^ (8 - m) = 2 ^ (n - m) * 2 ^ (8 - n) := by
    rw [← Nat.pow_add]
    congr 1
    omega
  have hle := Nat.mul_le_mul_right (2 ^ (8 - n)) (codesPast_mul_le counts m (n - m))
  rw [Nat.add_sub_cancel' hmn] at hle
  rwa [directEnd, directEnd, hsplit, ← Nat.mul_assoc]

theorem directEnd_le_iff_directFits (counts : List Byte) :
    directEnd counts (min counts.length 8) ≤ 256 ↔ directFits counts := by
  constructor
  · intro h i hi
    rw [← directEnd_succ_le_iff counts (by omega)]
    exact (directEnd_mono counts (by omega) (Nat.min_le_right _ _)).trans h
  · intro h
    cases hn : min counts.length 8 with
    | zero => simp [directEnd, codesPast]
    | succ n => exact (directEnd_succ_le_iff counts (by omega)).2 (h n (by omega))

/-- The slice of symbol `j` of width `k + 1`. -/
theorem slice_of_code {counts : List Byte} {k j x : Nat} (hk : k < 8) (hcode : x >>> (7 - k) = firstCode counts k + j) :
    directEnd counts k + j * 2 ^ (7 - k) ≤ x ∧ x < directEnd counts k + (j + 1) * 2 ^ (7 - k) := by
  rw [directEnd_eq_firstCode counts hk, ← Nat.add_mul, ← Nat.add_mul, ← Nat.add_assoc, ← hcode,
    Nat.shiftRight_eq_div_pow]
  exact ⟨Nat.div_mul_le_self _ _, Nat.lt_mul_of_div_lt (Nat.lt_succ_self _) (Nat.two_pow_pos _)⟩

theorem lt_directEnd_of_code {counts : List Byte} {k j x n : Nat} (hn : n ≤ 8) (hk : k < n) (hj : j < countAt counts k)
    (hcode : x >>> (7 - k) = firstCode counts k + j) : x < directEnd counts n := by
  have hmul : (j + 1) * 2 ^ (7 - k) ≤ countAt counts k * 2 ^ (7 - k) := Nat.mul_le_mul_right _ hj
  have hmono := directEnd_mono counts (m := k + 1) hk hn
  rw [directEnd_succ counts (by omega)] at hmono
  have hslice := (slice_of_code (by omega) hcode).2
  omega

theorem PlacedTo.succ {counts : List Byte} {alphabet : Vector Byte 256} {i : Nat} {d d' : Direct} (hi : i < 8)
    (h : PlacedTo counts alphabet i d)
    (hs : PlacedSome alphabet (i + 1) (2 ^ (7 - i)) (countAt counts i) d d') : PlacedTo counts alphabet (i + 1) d' := by
  refine ⟨by rw [hs.p, h.p, directEnd_succ counts hi], by rw [hs.a, h.a, symbolsBefore_succ],
    fun k j x hx hk hj hcode => ?_⟩
  rcases Nat.lt_succ_iff_lt_or_eq.1 hk with hk | rfl
  · obtain ⟨hw, hsym⟩ := hs.below x hx (h.p ▸ lt_directEnd_of_code hi.le hk hj hcode)
    obtain ⟨hw0, hsym0⟩ := h.entry k j x hx hk hj hcode
    exact ⟨hw.trans hw0, hsym.trans hsym0⟩
  · obtain ⟨hle, hlt⟩ := slice_of_code hi hcode
    obtain ⟨hw, hsym⟩ := hs.entry j x hx hj (h.p ▸ hle) (h.p ▸ hlt)
    exact ⟨hw, by rw [hsym, h.a]⟩

/-- The loop over the widths succeeds exactly where the table has room for all short codes. -/
theorem placeWidths_cases {counts cs : List Byte} {alphabet : Vector Byte 256} {i : Nat} {d : Direct}
    (hcs : (counts.take 8).drop i = cs) (hi : i ≤ min counts.length 8) (h : PlacedTo counts alphabet i d)
    (hle : d.p ≤ 256) :
    (directFits counts ∧ ∃ d', placeWidths alphabet cs (i + 1) (128 >>> i) d = .ok d' ∧
      PlacedTo counts alphabet (min counts.length 8) d') ∨
    (¬directFits counts ∧ placeWidths alphabet cs (i + 1) (128 >>> i) d = .error (.raise .badVLEHeader)) := by
  have hlen : (counts.take 8).length = min counts.length 8 := by rw [List.length_take, Nat.min_comm]
  induction cs generalizing i d with
  | nil =>
    obtain rfl : i = min counts.length 8 := Nat.le_antisymm hi (hlen ▸ List.drop_eq_nil_iff.1 hcs)
    exact .inl ⟨(directEnd_le_iff_directFits counts).1 (h.p ▸ hle), d, rfl, h⟩
  | cons c cs ih =>
    have hc : (counts.take 8)[i]? = some c := by rw [← List.head?_drop, hcs, List.head?_cons]
    have hlt : i < min counts.length 8 := hlen ▸ (List.getElem?_eq_some_iff.1 hc).1
    have h8 : i < 8 := by omega
    have hcount : countAt counts i = c.toNat := countAt_eq (by rwa [List.getElem?_take_of_lt h8] at hc)
    have hend : d.p + (0 + c.toNat) * 128 >>> i = directEnd counts (i + 1) := by
      rw [h.p, spw_eq h8, Nat.zero_add, ← hcount, directEnd_succ counts h8]
    have hstep : placeWidths alphabet (c :: cs) (i + 1) (128 >>> i) d =
        placeSymbols alphabet (i + 1) (128 >>> i) c.toNat d >>= placeWidths alphabet cs (i + 2) (128 >>> i >>> 1) := rfl
    rw [hstep]
    rcases placeSymbols_cases (PlacedSome.refl alphabet (i + 1) (128 >>> i) d) hle c.toNat with
      ⟨hfit, d', hd, hs⟩ | ⟨hover, he⟩
    · rw [Nat.zero_add, ← hcount, spw_eq h8] at hs
      have hs' := h.succ h8 hs
      rw [hd, Sys2Proof.ok_bind, ← Nat.shiftRight_add]
      exact ih (by rw [← List.tail_drop, hcs, List.tail_cons]) hlt hs' (by rw [hs'.p, ← hend]; exact hfit)
    · rw [he]
      refine .inr ⟨fun hfits => ?_, rfl⟩
      have hall := (directEnd_le_iff_directFits counts).2 hfits
      have hmono := directEnd_mono counts (m := i + 1) hlt (Nat.min_le_right _ _)
      omega

theorem placedTo_zero (counts : List Byte) (alphabet symbols widths : Vector Byte 256) :
    PlacedTo counts alphabet 0 { p := 0, a := 0, symbols := symbols, widths := widths } :=
  ⟨by simp [directEnd, codesPast], rfl, fun _ _ _ _ h => absurd h (Nat.not_lt_zero _)⟩

/-- The direct table once it is built: the placed entries, then the fill (42_vle.md R179, R181). -/
structure IsDirectTable (counts : List Byte) (v built : VleRegs) : Prop where
  frame : built = { v with symbols := built.symbols, widths := built.widths }
  entry : ∀ k j x (hx : x < 256), k < min counts.length 8 → j < countAt counts k →
    x >>> (7 - k) = firstCode counts k + j →
    built.widths[x] = BitVec.ofNat 8 (k + 1) ∧ built.symbols[x] = (v.alphabet[symbolsBefore counts k + j]?).getD 0
  rest : ∀ x (hx : x < 256), directEnd counts (min counts.length 8) ≤ x →
    built.widths[x] = vleEscapeWidth ∧ built.symbols[x] = 0

/-- The table is built where the short codes fit, and BadVLEHeader is raised where they do not (42_vle.md R180). -/
theorem withDirect_cases (v : VleRegs) (counts : List Byte) :
    (directFits counts ∧ ∃ built, v.withDirect counts = .ok built ∧ IsDirectTable counts v built) ∨
    (¬directFits counts ∧ v.withDirect counts = .error (.raise .badVLEHeader)) := by
  rcases placeWidths_cases (List.drop_zero (l := counts.take 8)) (Nat.zero_le _)
    (placedTo_zero counts v.alphabet v.symbols v.widths) (Nat.zero_le _) with ⟨hfits, d, hd, hp⟩ | ⟨hfits, he⟩
  · have hall := (directEnd_le_iff_directFits counts).2 hfits
    have hpe := hp.p
    refine .inl ⟨hfits, { v with symbols := fillRange d.symbols d.p (256 - d.p) 0
                                 widths := fillRange d.widths d.p (256 - d.p) vleEscapeWidth }, ?_, rfl, ?_, ?_⟩
    · exact congrArg (· >>= _) hd
    · intro k j x hx hk hj hcode
      have hlt := lt_directEnd_of_code (Nat.min_le_right _ _) hk hj hcode
      have hout : ¬(d.p ≤ x ∧ x < d.p + (256 - d.p)) := by omega
      simp only [getElem_fillRange, if_neg hout]
      exact hp.entry k j x hx hk hj hcode
    · intro x hx hle
      have hin : d.p ≤ x ∧ x < d.p + (256 - d.p) := by omega
      simp only [getElem_fillRange, if_pos hin, and_self]
  · exact .inr ⟨hfits, congrArg (· >>= _) he⟩

theorem withDirect_ok {v built : VleRegs} {counts : List Byte} (h : v.withDirect counts = .ok built) :
    directFits counts ∧ IsDirectTable counts v built := by
  rcases withDirect_cases v counts with ⟨hfits, b, hb, ht⟩ | ⟨-, he⟩
  · obtain rfl : b = built := by rw [h] at hb; exact (Except.ok.inj hb).symm
    exact ⟨hfits, ht⟩
  · rw [h] at he; cases he

/-- Settles O32: the build has two outcomes, and the room for the short codes decides between them. -/
theorem directTableOverflowsExactlyWhenOversubscribed : Obligations.DirectTableOverflowsExactlyWhenOversubscribed := by
  intro v counts
  rcases withDirect_cases v counts with ⟨hfits, built, hb, -⟩ | ⟨hfits, he⟩
  · simp [hb, hfits]
  · simp [he, hfits]

/-- Short codes that fit have their symbols among the first 256 of the alphabet. -/
theorem symbolsBefore_add_lt {counts : List Byte} (hfits : directFits counts) {k j : Nat}
    (hk : k < min counts.length 8) (hj : j < countAt counts k) : symbolsBefore counts k + j < 256 := by
  have hsym := symbolsBefore_le_codesPast counts (k + 1)
  have hfit := hfits k hk
  have hpow : 2 ^ (k + 1) ≤ 2 ^ 8 := Nat.pow_le_pow_right (by decide) (by omega)
  rw [symbolsBefore_succ, codesPast_succ] at hsym
  omega

/-- A prefix that begins with no short code lies behind the placed entries. -/
theorem directEnd_le_of_no_code {counts : List Byte} {x : Nat}
    (h : ∀ i < min counts.length 8, ¬(firstCode counts i ≤ x >>> (7 - i) ∧
      x >>> (7 - i) < firstCode counts i + countAt counts i)) : directEnd counts (min counts.length 8) ≤ x := by
  refine Nat.not_lt.1 fun hlt => ?_
  obtain ⟨i, hi, hcode⟩ := exists_width_of_lt_directEnd (Nat.min_le_right _ _) hlt
  exact h i hi hcode

/-- Settles O33: the placed entries and the fill. -/
theorem directTableDecodesShortCodes : Obligations.DirectTableDecodesShortCodes := by
  intro v built counts p hb
  obtain ⟨hfits, ht⟩ := withDirect_ok hb
  refine ⟨fun i j hi hj hcode => ?short, fun h => ht.rest p.toNat p.isLt (directEnd_le_of_no_code h)⟩
  case short =>
    obtain ⟨hw, hs⟩ := ht.entry i j p.toNat p.isLt hi hj hcode
    have hlt := symbolsBefore_add_lt hfits hi hj
    refine ⟨?_, ?_⟩
    · rw [hw, BitVec.toNat_ofNat, Nat.mod_eq_of_lt (by omega)]
    · rw [hs, Vector.getElem?_eq_getElem hlt, Option.getD_some]

/-! ### The tables of a header -/

theorem wellFormed_vleHdr_iff {counts alphabet : List Byte} :
    (Instr.vleHdr counts alphabet).wellFormed = true ↔
      counts.length ≤ 15 ∧ countSum counts ≤ 256 ∧ alphabet.length = countSum counts := by
  simp [Instr.wellFormed, and_assoc]

/-- What a header's tables are, whatever they were before it. -/
structure VleRegs.TablesOf (v : VleRegs) (counts alphabet : List Byte) : Prop where
  counted : CountedTo counts counts.length v
  fits : directFits counts
  W : v.W = counts.length
  symbol : ∀ j (h : j < 256), j < alphabet.length → some v.alphabet[j] = alphabet[j]?
  entry : ∀ k j x (hx : x < 256), k < min counts.length 8 → j < countAt counts k →
    x >>> (7 - k) = firstCode counts k + j →
    v.widths[x] = BitVec.ofNat 8 (k + 1) ∧ v.symbols[x] = (v.alphabet[symbolsBefore counts k + j]?).getD 0
  rest : ∀ x (hx : x < 256), directEnd counts (min counts.length 8) ≤ x → v.widths[x] = vleEscapeWidth ∧ v.symbols[x] = 0

theorem tablesOf_of_withDirect {before v built : VleRegs} {counts alphabet : List Byte} {wo co : Nat}
    (h : (before.withCounts counts alphabet).withDirect counts = .ok built)
    (hv : v = { built with widthsOffset := wo, codesOffset := co }) : v.TablesOf counts alphabet := by
  obtain ⟨hfits, ht⟩ := withDirect_ok h
  have hc := withCounts_counted before counts alphabet
  have hframe := ht.frame
  generalize hsym : built.symbols = symbols at hframe
  generalize hwid : built.widths = widths at hframe
  have hal : v.alphabet = overlay before.alphabet alphabet := by
    rw [hv, hframe, ← withCounts_alphabet before counts alphabet]
  refine ⟨?_, hfits, ?_, fun j hj hlt => ?_, fun k j x hx hk hj hcode => ?_, fun x hx hle => ?_⟩
  · rw [hv, hframe]
    exact ⟨hc.widthSum, hc.alphabetLength, hc.escLimit, hc.escBase⟩
  · rw [hv, hframe]
    exact withCounts_W before counts alphabet
  · rw [List.getElem?_eq_getElem hlt]
    simp [hal, List.getElem?_eq_getElem hlt]
  · have he := ht.entry k j x hx hk hj hcode
    rw [hal, ← withCounts_alphabet before counts alphabet, hv]
    exact he
  · rw [hv]
    exact ht.rest x hx hle

theorem VleRegs.BuiltFrom.tables {v : VleRegs} {counts alphabet : List Byte} (h : v.BuiltFrom counts alphabet) :
    v.TablesOf counts alphabet := by
  obtain ⟨before, built, wo, co, hb, hv⟩ := h
  exact tablesOf_of_withDirect hb hv

/-- A prefix with the escape entry begins with no short code. -/
theorem VleRegs.TablesOf.directEnd_le {v : VleRegs} {counts alphabet : List Byte} (h : v.TablesOf counts alphabet)
    {x : Nat} (hx : x < 256) (hw : v.widths[x] = vleEscapeWidth) : directEnd counts (min counts.length 8) ≤ x := by
  refine Nat.not_lt.1 fun hlt => ?_
  obtain ⟨k, hk, hle, hcode⟩ := exists_width_of_lt_directEnd (Nat.min_le_right _ _) hlt
  have he := (h.entry k (x >>> (7 - k) - firstCode counts k) x hx hk (by omega) (by omega)).1
  have hk8 : k + 1 ≤ 8 := by omega
  have hnat := congrArg BitVec.toNat (he.symm.trans hw)
  rw [BitVec.toNat_ofNat, Nat.mod_eq_of_lt (by omega)] at hnat
  have h40 : vleEscapeWidth.toNat = 64 := rfl
  omega

section
variable {v : VleRegs} {counts alphabet : List Byte} {m x : Nat} (ht : v.TablesOf counts alphabet) (hm : m < 16)
  (hlt : (x : Int) < (v.escLimit[m]).toInt)
include ht hm hlt

theorem VleRegs.TablesOf.lt_length_of_matched : m < counts.length := Nat.not_le.1 fun hge => by
  rw [(ht.counted.tail hm hge).1] at hlt
  simp at hlt
  omega

/-- A code that no shorter width took and that is below its width's limit is one of its width's codes, and the base turns
it into their alphabet index. -/
theorem VleRegs.TablesOf.index_of_matched (hlen : counts.length ≤ 15) (hlow : 2 * codesPast counts m ≤ x) :
    x - 2 * codesPast counts m < countAt counts m ∧
      (x : Int) + (v.escBase[m]).toInt = (symbolsBefore counts m + (x - 2 * codesPast counts m) : Nat) := by
  have hin := ht.lt_length_of_matched hm hlt
  rw [ht.counted.escLimit_toInt hlen hm hin, codesPast_succ, firstCode_eq] at hlt
  rw [ht.counted.escBase_toInt hlen hm hin, firstCode_eq]
  omega

end

/-- Settles O42: a matched code lies in its width's range, whose lower end the prefix or the width before it gives. -/
theorem longCodeIndexIsInRange : Obligations.LongCodeIndexIsInRange := by
  intro v counts alphabet i x p hi hwf hbuilt hw h8 hpfx hlow hlt
  obtain ⟨hlen, hsum, -⟩ := wellFormed_vleHdr_iff.1 hwf
  have ht := hbuilt.tables
  have hin := ht.lt_length_of_matched hi hlt
  have hfirst : codesPast counts i ≤ x >>> 1 := by
    rcases Nat.eq_or_lt_of_le h8 with rfl | h9
    · have hend := ht.directEnd_le p.isLt hw
      rw [Nat.min_eq_right (by omega), directEnd] at hend
      rw [hpfx]
      simpa using hend
    · obtain ⟨m, rfl⟩ : ∃ m, i = m + 1 := ⟨i - 1, by omega⟩
      have hm := hlow m (by omega) (by omega) (Nat.lt_succ_self m)
      rw [ht.counted.escLimit_toInt hlen (by omega) (by omega), Nat.add_sub_cancel_left] at hm
      exact_mod_cast hm
  rw [Nat.shiftRight_eq_div_pow] at hfirst
  obtain ⟨hcount, hidx⟩ := ht.index_of_matched hi hlt hlen (by omega)
  have htotal := symbolsBefore_le_countSum (counts := counts) (n := i + 1) hin
  rw [symbolsBefore_succ] at htotal ⊢
  omega

/-! ### The header's meaning -/

theorem execVleHdr_eq (counts alphabet : List Byte) (s : State) :
    exec (.vleHdr counts alphabet) s = finish s ((s.vle.withCounts counts alphabet).withDirect counts >>= fun v =>
      initWindow (s.atCodes counts alphabet v)) := rfl

theorem initWindow_eq {s : State} {hi lo : Byte} (hlen : s.cur.rd + 2 ≤ s.cur.srcLen)
    (hhi : s.srcMem.read s.cur.rd = some hi) (hlo : s.srcMem.read (s.cur.rd + 1) = some lo) :
    initWindow s = .ok { s.advance 2 with
      win.word := (hi.setWidth 16 <<< 8) ||| lo.setWidth 16, win.br := 8, phase := .vdec } := by
  have h1 : readByte s = .ok (hi, s.advance 1) := readByte_ok.2 ⟨by omega, hhi, rfl⟩
  have h2 : readByte (s.advance 1) = .ok (lo, (s.advance 1).advance 1) := readByte_ok.2 ⟨hlen, hlo, rfl⟩
  rw [initWindow, h1, Sys2Proof.ok_bind]
  show (readByte (s.advance 1) >>= _) = _
  rw [h2, Sys2Proof.ok_bind]
  rfl

theorem toNat_wordOf (hi lo : Byte) : ((hi.setWidth 16 <<< 8) ||| lo.setWidth 16).toNat = hi.toNat * 256 + lo.toNat := by
  have hhi := hi.isLt
  have hlo := lo.isLt
  rw [BitVec.toNat_or, BitVec.toNat_shiftLeft, BitVec.toNat_setWidth, BitVec.toNat_setWidth, Nat.shiftLeft_eq,
    Nat.mod_eq_of_lt (by omega), Nat.mod_eq_of_lt (by omega), Nat.mod_eq_of_lt (by omega), Nat.mul_comm,
    ← Nat.two_pow_add_eq_or_of_lt (i := 8) hlo]

/-- Settles O34: the table is built, and the two window bytes are there. -/
theorem vleHeaderCompletes : Obligations.VleHeaderCompletes := by
  intro s counts alphabet hi lo hwf hfits hlen hhi hlo
  obtain ⟨hcounts, hsum, halpha⟩ := wellFormed_vleHdr_iff.1 hwf
  rcases withDirect_cases (s.vle.withCounts counts alphabet) counts with ⟨-, built, hb, -⟩ | ⟨hno, -⟩
  swap
  · exact absurd hfits hno
  have hinit := initWindow_eq (s := s.atCodes counts alphabet built) hlen hhi hlo
  refine ⟨_, by rw [execVleHdr_eq, hb, Sys2Proof.ok_bind, hinit, finish_ok], rfl, ⟨s.vle, built, _, _, hb, rfl⟩, ?_⟩
  have ht := tablesOf_of_withDirect (wo := s.cur.rd + 1) (co := s.cur.rd + 1 + counts.length + alphabet.length) hb rfl
  have hal : built.alphabet = overlay s.vle.alphabet alphabet := by
    rw [(withDirect_ok hb).2.frame, withCounts_alphabet]
  exact ⟨ht.W, ht.counted.alphabetLength_toInt hcounts, fun j h => by simp [hal], rfl, rfl, toNat_wordOf hi lo, rfl, rfl,
    rfl⟩

/-- A window byte is missing (20_memory.md R65). -/
theorem initWindow_cut {s : State} (hlen : s.cur.srcLen < s.cur.rd + 2) (hle : s.cur.rd ≤ s.cur.srcLen)
    (hw : ∀ a < s.cur.srcLen, (s.srcMem.read a).isSome = true) : initWindow s = .error (.raise .truncated) := by
  by_cases hlt : s.cur.rd < s.cur.srcLen
  · obtain ⟨b, hb⟩ := Option.isSome_iff_exists.1 (hw _ hlt)
    have h1 : readByte s = .ok (b, s.advance 1) := readByte_ok.2 ⟨hlt, hb, rfl⟩
    have h2 : readByte (s.advance 1) = .error (.raise .truncated) :=
      readByte_raise.2 ⟨by simp only [State.advance_cur]; omega, rfl⟩
    rw [initWindow, h1, Sys2Proof.ok_bind]
    exact congrArg (· >>= _) h2
  · exact congrArg (· >>= _) (readByte_raise.2 ⟨Nat.not_lt.1 hlt, rfl⟩)

/-- Settles O35: the direct table comes first, then the window bytes. -/
theorem vleHeaderMeaningErrors : Obligations.VleHeaderMeaningErrors := by
  intro s counts alphabet hwf
  rcases withDirect_cases (s.vle.withCounts counts alphabet) counts with ⟨hfits, built, hb, -⟩ | ⟨hno, he⟩
  · refine ⟨fun hno => absurd hfits hno, fun _ hlen hle hw => ?_⟩
    rw [execVleHdr_eq, hb, Sys2Proof.ok_bind, initWindow_cut (s := s.atCodes counts alphabet built) hlen hle hw,
      finish_raise]
  · refine ⟨fun _ => ?_, fun hfits => absurd hfits hno⟩
    rw [execVleHdr_eq, he]
    rfl

end Sys2Proof.Machine
end

