-- ==== Sys2Proof/Proofs/BitStream.lean ====
section
/-! The bit-stream decoder: bits as numbers, what the window's operations do to the stream, and the codes
(42_vle.md R184–R196). -/

namespace Sys2Proof.Machine

/-! ### Bits as numbers -/

@[simp] theorem length_codeBits (w v : Nat) : (codeBits w v).length = w := by simp [codeBits]

@[simp] theorem length_byteBits (b : Byte) : (byteBits b).length = 8 := length_codeBits _ _

theorem getElem_codeBits (w v i : Nat) (h : i < (codeBits w v).length) : (codeBits w v)[i] = v.testBit (w - 1 - i) := by
  simp [codeBits]

theorem codeBits_zero (v : Nat) : codeBits 0 v = [] := rfl

/-- A code's bits are those of its upper part and those of its lower part. -/
theorem codeBits_add (a b v : Nat) : codeBits (a + b) v = codeBits a (v >>> b) ++ codeBits b v := by
  refine List.ext_getElem (by simp) fun i h1 h2 => ?_
  rw [length_codeBits] at h1
  rw [getElem_codeBits]
  by_cases hi : i < a
  · rw [List.getElem_append_left (by simpa using hi), getElem_codeBits, Nat.testBit_shiftRight]
    congr 1
    omega
  · rw [List.getElem_append_right (by simpa using hi), getElem_codeBits, length_codeBits]
    congr 1
    omega

theorem codeBits_succ (n v : Nat) : codeBits (n + 1) v = v.testBit n :: codeBits n v := by
  rw [Nat.add_comm, codeBits_add]
  simp [codeBits]

theorem take_codeBits {k w : Nat} (h : k ≤ w) (v : Nat) : (codeBits w v).take k = codeBits k (v >>> (w - k)) := by
  obtain ⟨m, rfl⟩ := Nat.exists_eq_add_of_le h
  rw [codeBits_add, List.take_left' (length_codeBits _ _), Nat.add_sub_cancel_left]

theorem drop_codeBits {k w : Nat} (h : k ≤ w) (v : Nat) : (codeBits w v).drop k = codeBits (w - k) v := by
  obtain ⟨m, rfl⟩ := Nat.exists_eq_add_of_le h
  rw [codeBits_add, List.drop_left' (length_codeBits _ _), Nat.add_sub_cancel_left]

/-- Only the low `w` bits of the value count. -/
theorem codeBits_congr {w u v : Nat} (h : u % 2 ^ w = v % 2 ^ w) : codeBits w u = codeBits w v := by
  refine List.ext_getElem (by simp) fun i h1 h2 => ?_
  rw [length_codeBits] at h1
  have hlt : w - 1 - i < w := by omega
  have hbit := congrArg (fun x => Nat.testBit x (w - 1 - i)) h
  simpa [Nat.testBit_mod_two_pow, hlt, getElem_codeBits] using hbit

theorem codeBits_inj {w u v : Nat} (hu : u < 2 ^ w) (hv : v < 2 ^ w) (h : codeBits w u = codeBits w v) : u = v := by
  refine Nat.eq_of_testBit_eq fun i => ?_
  by_cases hi : i < w
  · have hget := List.getElem_of_eq h (i := w - 1 - i) (by rw [length_codeBits]; omega)
    rw [getElem_codeBits, getElem_codeBits] at hget
    rwa [show w - 1 - (w - 1 - i) = i by omega] at hget
  · have hpow : 2 ^ w ≤ 2 ^ i := Nat.pow_le_pow_right (by decide) (Nat.not_lt.1 hi)
    rw [Nat.testBit_lt_two_pow (hu.trans_le hpow), Nat.testBit_lt_two_pow (hv.trans_le hpow)]

theorem length_flatMap_byteBits (bs : List Byte) : (bs.flatMap byteBits).length = 8 * bs.length := by
  induction bs with
  | nil => rfl
  | cons b bs ih => rw [List.flatMap_cons, List.length_append, ih, length_byteBits, List.length_cons]; omega

/-- A value with a byte behind it. -/
theorem codeBits_append_byteBits (w v : Nat) (b : Byte) :
    codeBits w v ++ byteBits b = codeBits (w + 8) (v * 256 + b.toNat) := by
  have hb := b.isLt
  rw [codeBits_add, byteBits]
  congr 1
  · congr 1
    rw [Nat.shiftRight_eq_div_pow]
    omega
  · exact codeBits_congr (by omega)

/-- Bits pushed out at the top of a word are gone. -/
theorem mul_two_pow_mod_div {x k n : Nat} (h : k ≤ n) : x * 2 ^ k % 2 ^ n / 2 ^ k = x % 2 ^ (n - k) := by
  have hpow : 2 ^ n = 2 ^ (n - k) * 2 ^ k := by rw [← Nat.pow_add, Nat.sub_add_cancel h]
  rw [hpow, Nat.mul_mod_mul_right, Nat.mul_div_cancel _ (Nat.two_pow_pos k)]

theorem mul_two_pow_mod_mod {x k n : Nat} (h : k ≤ n) : x * 2 ^ k % 2 ^ n % 2 ^ k = 0 := by
  rw [Nat.mod_mod_of_dvd _ (Nat.pow_dvd_pow 2 h), Nat.mul_mod_left]

/-! ### The window and the bytes behind it -/

theorem toNat_prefixOf (word : BitVec 16) : (prefixOf word).toNat = word.toNat / 256 := by
  have h := word.isLt
  rw [prefixOf, BitVec.toNat_setWidth, BitVec.toNat_ushiftRight, Nat.shiftRight_eq_div_pow]
  exact Nat.mod_eq_of_lt (by omega)

theorem toNat_lowByteOf (word : BitVec 16) : (lowByteOf word).toNat = word.toNat % 256 := by
  rw [lowByteOf, BitVec.toNat_setWidth]

/-- The bits of the window at a code boundary, as one number. -/
def Window.value (w : Window) : Nat :=
  w.word.toNat / 2 ^ (8 - w.br)

theorem Window.AtBoundary.word_eq {w : Window} (h : w.AtBoundary) : w.word.toNat = w.value * 2 ^ (8 - w.br) := by
  rw [Window.value, Nat.div_mul_cancel (Nat.dvd_of_mod_eq_zero h.lowZero)]

theorem byteBits_take {br : Nat} (h : br ≤ 8) (b : Byte) : (byteBits b).take br = codeBits br (b.toNat / 2 ^ (8 - br)) := by
  rw [byteBits, take_codeBits h, Nat.shiftRight_eq_div_pow]

theorem State.streamBits_eq (s : State) (h : s.win.br ≤ 8) :
    s.streamBits = codeBits (8 + s.win.br) s.win.value ++ s.restBytes.flatMap byteBits := by
  have hpow : 2 ^ (8 - s.win.br) * 2 ^ s.win.br = 256 := by rw [← Nat.pow_add, Nat.sub_add_cancel h]
  rw [State.streamBits, byteBits_take h, byteBits, toNat_prefixOf, toNat_lowByteOf, codeBits_add, Window.value,
    Nat.shiftRight_eq_div_pow, Nat.div_div_eq_div_mul, hpow]
  congr 2
  refine codeBits_congr ?_
  rw [← hpow, Nat.mod_mul_right_div_self, Nat.mod_mod]

/-! ### Reading a byte -/

theorem State.restBytes_cons {s : State} {b : Byte} (hlt : s.cur.rd < s.cur.srcLen)
    (hb : s.srcMem.read s.cur.rd = some b) : s.restBytes = b :: (s.advance 1).restBytes := by
  rw [State.restBytes, State.restBytes, s.srcSlots_cons hlt, hb]
  rfl

theorem State.length_restBytes (s : State) : s.restBytes.length = s.cur.srcLen - s.cur.rd := by
  rw [State.restBytes, List.length_map, State.length_srcSlots]

theorem State.RestWritten.read {s : State} (h : s.RestWritten) (hlt : s.cur.rd < s.cur.srcLen) :
    ∃ b, s.srcMem.read s.cur.rd = some b :=
  Option.isSome_iff_exists.1 ((s.RestWritten_iff.1 h) _ (Nat.le_refl _) hlt)

/-- Behind a written rest there is a byte, or its end. -/
theorem State.RestWritten.readByte {s : State} (h : s.RestWritten) (hlt : s.cur.rd < s.cur.srcLen) :
    ∃ b, readByte s = .ok (b, s.advance 1) ∧ s.restBytes = b :: (s.advance 1).restBytes := by
  obtain ⟨b, hb⟩ := h.read hlt
  exact ⟨b, readByte_ok.2 ⟨hlt, hb, rfl⟩, State.restBytes_cons hlt hb⟩

/-- The rest of the source is a matter of the source's bytes and the read cursor. -/
theorem State.srcSlots_congr {s t : State} (hmem : t.srcMem = s.srcMem) (hcur : t.cur = s.cur) :
    t.srcSlots = s.srcSlots := by
  rw [State.srcSlots, State.srcSlots, hmem, hcur]

theorem State.restBytes_congr {s t : State} (hmem : t.srcMem = s.srcMem) (hcur : t.cur = s.cur) :
    t.restBytes = s.restBytes := by
  rw [State.restBytes, State.restBytes, State.srcSlots_congr hmem hcur]

theorem State.RestWritten.forward {s t : State} (h : s.RestWritten) (hmem : t.srcMem = s.srcMem)
    (hlen : t.cur.srcLen = s.cur.srcLen) (hrd : s.cur.rd ≤ t.cur.rd) : t.RestWritten := by
  refine t.RestWritten_iff.2 fun a h1 h2 => ?_
  rw [hmem]
  exact s.RestWritten_iff.1 h a (hrd.trans h1) (hlen ▸ h2)

theorem restBytes_append_of_out {s : State} (h : s.dest.dst = .out) (bs : List Byte) :
    (s.append bs).restBytes = s.restBytes :=
  State.restBytes_congr (srcMem_append_of_out h bs) rfl

/-! ### The window shift -/

theorem toNat_shiftLeft_word (word : BitVec 16) (k : Nat) : (word <<< k).toNat = word.toNat * 2 ^ k % 2 ^ 16 := by
  rw [BitVec.toNat_shiftLeft, Nat.shiftLeft_eq]

/-- A word that is a value shifted by `k`, its upper bits cut off, is at a boundary with `8 - k` bits in its low byte. -/
theorem atBoundary_of_word {w : Window} {x : Nat} (hbr : w.br ≤ 8)
    (hw : w.word.toNat = x * 2 ^ (8 - w.br) % 2 ^ 16) :
    w.AtBoundary ∧ codeBits (8 + w.br) w.value = codeBits (8 + w.br) x := by
  have hle : 8 - w.br ≤ 16 := by omega
  refine ⟨⟨hbr, by rw [hw, mul_two_pow_mod_mod hle]⟩, codeBits_congr ?_⟩
  rw [Window.value, hw, mul_two_pow_mod_div hle, show 16 - (8 - w.br) = 8 + w.br by omega, Nat.mod_mod]

/-- What a window shift leaves: the stream without the code's bits, at a boundary again. -/
structure Shifted (w : Nat) (s t : State) : Prop where
  boundary : t.win.AtBoundary
  cs : t.win.cs = s.win.cs
  escIndex : t.win.escIndex = s.win.escIndex
  rd : 8 * (t.cur.rd - s.cur.rd) + s.win.br = t.win.br + w
  bits : t.streamBits = s.streamBits.drop w

theorem shiftWindow_shifted {w : Nat} {s t : State} (hw : w ≤ 8) (hb : s.win.AtBoundary)
    (h : shiftWindow w s = .ok t) : Shifted w s t := by
  have hbr := hb.brLe
  have hword := hb.word_eq
  have hbits := s.streamBits_eq hbr
  unfold shiftWindow at h
  split at h
  · next hlt =>
    obtain ⟨⟨b, u⟩, hread, hu⟩ := Except.bind_eq_ok.1 h
    obtain ⟨hrd, hmem, rfl⟩ := readByte_ok.1 hread
    have hcons := State.restBytes_cons hrd hmem
    injection hu with ht
    have hbr' : t.win.br = 8 - (w - s.win.br) := by rw [← ht]
    have htword : t.win.word.toNat = (s.win.value * 256 + b.toNat) * 2 ^ (8 - t.win.br) % 2 ^ 16 := by
      have hbyte := b.isLt
      have hshift : (s.win.word <<< s.win.br).toNat = 2 ^ 8 * (s.win.value % 2 ^ 8) := by
        rw [toNat_shiftLeft_word, hword, Nat.mul_assoc, ← Nat.pow_add, Nat.sub_add_cancel hbr]
        omega
      have hor : (s.win.word <<< s.win.br ||| b.setWidth 16).toNat = 2 ^ 8 * (s.win.value % 2 ^ 8) + b.toNat := by
        rw [BitVec.toNat_or, hshift, BitVec.toNat_setWidth, Nat.mod_eq_of_lt (show b.toNat < 2 ^ 16 by omega),
          Nat.two_pow_add_eq_or_of_lt hbyte]
      rw [show 8 - t.win.br = w - s.win.br by omega, ← ht]
      show ((s.win.word <<< s.win.br ||| b.setWidth 16) <<< (w - s.win.br)).toNat = _
      rw [toNat_shiftLeft_word, hor, Nat.mul_mod, Nat.mul_mod (_ * 256 + _)]
      congr 2
      omega
    obtain ⟨hbound, hval⟩ := atBoundary_of_word (w := t.win) (by omega) htword
    have hrest : t.restBytes = (s.advance 1).restBytes := State.restBytes_congr (by rw [← ht]; rfl) (by rw [← ht])
    refine ⟨hbound, by rw [← ht]; rfl, by rw [← ht]; rfl, ?_, ?_⟩
    · rw [hbr', ← ht]
      show 8 * (s.cur.rd + 1 - s.cur.rd) + s.win.br = _
      omega
    · rw [t.streamBits_eq hbound.brLe, hval, hbits, hcons, hrest, List.flatMap_cons, ← List.append_assoc,
        codeBits_append_byteBits, List.drop_append_of_le_length (by rw [length_codeBits]; omega),
        drop_codeBits (by omega), show 8 + t.win.br = 8 + s.win.br + 8 - w by omega]
  · next hge =>
    injection h with ht
    have hbr' : t.win.br = s.win.br - w := by rw [← ht]
    have htword : t.win.word.toNat = s.win.value * 2 ^ (8 - t.win.br) % 2 ^ 16 := by
      rw [show 8 - t.win.br = 8 - s.win.br + w by omega, ← ht]
      show (s.win.word <<< w).toNat = _
      rw [toNat_shiftLeft_word, hword, Nat.mul_assoc, ← Nat.pow_add]
    obtain ⟨hbound, hval⟩ := atBoundary_of_word (w := t.win) (by omega) htword
    have hrest : t.restBytes = s.restBytes := State.restBytes_congr (by rw [← ht]; rfl) (by rw [← ht])
    refine ⟨hbound, by rw [← ht], by rw [← ht], ?_, ?_⟩
    · rw [hbr', ← ht]
      show 8 * (s.cur.rd - s.cur.rd) + s.win.br = _
      omega
    · rw [t.streamBits_eq hbound.brLe, hval, hbits, hrest, List.drop_append_of_le_length (by rw [length_codeBits]; omega),
        drop_codeBits (by omega), show 8 + t.win.br = 8 + s.win.br - w by omega]

theorem shiftWindow_ok {w : Nat} {s : State} (hrest : s.RestWritten) (hlen : w ≤ s.win.br ∨ s.cur.rd < s.cur.srcLen) :
    ∃ t, shiftWindow w s = .ok t := by
  by_cases hlt : s.win.br < w
  · obtain ⟨b, hread, -⟩ := hrest.readByte (hlen.resolve_left (Nat.not_le.2 hlt))
    exact ⟨_, by rw [shiftWindow, if_pos hlt, hread]; rfl⟩
  · exact ⟨_, by rw [shiftWindow, if_neg hlt]⟩

/-! ### Short codes -/

theorem onlyStreams_of_same {s t : State} {bs : List Byte} (h : SameButWindow (s.append bs) t) (hp : t.phase = s.phase) :
    OnlyStreams s t :=
  ⟨h.cfg, hp, h.src, h.srcLen, by simp [h.dest], by simp [h.dest], h.pass, h.vle, h.host, by simp [h.buf],
    by simp [h.buf], by simp [h.buf]⟩

theorem emittedOut_of_same {s t : State} {b : Byte} (h : SameButWindow (s.append [b]) t) (hdst : s.dest.dst = .out) :
    EmittedOut b s t := by
  constructor
  · simp [h.dest, Dest.wrote_out _ _ hdst]
  · simp [h.dest, Dest.wrote_out _ _ hdst]
  · simp [h.buf, Buffers.wrote_out _ _ _ hdst]
  · intro a
    simp [h.buf, Buffers.wrote_out _ _ _ hdst, Memory.read_store_singleton]

section
variable {s : State} (hdst : s.dest.dst = .out) (hlt : s.dest.wr < s.dest.dstLen)
include hdst hlt

theorem emit_singleton (b : Byte) : emit [b] s = .ok (s.append [b]) :=
  emit_ok.2 ⟨by rw [State.wrCursor_out hdst]; exact hlt, rfl⟩

omit hlt in
theorem full_append_iff (b : Byte) :
    (s.append [b]).dest.wr = (s.append [b]).dest.dstLen ↔ s.dest.wr + 1 = s.dest.dstLen := by
  simp [Dest.wrote_out _ _ hdst]

/-- The meaning of a short code where there is room for its symbol. -/
theorem shortCode_eq (w : Nat) (pfx : Byte) :
    shortCode w pfx s = finish s
      (if s.dest.wr + 1 = s.dest.dstLen then .ok (s.append [s.vle.symbols[pfx.toNat]'pfx.isLt])
       else shiftWindow w (s.append [s.vle.symbols[pfx.toNat]'pfx.isLt])) := by
  rw [shortCode, emit_singleton hdst hlt, Sys2Proof.ok_bind]
  congr 1
  exact if_congr (full_append_iff hdst _) rfl rfl

end

theorem width_of_shortLayout {i : Instr} {w : Nat} {pfx : Byte} (h : shortLayout i = some (w, pfx)) :
    1 ≤ w ∧ w ≤ 8 := by
  cases i <;> simp [shortLayout] at h <;> omega

theorem streamBits_append_of_out {s : State} (h : s.dest.dst = .out) (bs : List Byte) :
    (s.append bs).streamBits = s.streamBits := by
  rw [State.streamBits, State.streamBits, restBytes_append_of_out h]
  rfl

/-- Settles O37: the symbol is emitted, and the shift drops the code unless the output is full. -/
theorem shortCodesComplete : Obligations.ShortCodesComplete := by
  intro s i w pfx hi hdst hlt hb hrest hlen
  rw [exec_short hi, shortCode_eq hdst hlt]
  generalize hsym : s.vle.symbols[pfx.toNat]'pfx.isLt = b
  by_cases hfull : s.dest.wr + 1 = s.dest.dstLen
  · rw [if_pos hfull]
    have hsame := SameButWindow.refl (s.append [b])
    exact ⟨s.append [b], finish_ok _ _, onlyStreams_of_same hsame rfl, rfl, emittedOut_of_same hsame hdst,
      fun _ => ⟨rfl, rfl⟩, fun hne => absurd hfull hne⟩
  · rw [if_neg hfull]
    have hrest' : (s.append [b]).RestWritten :=
      hrest.forward (srcMem_append_of_out hdst _) rfl (Nat.le_refl _)
    obtain ⟨t, ht⟩ := shiftWindow_ok (s := s.append [b]) hrest' (hlen.resolve_left hfull)
    have hs := shiftWindow_shifted (s := s.append [b]) (width_of_shortLayout hi).2 hb ht
    obtain ⟨hsame, hp⟩ := shiftWindow_same ht
    refine ⟨t, by rw [ht, finish_ok], onlyStreams_of_same hsame hp, hsame.rle, emittedOut_of_same hsame hdst,
      fun hf => absurd hf hfull, fun _ => ⟨hs.boundary, hs.cs, hs.escIndex, hsame.rdLe, hs.rd, ?_⟩⟩
    rw [hs.bits, streamBits_append_of_out hdst]

end Sys2Proof.Machine
end

