-- ==== Sys2Proof/Proofs/LongCodes.lean ====
section
/-! The escape loop and the reload behind it: what they read from the stream, the four ways a long code ends, and the
canonical code, short or long, in one step (42_vle.md R187–R196). -/

namespace Sys2Proof.Machine

/-! ### The bits an escape loop reads -/

/-- The bits a long code reads after its prefix: what is left in the bit source, then the bytes not yet read. -/
def State.escBits (s : State) : List Bool :=
  (byteBits s.win.cs).take s.win.br ++ s.restBytes.flatMap byteBits

/-- The bit source of a long code holds `br` bits, and those below them are 0. -/
structure Window.AtBit (w : Window) : Prop where
  brLe : w.br ≤ 8
  csLow : w.cs.toNat % 2 ^ (8 - w.br) = 0

/-- Between two bits of a long code, with the bytes behind the bit source written. -/
structure EscReady (s : State) : Prop extends s.win.AtBit where
  rest : s.RestWritten

theorem State.length_escBits {s : State} (h : s.win.br ≤ 8) :
    s.escBits.length = s.win.br + 8 * (s.cur.srcLen - s.cur.rd) := by
  rw [State.escBits, List.length_append, byteBits_take h, length_codeBits, length_flatMap_byteBits, State.length_restBytes]

/-- The entry of a long code leaves the stream behind the prefix to the escape loop (42_vle.md R187). -/
theorem streamBits_eq_escBits (s : State) (pfx : Byte) :
    s.streamBits = byteBits (prefixOf s.win.word) ++ (enterLong pfx s).escBits :=
  List.append_assoc _ _ _

theorem atBit_enterLong {s : State} (hb : s.win.AtBoundary) (pfx : Byte) : (enterLong pfx s).win.AtBit := by
  have hdvd : 2 ^ (8 - s.win.br) ∣ 256 := Nat.pow_dvd_pow 2 (Nat.sub_le 8 s.win.br)
  refine ⟨hb.brLe, ?_⟩
  show (lowByteOf s.win.word).toNat % 2 ^ (8 - s.win.br) = 0
  rw [toNat_lowByteOf, Nat.mod_mod_of_dvd _ hdvd, hb.lowZero]

theorem escReady_enterLong {s : State} (hb : s.win.AtBoundary) (hrest : s.RestWritten) (pfx : Byte) :
    EscReady (enterLong pfx s) :=
  ⟨atBit_enterLong hb pfx, hrest⟩

/-! ### One iteration -/

theorem highBit_eq_testBit (b : Byte) : highBit b = b.toNat.testBit 7 := rfl

/-- The top bit of the bit source, and the source without it. -/
theorem byteBits_shift (b : Byte) : ∃ tl, byteBits b = highBit b :: tl ∧ byteBits (b <<< 1) = tl ++ [false] := by
  have hb := b.isLt
  refine ⟨codeBits 7 b.toNat, by rw [byteBits, codeBits_succ, highBit_eq_testBit], ?_⟩
  rw [byteBits, codeBits_add 7 1, BitVec.toNat_shiftLeft, Nat.shiftLeft_eq]
  congr 1
  · exact codeBits_congr (by rw [Nat.shiftRight_eq_div_pow]; omega)
  · simp [codeBits]

/-- What one iteration of the escape loop reads: the next bit, into the low end of `word` (42_vle.md R188, R189). -/
structure EscStep (b : Bool) (s u : State) : Prop where
  same : SameButWindow s u
  phase : u.phase = s.phase
  ready : EscReady u
  brLe : u.win.br ≤ 7
  rd : 8 * (u.cur.rd - s.cur.rd) + s.win.br = u.win.br + 1
  escIndex : u.win.escIndex = s.win.escIndex + 1
  word : s.win.word.toNat < 2 ^ 15 → u.win.word.toNat = 2 * s.win.word.toNat + b.toNat

theorem word_escBit (word : BitVec 16) (b : Bool) (h : word.toNat < 2 ^ 15) :
    ((word <<< 1) ||| (BitVec.ofBool b).setWidth 16).toNat = 2 * word.toNat + b.toNat := by
  have hb : b.toNat < 2 ^ 1 := Bool.toNat_lt b
  have hbool : ((BitVec.ofBool b).setWidth 16).toNat = b.toNat := by cases b <;> rfl
  have hshift : (word <<< 1).toNat = 2 ^ 1 * word.toNat := by
    rw [toNat_shiftLeft_word, Nat.mod_eq_of_lt (by omega), Nat.mul_comm]
  rw [BitVec.toNat_or, hshift, hbool, ← Nat.two_pow_add_eq_or_of_lt hb, Nat.pow_one]

theorem atBit_escBit {s : State} (h : s.win.AtBit) (hbr : 1 ≤ s.win.br) : (escBit s).win.AtBit := by
  have hbr' := h.brLe
  have hpow : 2 ^ (8 - (s.win.br - 1)) = 2 ^ (8 - s.win.br) * 2 := by rw [← Nat.pow_succ]; congr 1; omega
  have hdvd : 2 ^ (8 - s.win.br) * 2 ∣ 2 ^ 8 := hpow ▸ Nat.pow_dvd_pow 2 (by omega)
  refine ⟨by simp only [escBit_win]; omega, ?_⟩
  show (s.win.cs <<< 1).toNat % 2 ^ (8 - (s.win.br - 1)) = 0
  rw [hpow, BitVec.toNat_shiftLeft, Nat.shiftLeft_eq, Nat.pow_one, Nat.mod_mod_of_dvd _ hdvd, Nat.mul_mod_mul_right,
    h.csLow]

/-- The bit step takes the first of the bits the source holds. -/
theorem escStep_escBit {s : State} (h : EscReady s) (hbr : 1 ≤ s.win.br) :
    EscStep (highBit s.win.cs) s (escBit s) ∧ s.escBits = highBit s.win.cs :: (escBit s).escBits := by
  have hbr' := h.brLe
  obtain ⟨n, hn⟩ := Nat.exists_eq_add_of_le' hbr
  refine ⟨⟨escBit_same s, rfl, ⟨atBit_escBit h.toAtBit hbr, h.rest⟩, ?_, ?_, rfl, fun hlt => word_escBit _ _ hlt⟩, ?_⟩
  · simp only [escBit_win]; omega
  · simp only [escBit_win, escBit_cur]; omega
  · obtain ⟨tl, htl, htl'⟩ := byteBits_shift s.win.cs
    have hlen : tl.length = 7 := by have := congrArg List.length htl; simpa using this.symm
    have hrest : (escBit s).restBytes = s.restBytes := State.restBytes_congr rfl rfl
    rw [State.escBits, State.escBits, hrest]
    show (byteBits s.win.cs).take s.win.br ++ _ = _ :: ((byteBits (s.win.cs <<< 1)).take (s.win.br - 1) ++ _)
    rw [htl, htl', hn, List.take_succ_cons, Nat.add_sub_cancel, List.take_append_of_le_length (by omega),
      List.cons_append]

/-- The refill keeps the bits below those it holds at 0. -/
theorem atBit_escRefill {s t : State} (h : s.win.AtBit) (ht : escRefill s = .ok t) : t.win.AtBit := by
  unfold escRefill at ht
  split at ht
  · obtain ⟨⟨b, u⟩, -, hu⟩ := Except.bind_eq_ok.1 ht
    injection hu with hu
    subst hu
    exact ⟨Nat.le_refl 8, Nat.mod_one _⟩
  · injection ht with ht
    exact ht ▸ h

/-- The refill, where the bit source is empty, takes the next byte for the bit source. -/
theorem escRefill_ok {s : State} (h : EscReady s) (hne : s.escBits ≠ []) :
    ∃ t, escRefill s = .ok t ∧ SameButWindow s t ∧ t.phase = s.phase ∧ EscReady t ∧ 1 ≤ t.win.br ∧
      t.escBits = s.escBits ∧ 8 * (t.cur.rd - s.cur.rd) + s.win.br = t.win.br ∧
      t.win.word = s.win.word ∧ t.win.escIndex = s.win.escIndex := by
  by_cases hbr : s.win.br = 0
  · have hlt : s.cur.rd < s.cur.srcLen := Nat.not_le.1 fun hle => hne (List.length_eq_zero_iff.1 (by
      rw [State.length_escBits h.brLe]; omega))
    obtain ⟨b, hread, hcons⟩ := h.rest.readByte hlt
    let t : State := { s.advance 1 with win.cs := b, win.br := 8 }
    have ht : escRefill s = .ok t := by rw [escRefill, if_pos hbr, hread]; rfl
    obtain ⟨hsame, hp, hword, hidx, hbr'⟩ := escRefill_same ht
    refine ⟨t, ht, hsame, hp, ⟨atBit_escRefill h.toAtBit ht, h.rest.forward hsame.srcMem hsame.srcLen hsame.rdLe⟩, hbr',
      ?_, ?_, hword, hidx⟩
    · rw [State.escBits, State.escBits, hbr, hcons]
      exact congrArg (· ++ _) (List.take_of_length_le (length_byteBits b).le)
    · show 8 * (s.cur.rd + 1 - s.cur.rd) + s.win.br = 8
      omega
  · exact ⟨s, by rw [escRefill, if_neg hbr], SameButWindow.refl s, rfl, h, Nat.pos_of_ne_zero hbr, rfl, by omega, rfl, rfl⟩

/-- One iteration, where the stream has a bit. -/
theorem escStep_of_cons {s : State} {b : Bool} {bits : List Bool} (h : EscReady s) (hbits : s.escBits = b :: bits) :
    ∃ t, escRefill s = .ok t ∧ EscStep b s (escBit t) ∧ (escBit t).escBits = bits := by
  obtain ⟨t, ht, hsame, hp, hready, hbr, hesc, hrd, hword, hidx⟩ := escRefill_ok h (by simp [hbits])
  obtain ⟨hstep, hcons⟩ := escStep_escBit hready hbr
  rw [hesc, hbits] at hcons
  injection hcons with hb htl
  refine ⟨t, ht, ⟨hsame.trans hstep.same, hstep.phase.trans hp, hstep.ready, hstep.brLe, ?_, ?_, ?_⟩, htl.symm⟩
  · have h1 := hstep.rd
    have h2 := hsame.rdLe
    have h3 := hstep.same.rdLe
    omega
  · rw [hstep.escIndex, hidx]
  · rw [hb, ← hword]
    exact hstep.word

/-- An iteration after its bit step: a match, no match, or the width limit (42_vle.md R190, R191). -/
def escJudge (fuel : Nat) (u : State) : Except Stop State :=
  if h : u.win.escIndex < escIndexLimit then
    if (u.win.word.toNat : Int) < (u.vle.escLimit[u.win.escIndex]).toInt then
      if h : (u.win.word + (u.vle.escBase[u.win.escIndex]).setWidth 16).toNat < 256 then
        emit [u.vle.alphabet[(u.win.word + (u.vle.escBase[u.win.escIndex]).setWidth 16).toNat]] u
      else .error (.raise .badVLECode)
    else escapeLoop fuel u
  else .error (.raise .badVLECode)

theorem escapeLoop_succ (fuel : Nat) (s : State) :
    escapeLoop (fuel + 1) s = escRefill s >>= fun t => escJudge fuel (escBit t) := rfl

theorem escapeLoop_of_refill {fuel : Nat} {s t : State} (h : escRefill s = .ok t) :
    escapeLoop (fuel + 1) s = escJudge fuel (escBit t) := by
  rw [escapeLoop_succ, h, Sys2Proof.ok_bind]

/-- The 16-bit sum of a code and its width's base is the alphabet index. -/
theorem toNat_word_add_base {word : BitVec 16} {base : Reg32} {idx : Nat} (hidx : idx < 256)
    (h : (word.toNat : Int) + base.toInt = idx) : (word + base.setWidth 16).toNat = idx := by
  have hword := word.isLt
  have hbase := base.isLt
  rw [BitVec.toInt_eq_toNat_cond] at h
  rw [BitVec.toNat_add, BitVec.toNat_setWidth]
  split at h <;> omega

section
variable {u : State} {m : Nat} (hm : u.win.escIndex = m) (h16 : m < 16) (fuel : Nat)
include hm

theorem escJudge_unmatched (hle : (u.vle.escLimit[m]).toInt ≤ u.win.word.toNat) :
    escJudge fuel u = escapeLoop fuel u := by
  subst hm
  rw [escJudge, dif_pos h16, if_neg (Int.not_lt.2 hle)]

theorem escJudge_limit (hge : 16 ≤ m) : escJudge fuel u = .error (.raise .badVLECode) := by
  subst hm
  exact dif_neg (Nat.not_lt.2 hge)

theorem escJudge_matched {idx : Nat} (hidx : idx < 256) (hlt : (u.win.word.toNat : Int) < (u.vle.escLimit[m]).toInt)
    (hbase : (u.win.word.toNat : Int) + (u.vle.escBase[m]).toInt = idx) :
    escJudge fuel u = emit [u.vle.alphabet[idx]] u := by
  subst hm
  have hsum := toNat_word_add_base hidx hbase
  rw [escJudge, dif_pos h16, if_pos hlt, dif_pos (by omega)]
  simp only [hsum]

end

/-! ### Several iterations -/

/-- The first `n` of the bits an escape loop meets were read and matched no width. -/
structure EscRun (n : Nat) (s u : State) : Prop where
  same : SameButWindow s u
  phase : u.phase = s.phase
  ready : EscReady u
  rd : 8 * (u.cur.rd - s.cur.rd) + s.win.br = u.win.br + n
  escIndex : u.win.escIndex = s.win.escIndex + n

theorem EscRun.refl {s : State} (h : EscReady s) : EscRun 0 s s :=
  ⟨SameButWindow.refl s, rfl, h, by omega, rfl⟩

theorem EscStep.then {b : Bool} {n : Nat} {s u v : State} (h : EscStep b s u) (g : EscRun n u v) : EscRun (n + 1) s v := by
  refine ⟨h.same.trans g.same, g.phase.trans h.phase, g.ready, ?_, ?_⟩
  · have h1 := h.rd
    have h2 := g.rd
    have h3 := h.same.rdLe
    have h4 := g.same.rdLe
    omega
  · rw [g.escIndex, h.escIndex]; omega

theorem EscRun.then {b : Bool} {n : Nat} {s u v : State} (h : EscRun n s u) (g : EscStep b u v) : EscRun (n + 1) s v := by
  refine ⟨h.same.trans g.same, g.phase.trans h.phase, g.ready, ?_, ?_⟩
  · have h1 := h.rd
    have h2 := g.rd
    have h3 := h.same.rdLe
    have h4 := g.same.rdLe
    omega
  · rw [g.escIndex, h.escIndex]; omega

theorem shiftRight_eq_succ (v n : Nat) : v >>> n = 2 * (v >>> (n + 1)) + (v.testBit n).toNat := by
  rw [Nat.shiftRight_succ, Nat.toNat_testBit, ← Nat.shiftRight_eq_div_pow]
  omega

/-- `n` iterations that match no width: `word` takes the bits in, and the loop goes on from there. The bits read are the
upper `n` of the low `n + r` bits of `v`. -/
theorem escapeLoop_run {s : State} (n r : Nat) {v fuel : Nat} {tail : List Bool} (hready : EscReady s)
    (hbits : s.escBits = codeBits (n + r) v ++ tail) (hword : s.win.word.toNat = v >>> (n + r))
    (hsmall : v >>> r < 2 ^ 16) (hidx : s.win.escIndex + n < 16)
    (hno : ∀ k (h : s.win.escIndex + 1 + k < 16), k < n →
      (s.vle.escLimit[s.win.escIndex + 1 + k]).toInt ≤ ((v >>> (r + (n - 1 - k)) : Nat) : Int)) :
    ∃ u, escapeLoop (fuel + n) s = escapeLoop fuel u ∧ EscRun n s u ∧ u.escBits = codeBits r v ++ tail ∧
      u.win.word.toNat = v >>> r := by
  induction n generalizing s with
  | zero =>
    rw [Nat.zero_add] at hbits hword
    exact ⟨s, rfl, EscRun.refl hready, hbits, hword⟩
  | succ n ih =>
    have hnr : n + 1 + r = n + r + 1 := by omega
    rw [hnr, codeBits_succ, List.cons_append] at hbits
    obtain ⟨t, ht, hstep, htail⟩ := escStep_of_cons hready hbits
    have hhalf : s.win.word.toNat < 2 ^ 15 := by
      have hle : v >>> (n + 1 + r) ≤ v >>> (r + 1) := by
        rw [show n + 1 + r = r + 1 + n by omega, Nat.shiftRight_add]
        exact Nat.shiftRight_le _ _
      have := shiftRight_eq_succ v r
      omega
    have hword' : (escBit t).win.word.toNat = v >>> (n + r) := by
      rw [hstep.word hhalf, hword, hnr, shiftRight_eq_succ v (n + r)]
    have hlim := hno 0 (by omega) (Nat.succ_pos n)
    rw [show r + (n + 1 - 1 - 0) = n + r by omega] at hlim
    have hjudge := escJudge_unmatched (m := s.win.escIndex + 1) hstep.escIndex (by omega) (fuel + n)
      (by rw [hstep.same.vle, hword']; exact hlim)
    obtain ⟨u, hu, hrun, hubits, huword⟩ := ih hstep.ready htail hword' (by rw [hstep.escIndex]; omega)
      (fun k hk hkn => by
        have hk' := hno (k + 1) (by rw [hstep.escIndex] at hk; omega) (by omega)
        rw [hstep.same.vle]
        simp only [hstep.escIndex] at hk ⊢
        rw [show r + (n + 1 - 1 - (k + 1)) = r + (n - 1 - k) by omega] at hk'
        simpa only [show s.win.escIndex + 1 + (k + 1) = s.win.escIndex + 1 + 1 + k by omega] using hk')
    refine ⟨u, ?_, hstep.then hrun, hubits, huword⟩
    rw [← Nat.add_assoc, escapeLoop_of_refill ht, hjudge, hu]

/-- The entry of a long code: what a prefix and the bits behind it say of the state after it. -/
theorem enterLong_bits {s : State} {n v : Nat} {tail : List Bool} (hv : v < 2 ^ (8 + n))
    (hbits : s.streamBits = codeBits (8 + n) v ++ tail) :
    (prefixOf s.win.word).toNat = v >>> n ∧
      (enterLong (prefixOf s.win.word) s).escBits = codeBits n v ++ tail ∧
      (enterLong (prefixOf s.win.word) s).win.word.toNat = v >>> n := by
  rw [streamBits_eq_escBits s (prefixOf s.win.word), codeBits_add, List.append_assoc] at hbits
  obtain ⟨hpre, hesc⟩ := List.append_inj hbits (by simp)
  have hshift : v >>> n < 2 ^ 8 := by
    rw [Nat.shiftRight_eq_div_pow]
    exact Nat.div_lt_of_lt_mul (by rwa [← Nat.pow_add, Nat.add_comm n 8])
  have hp : (prefixOf s.win.word).toNat = v >>> n := codeBits_inj (BitVec.isLt _) hshift hpre
  refine ⟨hp, hesc, ?_⟩
  rw [enterLong_win, BitVec.toNat_setWidth, hp]
  exact Nat.mod_eq_of_lt (by omega)

/-- The escape loop on a code of width `i + 1` that matches there and at no smaller width. -/
theorem escapeLoop_matched {s : State} {i v : Nat} (h : i < 16) (idx : Fin 256) {tail : List Bool} (h8 : 8 ≤ i)
    (hv : v < 2 ^ (i + 1)) (hb : s.win.AtBoundary) (hrest : s.RestWritten)
    (hbits : s.streamBits = codeBits (i + 1) v ++ tail)
    (hno : ∀ m (hm : m < 16), 8 ≤ m → m < i → (s.vle.escLimit[m]).toInt ≤ ((v >>> (i - m) : Nat) : Int))
    (hlt : (v : Int) < (s.vle.escLimit[i]).toInt) (hbase : (v : Int) + (s.vle.escBase[i]).toInt = idx.val) :
    ∃ u, escapeLoop 9 (enterLong (prefixOf s.win.word) s) = emit [s.vle.alphabet[idx.val]] u ∧
      EscRun (i - 7) (enterLong (prefixOf s.win.word) s) u ∧ u.escBits = tail ∧ u.win.word.toNat = v ∧
      u.win.br ≤ 7 := by
  obtain ⟨n, rfl⟩ := Nat.exists_eq_add_of_le h8
  rw [show 8 + n + 1 = 8 + (n + 1) by omega] at hv hbits
  obtain ⟨-, hesc, hword⟩ := enterLong_bits hv hbits
  have hsmall : v < 2 ^ 16 := hv.trans_le (Nat.pow_le_pow_right (by decide) (by omega))
  have hhalf : v >>> 1 < 2 ^ 15 := by rw [Nat.shiftRight_eq_div_pow]; omega
  obtain ⟨t, ht, hrun, htbits, htword⟩ := escapeLoop_run n 1 (fuel := 9 - n) (escReady_enterLong hb hrest _) hesc hword
    (by omega) (by show 7 + n < 16; omega)
    (fun k hk hkn => by
      have hm := hno (8 + k) (by omega) (by omega) (by omega)
      rw [show 8 + n - (8 + k) = 1 + (n - 1 - k) by omega] at hm
      exact hm)
  rw [codeBits_succ, codeBits_zero, List.cons_append, List.nil_append] at htbits
  obtain ⟨w, hw, hstep, hwbits⟩ := escStep_of_cons hrun.ready htbits
  have hu := hrun.then hstep
  have huword : (escBit w).win.word.toNat = v := by
    rw [hstep.word (by omega), htword]
    exact (shiftRight_eq_succ v 0).symm
  have huvle : (escBit w).vle = s.vle := hu.same.vle
  have hidx : (escBit w).win.escIndex = 8 + n := by rw [hu.escIndex]; show 7 + (n + 1) = _; omega
  refine ⟨escBit w, ?_, by rwa [show 8 + n - 7 = n + 1 by omega], hwbits, huword, hstep.brLe⟩
  rw [show 9 - n + n = 9 by omega] at ht
  rw [ht, show 9 - n = 8 - n + 1 by omega, escapeLoop_of_refill hw,
    escJudge_matched hidx h _ idx.isLt (by rw [huvle, huword]; exact hlt) (by rw [huvle, huword]; exact hbase), huvle]

/-! ### The reload -/

/-- The window is reloaded from the bits left and the next byte (42_vle.md R192). -/
structure Reloaded (s t : State) : Prop where
  boundary : t.win.AtBoundary
  bits : t.streamBits = s.escBits
  br : t.win.br = s.win.br
  cs : t.win.cs = s.win.cs
  escIndex : t.win.escIndex = s.win.escIndex
  rd : t.cur.rd = s.cur.rd + 1

theorem reloadWindow_reloaded {s t : State} (h : s.win.AtBit) (hok : reloadWindow s = .ok t) : Reloaded s t := by
  have hbr := h.brLe
  obtain ⟨⟨b, u⟩, hread, hu⟩ := Except.bind_eq_ok.1 hok
  obtain ⟨hlt, hmem, rfl⟩ := readByte_ok.1 hread
  have hcons := State.restBytes_cons hlt hmem
  injection hu with ht
  have hbr' : t.win.br = s.win.br := by
    rw [← ht]
    show 8 - (8 - s.win.br) = _
    omega
  obtain ⟨c, hc⟩ := Nat.dvd_of_mod_eq_zero h.csLow
  have hpow : 2 ^ (8 - s.win.br) * 2 ^ s.win.br = 2 ^ 8 := by rw [← Nat.pow_add, Nat.sub_add_cancel hbr]
  have hcs := s.win.cs.isLt
  have hbyte := b.isLt
  have hshift : (s.win.cs.setWidth 16 <<< s.win.br).toNat = 2 ^ 8 * c := by
    have hle : 1 * c ≤ 2 ^ (8 - s.win.br) * c := Nat.mul_le_mul_right c (Nat.two_pow_pos _)
    rw [toNat_shiftLeft_word, BitVec.toNat_setWidth, Nat.mod_eq_of_lt (show s.win.cs.toNat < 2 ^ 16 by omega), hc,
      Nat.mul_right_comm, hpow, Nat.mod_eq_of_lt (by omega)]
  have hor : (s.win.cs.setWidth 16 <<< s.win.br ||| b.setWidth 16).toNat = c * 256 + b.toNat := by
    rw [BitVec.toNat_or, hshift, BitVec.toNat_setWidth, Nat.mod_eq_of_lt (show b.toNat < 2 ^ 16 by omega),
      ← Nat.two_pow_add_eq_or_of_lt hbyte, Nat.mul_comm]
  have htword : t.win.word.toNat = (c * 256 + b.toNat) * 2 ^ (8 - t.win.br) % 2 ^ 16 := by
    rw [hbr', ← hor, ← ht]
    exact toNat_shiftLeft_word _ _
  obtain ⟨hbound, hval⟩ := atBoundary_of_word (w := t.win) (hbr'.trans_le hbr) htword
  have hrest : t.restBytes = (s.advance 1).restBytes := State.restBytes_congr (by rw [← ht]; rfl) (by rw [← ht])
  have hcval : s.win.cs.toNat / 2 ^ (8 - s.win.br) = c := by rw [hc, Nat.mul_div_cancel_left _ (Nat.two_pow_pos _)]
  refine ⟨hbound, ?_, hbr', by rw [← ht]; rfl, by rw [← ht]; rfl, by rw [← ht]; rfl⟩
  rw [t.streamBits_eq hbound.brLe, hval, hbr', State.escBits, byteBits_take hbr, hcval, hrest, hcons, List.flatMap_cons,
    ← List.append_assoc, codeBits_append_byteBits, Nat.add_comm 8]

theorem reloadWindow_ok {s : State} (hrest : s.RestWritten) (hlt : s.cur.rd < s.cur.srcLen) :
    ∃ t, reloadWindow s = .ok t := by
  obtain ⟨b, hread, -⟩ := hrest.readByte hlt
  exact ⟨_, by rw [reloadWindow, hread]; rfl⟩

/-! ### The four ends of a long code -/

theorem execVleLong_eq (pfx : Byte) (s : State) :
    exec (.vleLong pfx) s = finish s (escapeLoop 9 (enterLong pfx s) >>= fun t =>
      if t.dest.wr = t.dest.dstLen then .ok t else reloadWindow t) := rfl

theorem escBits_append_of_out {s : State} (h : s.dest.dst = .out) (bs : List Byte) :
    (s.append bs).escBits = s.escBits := by
  rw [State.escBits, State.escBits, restBytes_append_of_out h]
  rfl

theorem EscReady.append {s : State} (h : EscReady s) (hdst : s.dest.dst = .out) (bs : List Byte) :
    EscReady (s.append bs) :=
  ⟨h.toAtBit, h.rest.forward (srcMem_append_of_out hdst _) rfl (Nat.le_refl _)⟩

section
variable {s : State} {i v : Nat} {h : i < 16} {idx : Fin 256} {tail : List Bool} (h8 : 8 ≤ i)
  (hv : v < 2 ^ (i + 1)) (hdst : s.dest.dst = .out) (hroom : s.dest.wr < s.dest.dstLen)
  (hb : s.win.AtBoundary) (hrest : s.RestWritten) (hbits : s.streamBits = codeBits (i + 1) v ++ tail)
  (hno : ∀ m (hm : m < 16), 8 ≤ m → m < i → (s.vle.escLimit[m]).toInt ≤ ((v >>> (i - m) : Nat) : Int))
  (hlt : (v : Int) < (s.vle.escLimit[i]).toInt) (hbase : (v : Int) + (s.vle.escBase[i]).toInt = idx.val)
include h8 hv hdst hroom hb hrest hbits hno hlt hbase

/-- A matched code is emitted, and what remains is the reload where the output is not full. -/
theorem exec_vleLong_matched : ∃ u, exec (.vleLong (prefixOf s.win.word)) s = finish s
      (if s.dest.wr + 1 = s.dest.dstLen then .ok (u.append [s.vle.alphabet[idx.val]])
       else reloadWindow (u.append [s.vle.alphabet[idx.val]])) ∧
    SameButWindow s u ∧ u.phase = s.phase ∧ EscReady u ∧ u.escBits = tail ∧ u.win.word.toNat = v ∧ u.win.br ≤ 7 ∧
    u.win.escIndex = i ∧ 8 * (u.cur.rd - s.cur.rd) + s.win.br = u.win.br + (i - 7) := by
  obtain ⟨u, hu, hrun, htail, hword, hbr⟩ := escapeLoop_matched h idx h8 hv hb hrest hbits hno hlt hbase
  have hsame : SameButWindow s u := (enterLong_same _ s).trans hrun.same
  have hud : u.dest.dst = .out := by rw [hsame.dest, hdst]
  have hemit := emit_singleton hud (by rw [hsame.dest]; exact hroom) s.vle.alphabet[idx.val]
  refine ⟨u, ?_, hsame, hrun.phase, hrun.ready, htail, hword, hbr, ?_, hrun.rd⟩
  · rw [execVleLong_eq, hu, hemit, Sys2Proof.ok_bind]
    congr 1
    exact if_congr ((full_append_iff hud _).trans (by rw [hsame.dest])) rfl rfl
  · rw [hrun.escIndex]; show 7 + (i - 7) = i; omega

end

/-- Settles O38: the escape loop matches at the code's width, and the reload follows unless the output is full. -/
theorem longCodeCompletes : Obligations.LongCodeCompletes := by
  rintro s i v h idx h8 hv hdst hroom hb hrest ⟨tail, hbits⟩ hmore hno hlt hbase
  obtain ⟨u, hx, hsame, hp, hready, htail, hword, hbr, hidx, hrd⟩ :=
    exec_vleLong_matched h8 hv hdst hroom hb hrest hbits.symm hno hlt hbase
  have hud : u.dest.dst = .out := by rw [hsame.dest, hdst]
  have hdrop : s.streamBits.drop (i + 1) = tail := by rw [← hbits, List.drop_left' (length_codeBits _ _)]
  have hsame' := hsame.append [s.vle.alphabet[idx.val]]
  by_cases hfull : s.dest.wr + 1 = s.dest.dstLen
  · rw [if_pos hfull] at hx
    refine ⟨_, hx, onlyStreams_of_same hsame' hp, hsame.rle, emittedOut_of_same hsame' hdst, hidx, hsame.rdLe, hbr,
      hready.csLow, fun _ => ⟨hword, hrd, ?_⟩, fun hne => absurd hfull hne⟩
    rw [hdrop, ← htail]
    exact escBits_append_of_out hud _
  · rw [if_neg hfull] at hx
    have hready' := hready.append hud [s.vle.alphabet[idx.val]]
    have hbyte : u.cur.rd < u.cur.srcLen := by
      have hlen := hmore.resolve_left hfull
      rw [← hbits, List.length_append, length_codeBits, ← htail, State.length_escBits hready.brLe] at hlen
      omega
    obtain ⟨t, ht⟩ := reloadWindow_ok hready'.rest hbyte
    have hload := reloadWindow_reloaded hready'.toAtBit ht
    obtain ⟨hrel, hrelp⟩ := reloadWindow_same ht
    have hall := hsame'.trans hrel
    rw [ht, finish_ok] at hx
    have htrd : t.cur.rd = u.cur.rd + 1 := hload.rd
    have htbr : t.win.br = u.win.br := hload.br
    refine ⟨t, hx, onlyStreams_of_same hall (hrelp.trans hp), hall.rle, emittedOut_of_same hall hdst,
      hload.escIndex.trans hidx, hall.rdLe, htbr.trans_le hbr, ?_, fun hf => absurd hf hfull,
      fun _ => ⟨hload.boundary, ?_, ?_⟩⟩
    · rw [hload.cs, hload.br]
      exact hready.csLow
    · have := hsame.rdLe
      omega
    · rw [hload.bits, escBits_append_of_out hud, htail, hdrop]

/-- Settles O39: eight iterations match no width, and the ninth meets the limit. -/
theorem unmatchedLongCodeIsBad : Obligations.UnmatchedLongCodeIsBad := by
  rintro s v hb hrest hv ⟨tail, hbits⟩ hno
  obtain ⟨-, hesc, hword⟩ := enterLong_bits (n := 9) hv hbits.symm
  obtain ⟨t, ht, hrun, htbits, -⟩ := escapeLoop_run 8 1 (fuel := 1) (escReady_enterLong hb hrest _) hesc hword
    (by rw [Nat.shiftRight_eq_div_pow]; omega) (by show 7 + 8 < 16; omega)
    (fun k hk hkn => by
      have hm := hno (8 + k) (by omega) (by omega)
      rw [show 16 - (8 + k) = 1 + (8 - 1 - k) by omega] at hm
      exact hm)
  rw [codeBits_succ, codeBits_zero, List.cons_append, List.nil_append] at htbits
  obtain ⟨w, hw, hstep, -⟩ := escStep_of_cons hrun.ready htbits
  have hidx : (escBit w).win.escIndex = 16 := by rw [(hrun.then hstep).escIndex]; rfl
  rw [execVleLong_eq, ht, escapeLoop_of_refill hw, escJudge_limit hidx _ (Nat.le_refl 16)]
  rfl

theorem shiftWindow_cut {s : State} {w : Nat} (hbr : s.win.br < w) (hend : s.cur.srcLen ≤ s.cur.rd) :
    shiftWindow w s = .error (.raise .truncated) := by
  rw [shiftWindow, if_pos hbr]
  exact congrArg (· >>= _) (readByte_raise.2 ⟨hend, rfl⟩)

theorem escRefill_cut {s : State} (hbr : s.win.br = 0) (hend : s.cur.srcLen ≤ s.cur.rd) :
    escRefill s = .error (.raise .truncated) := by
  rw [escRefill, if_pos hbr]
  exact congrArg (· >>= _) (readByte_raise.2 ⟨hend, rfl⟩)

theorem escapeLoop_cut {s : State} (hbr : s.win.br = 0) (hend : s.cur.srcLen ≤ s.cur.rd) (fuel : Nat) :
    escapeLoop (fuel + 1) s = .error (.raise .truncated) := by
  rw [escapeLoop_succ, escRefill_cut hbr hend]
  rfl

/-- Settles O40: each of the three refills meets the end of the source. -/
theorem missingCodeByteIsTruncated : Obligations.MissingCodeByteIsTruncated := by
  refine ⟨fun s i w pfx hi hdst hroom hbr hend => ?short, fun s pfx hbr hend => ?first,
    fun s v n hb hrest hn hv hbits hno => ?later, ?reload⟩
  case short =>
    rw [exec_short hi, shortCode_eq hdst (by omega), if_neg (by omega), shiftWindow_cut (s := s.append _) hbr hend,
      finish_raise]
  case first =>
    rw [execVleLong_eq, escapeLoop_cut (s := enterLong pfx s) hbr hend]
    rfl
  case later =>
    obtain ⟨m, rfl⟩ : ∃ m, n = 8 + m := by
      have hlen := congrArg List.length hbits
      rw [streamBits_eq_escBits s (prefixOf s.win.word), List.length_append, length_byteBits, length_codeBits] at hlen
      exact Nat.exists_eq_add_of_le (by omega)
    obtain ⟨-, hesc, hword⟩ := enterLong_bits hv (tail := []) (by rw [List.append_nil]; exact hbits)
    have hsmall : v < 2 ^ 16 := hv.trans_le (Nat.pow_le_pow_right (by decide) hn)
    obtain ⟨u, hu, hrun, hubits, -⟩ := escapeLoop_run m 0 (fuel := 9 - m) (escReady_enterLong hb hrest _) hesc hword
      hsmall (by show 7 + m < 16; omega)
      (fun k hk hkn => by
        have hlim := hno (8 + k) (by omega) (by omega) (by omega)
        rw [show 8 + m - 1 - (8 + k) = 0 + (m - 1 - k) by omega] at hlim
        exact hlim)
    have hlen := congrArg List.length hubits
    rw [State.length_escBits hrun.ready.brLe, codeBits_zero, List.append_nil, List.length_nil] at hlen
    rw [show 9 - m + m = 9 by omega, show 9 - m = 8 - m + 1 by omega,
      escapeLoop_cut (s := u) (by omega) (by omega)] at hu
    rw [execVleLong_eq, hu]
    rfl
  case reload =>
    rintro s i v h idx h8 hv hdst hroom hb hrest ⟨tail, hbits⟩ hfew hno hlt hbase
    obtain ⟨u, hx, hsame, -, hready, htail, -⟩ :=
      exec_vleLong_matched h8 hv hdst (by omega) hb hrest hbits.symm hno hlt hbase
    rw [← hbits, List.length_append, length_codeBits, ← htail, State.length_escBits hready.brLe] at hfew
    rw [hx, if_neg (by omega)]
    exact congrArg (finish s) (congrArg (· >>= _) (readByte_raise.2 ⟨by show u.cur.srcLen ≤ u.cur.rd; omega, rfl⟩))

/-! ### The canonical code -/

/-- A prefix of the stream whose value is known is the prefix in the window. -/
theorem prefixOf_of_bits {s : State} {k v : Nat} (hk : k ≤ 8) (hv : v < 2 ^ k) (h : codeBits k v <+: s.streamBits) :
    (prefixOf s.win.word).toNat >>> (8 - k) = v := by
  have hp := (prefixOf s.win.word).isLt
  have htake : s.streamBits.take k = codeBits k ((prefixOf s.win.word).toNat >>> (8 - k)) := by
    rw [streamBits_eq_escBits s 0, List.take_append_of_le_length (by simpa using hk), byteBits, take_codeBits hk]
  have hpre := List.prefix_iff_eq_take.1 h
  rw [length_codeBits, htake] at hpre
  refine codeBits_inj ?_ hv hpre.symm
  rw [Nat.shiftRight_eq_div_pow]
  refine Nat.div_lt_of_lt_mul ?_
  rwa [← Nat.pow_add, Nat.sub_add_cancel hk]

theorem exists_shortLayout {w : Nat} (h1 : 1 ≤ w) (h8 : w ≤ 8) (pfx : Byte) :
    ∃ i, shortLayout i = some (w, pfx) := by
  have hw : w = 1 ∨ w = 2 ∨ w = 3 ∨ w = 4 ∨ w = 5 ∨ w = 6 ∨ w = 7 ∨ w = 8 := by omega
  rcases hw with rfl | rfl | rfl | rfl | rfl | rfl | rfl | rfl
  · exact ⟨.vleShortW1 pfx, rfl⟩
  · exact ⟨.vleShortW2 pfx, rfl⟩
  · exact ⟨.vleShortW3 pfx, rfl⟩
  · exact ⟨.vleShortW4 pfx, rfl⟩
  · exact ⟨.vleShortW5 pfx, rfl⟩
  · exact ⟨.vleShortW6 pfx, rfl⟩
  · exact ⟨.vleShortW7 pfx, rfl⟩
  · exact ⟨.vleShortW8 pfx, rfl⟩

theorem OnlyStreams.srcMem {s t : State} (h : OnlyStreams s t) (htmp : t.buf.tmp = s.buf.tmp) : t.srcMem = s.srcMem := by
  rw [State.srcMem, State.srcMem, h.src, h.inMem, h.prevOut, htmp]

/-- The alphabet register holds the header's symbols. -/
theorem VleRegs.TablesOf.alphabet_eq {v : VleRegs} {counts alphabet : List Byte} (ht : v.TablesOf counts alphabet)
    {k : Nat} {symbol : Byte} (hsym : alphabet[k]? = some symbol) (hlt : k < 256) : v.alphabet[k] = symbol := by
  have hget := ht.symbol k hlt (List.getElem?_eq_some_iff.1 hsym).1
  rw [hsym] at hget
  exact Option.some.inj hget

/-- What one step on a canonical code has to show. -/
def DecodesSymbol (symbol : Byte) (w : Nat) (s : State) : Prop :=
  ∃ t, step s = .next t ∧ OnlyStreams s t ∧ t.rle = s.rle ∧ EmittedOut symbol s t ∧
    (s.dest.wr + 1 ≠ s.dest.dstLen → t.win.AtBoundary ∧ t.RestWritten ∧ t.streamBits = s.streamBits.drop w)

section
variable {s : State} {counts alphabet : List Byte} {i j : Nat} {symbol : Byte}
  (hwf : (Instr.vleHdr counts alphabet).wellFormed = true) (ht : s.vle.TablesOf counts alphabet)
  (hkraft : kraftOk counts) (hp : s.phase = .vdec) (hdst : s.dest.dst = .out) (hroom : s.dest.wr < s.dest.dstLen)
  (hb : s.win.AtBoundary) (hrest : s.RestWritten) (hi : i < counts.length) (hj : j < countAt counts i)
  (hsym : alphabet[symbolsBefore counts i + j]? = some symbol)
  (hbits : codeBits (i + 1) (firstCode counts i + j) <+: s.streamBits) (hlen : i + 1 + 8 ≤ s.streamBits.length)
include hwf ht hkraft hp hdst hroom hb hrest hi hj hsym hbits hlen

omit hwf in
/-- A canonical code of width 1 … 8: the prefix's entry has its width and its symbol. -/
theorem decodesSymbol_short (h8 : i < 8) : DecodesSymbol symbol (i + 1) s := by
  have hcode := hkraft i hi
  have hpre := prefixOf_of_bits (by omega) (by omega) hbits
  rw [show 8 - (i + 1) = 7 - i by omega] at hpre
  have hmin : i < min counts.length 8 := by omega
  obtain ⟨hw, hs⟩ := ht.entry i j _ (prefixOf s.win.word).isLt hmin hj hpre
  have hidx := symbolsBefore_add_lt ht.fits hmin hj
  rw [Vector.getElem?_eq_getElem hidx, Option.getD_some, ht.alphabet_eq hsym hidx] at hs
  obtain ⟨instr, hlay⟩ := exists_shortLayout (w := i + 1) (by omega) (by omega) (prefixOf s.win.word)
  have hwid : (s.vle.widths[(prefixOf s.win.word).toNat]'(prefixOf s.win.word).isLt).toNat = i + 1 := by
    rw [hw, BitVec.toNat_ofNat, Nat.mod_eq_of_lt (by omega)]
  have hmore : s.dest.wr + 1 = s.dest.dstLen ∨ i + 1 ≤ s.win.br ∨ s.cur.rd < s.cur.srcLen := by
    rw [s.streamBits_eq hb.brLe, List.length_append, length_codeBits, length_flatMap_byteBits,
      State.length_restBytes] at hlen
    omega
  obtain ⟨t, hx, hstreams, hrle, hemit, -, hnotFull⟩ := shortCodesComplete s instr (i + 1) _ hlay hdst hroom hb hrest hmore
  refine ⟨t, ?_, hstreams, hrle, hs ▸ hemit, fun hne => ?_⟩
  · rw [step_vdec_of_decodeVdec_ok hp hroom.ne (decodeVdec_short [] hlay hwid), hx]
  · obtain ⟨hbound, -, -, hrd, -, hstream⟩ := hnotFull hne
    exact ⟨hbound, hrest.forward (hstreams.srcMem hemit.tmp) hstreams.srcLen hrd, hstream⟩

/-- A canonical code of width 9 or more: its prefix has the escape entry, and it lies past the codes of each smaller
width. -/
theorem decodesSymbol_long (h8 : 8 ≤ i) : DecodesSymbol symbol (i + 1) s := by
  obtain ⟨hcounts, hsum, -⟩ := wellFormed_vleHdr_iff.1 hwf
  have hcode := hkraft i hi
  have h16 : i < 16 := by omega
  have hpast : ∀ m, m < i → codesPast counts (m + 1) ≤ (firstCode counts i + j) >>> (i - m) := fun m hm => by
    have hle := codesPast_mul_le counts (m + 1) (i - (m + 1))
    rw [show m + 1 + (i - (m + 1)) = i by omega] at hle
    rw [Nat.shiftRight_eq_div_pow, Nat.le_div_iff_mul_le (Nat.two_pow_pos _), show i - m = i - (m + 1) + 1 by omega,
      Nat.pow_succ, ← Nat.mul_assoc, firstCode_eq]
    omega
  obtain ⟨tail, htail⟩ := hbits
  have hpre : (prefixOf s.win.word).toNat = (firstCode counts i + j) >>> (i - 7) := by
    have hsplit : i + 1 = 8 + (i - 7) := by omega
    rw [hsplit] at htail
    exact (enterLong_bits (by rw [← hsplit]; omega) htail.symm).1
  have hwid : s.vle.widths[(prefixOf s.win.word).toNat]'(prefixOf s.win.word).isLt = vleEscapeWidth := by
    refine (ht.rest _ (prefixOf s.win.word).isLt ?_).1
    rw [Nat.min_eq_right (by omega), directEnd, hpre, Nat.sub_self, Nat.pow_zero, Nat.mul_one]
    exact hpast 7 (by omega)
  have hidx : symbolsBefore counts i + j < 256 := by
    have htotal := symbolsBefore_le_countSum (counts := counts) (n := i + 1) hi
    rw [symbolsBefore_succ] at htotal
    omega
  have hal := ht.alphabet_eq hsym hidx
  have hlim := ht.counted.escLimit_toInt hcounts h16 hi
  have hbase := ht.counted.escBase_toInt hcounts h16 hi
  rw [codesPast_succ] at hlim
  obtain ⟨t, hx, hstreams, hrle, hemit, -, hrd, -, -, -, hnotFull⟩ :=
    longCodeCompletes s i (firstCode counts i + j) h16 ⟨symbolsBefore counts i + j, hidx⟩ h8 (by omega) hdst hroom hb
      hrest ⟨tail, htail⟩ (.inr hlen)
      (fun m hm h8m hmi => by
        rw [ht.counted.escLimit_toInt hcounts hm (by omega)]
        exact_mod_cast hpast m hmi)
      (by rw [hlim]; omega) (by rw [hbase]; push_cast; omega)
  refine ⟨t, ?_, hstreams, hrle, hal ▸ hemit, fun hne => ?_⟩
  · rw [step_vdec_of_decodeVdec_ok hp hroom.ne (decodeVdec_long [] hwid), hx]
  · obtain ⟨hbound, -, hstream⟩ := hnotFull hne
    exact ⟨hbound, hrest.forward (hstreams.srcMem hemit.tmp) hstreams.srcLen hrd, hstream⟩

end

/-- Settles O43: a canonical code is short or long by its width. -/
theorem canonicalCodeDecodesInOneStep : Obligations.CanonicalCodeDecodesInOneStep := by
  intro s counts alphabet i j symbol hwf hbuilt hkraft hp hdst hroom hb hrest hi hj hsym hbits hlen
  show DecodesSymbol symbol (i + 1) s
  rcases Nat.lt_or_ge i 8 with h8 | h8
  · exact decodesSymbol_short hbuilt.tables hkraft hp hdst hroom hb hrest hi hj hsym hbits hlen h8
  · exact decodesSymbol_long hwf hbuilt.tables hkraft hp hdst hroom hb hrest hi hj hsym hbits hlen h8

/-! ### A message -/

theorem coreRun_succ_of_next {M : Host.Core} {s t : M.State} (h : M.step s = .next t) (n : Nat) :
    M.run (n + 1) s = M.run n t := by
  rw [Host.Core.run, h]

theorem run_succ_of_next {s t : State} (h : step s = .next t) (n : Nat) : core.run (n + 1) s = core.run n t :=
  coreRun_succ_of_next (M := core) h n

/-- The stream and the room for a message at the head of the run: at a code boundary while a symbol is left. -/
structure AtMessage (counts : List Byte) (message : List (Nat × Nat)) (tail : List Bool) (s : State) : Prop where
  phase : s.phase = .vdec
  dst : s.dest.dst = .out
  room : s.dest.wr + message.length = s.dest.dstLen
  stream : message ≠ [] → s.win.AtBoundary ∧ s.RestWritten ∧
    s.streamBits = (message.flatMap fun m => codeBits (m.1 + 1) (firstCode counts m.1 + m.2)) ++ tail

/-- One symbol of a message: its step emits it and stands at the rest of the message. -/
theorem AtMessage.step {counts alphabet : List Byte} {i j : Nat} {message : List (Nat × Nat)} {tail : List Bool}
    {s : State} (h : AtMessage counts ((i, j) :: message) tail s)
    (hwf : (Instr.vleHdr counts alphabet).wellFormed = true) (hbuilt : s.vle.BuiltFrom counts alphabet)
    (hkraft : kraftOk counts) (hi : i < counts.length) (hj : j < countAt counts i) (htail : 8 ≤ tail.length) :
    ∃ t symbol, step s = .next t ∧ alphabet[symbolsBefore counts i + j]? = some symbol ∧ t.vle = s.vle ∧
      EmittedOut symbol s t ∧ AtMessage counts message tail t := by
  obtain ⟨hb, hrest, hbits⟩ := h.stream (List.cons_ne_nil _ _)
  have hroom := h.room
  rw [List.length_cons] at hroom
  rw [List.flatMap_cons, List.append_assoc] at hbits
  have hidx : symbolsBefore counts i + j < alphabet.length := by
    have htotal := symbolsBefore_le_countSum (counts := counts) (n := i + 1) hi
    rw [symbolsBefore_succ] at htotal
    have hal := (wellFormed_vleHdr_iff.1 hwf).2.2
    omega
  have hsym := List.getElem?_eq_getElem hidx
  obtain ⟨t, ht, hstreams, -, hemit, hnext⟩ := canonicalCodeDecodesInOneStep s counts alphabet i j _ hwf hbuilt hkraft
    h.phase h.dst (by omega) hb hrest hi hj hsym ⟨_, hbits.symm⟩ (by
      rw [hbits, List.length_append, List.length_append, length_codeBits]; omega)
  refine ⟨t, _, ht, hsym, hstreams.vle, hemit, hstreams.phase.trans h.phase, hstreams.dst.trans h.dst, ?_, fun hne => ?_⟩
  · rw [hemit.wr, hstreams.dstLen]; omega
  · have hpos := List.length_pos_iff.2 hne
    obtain ⟨hbound, hwritten, hstream⟩ := hnext (by omega)
    exact ⟨hbound, hwritten, by rw [hstream, hbits, List.drop_left' (length_codeBits _ _)]⟩

/-- Settles O44, by induction on the message: each step emits one symbol and leaves those before it. -/
theorem canonicalMessageDecodes : Obligations.CanonicalMessageDecodes := by
  intro s counts alphabet message tail hwf hbuilt hkraft hp hdst hb hrest hroom hmsg hbits htail
  have h : AtMessage counts message tail s := ⟨hp, hdst, hroom, fun _ => ⟨hb, hrest, hbits⟩⟩
  clear hp hdst hb hrest hroom hbits
  induction message generalizing s with
  | nil => exact ⟨s, rfl, h.phase, h.room, fun _ _ => rfl, fun n m hm => by simp at hm⟩
  | cons m message ih =>
    obtain ⟨i, j⟩ := m
    obtain ⟨hi, hj⟩ := hmsg (i, j) List.mem_cons_self
    obtain ⟨t, symbol, ht, hsym, hvle, hemit, hnext⟩ := h.step hwf hbuilt hkraft hi hj htail
    obtain ⟨u, hu, hup, hfull, hbelow, hread⟩ := ih t (hvle ▸ hbuilt) (fun m hm => hmsg m (List.mem_cons_of_mem _ hm)) hnext
    rw [hemit.wr] at hbelow hread
    refine ⟨u, by rw [List.length_cons, run_succ_of_next ht, hu], hup, hfull, fun a ha => ?_, fun n m hm => ?_⟩
    · rw [hbelow a (by omega), hemit.out, if_neg (by omega)]
    · cases n with
      | zero =>
        obtain rfl : (i, j) = m := Option.some.inj hm
        rw [Nat.add_zero, hbelow _ (Nat.lt_succ_self _), hemit.out, if_pos rfl, hsym]
      | succ n =>
        rw [← hread n m hm]
        congr 1
        omega

end Sys2Proof.Machine
end

