-- ==== Sys2Proof/Proofs/Soundness.lean ====
section
/-! Soundness holds after reset, and every step and every host command keeps it. Each of its six parts is proved by the
cases of what a step does (Laws/Step.lean); a part that a step does not touch is carried over by a lemma of its own. -/

namespace Sys2Proof.Machine

/-! ### Memories -/

theorem filledTo_nil : Memory.FilledTo [] 0 := fun a => by simp

/-- Storing at the end of what is filled fills as much more. -/
theorem Memory.FilledTo.store {m : Memory} {n : Nat} (h : m.FilledTo n) (bs : List Byte) :
    (m.store n bs).FilledTo (n + bs.length) := by
  intro a
  rw [Memory.read_store]
  by_cases hin : n ≤ a ∧ a < n + bs.length
  · rw [if_pos hin, List.getElem?_eq_getElem (by omega)]
    simp [hin]
  · rw [if_neg hin, h a]
    omega

theorem read_store_ne {m : Memory} {x : Byte} (h : ∀ a, m.read a ≠ some x) (p : Nat) {bs : List Byte} (hbs : x ∉ bs)
    (a : Nat) : (m.store p bs).read a ≠ some x := by
  rw [Memory.read_store]
  split
  · exact fun hget => hbs (List.mem_of_getElem? hget)
  · exact h a

theorem Buffers.Canonical.wrote {b : Buffers} (h : b.Canonical) (d : Dest) (bs : List Byte) : (b.wrote d bs).Canonical := by
  cases hd : d.dst with
  | out => rw [Buffers.wrote_out _ _ _ hd]; exact { h with out := Memory.store_wf h.out _ _ }
  | tmp => rw [Buffers.wrote_tmp _ _ _ hd]; exact { h with tmp := Memory.store_wf h.tmp _ _ }

theorem memory_wf_nil : Memory.wf [] := List.Pairwise.nil

theorem canonical_of_stepEffect {s t : State} (hs : s.buf.Canonical) (h : StepEffect s t) : t.buf.Canonical := by
  cases h with
  | idle | container | rleHeader | preEnd => exact hs
  | error =>
    exact { hs with out := memory_wf_nil, tmp := memory_wf_nil, prevOut := memory_wf_nil, result := memory_wf_nil }
  | passHeader => exact { hs with out := memory_wf_nil }
  | seqHeader | passEnd => exact { hs with tmp := memory_wf_nil }
  | seqLit | run => exact hs.wrote _ _
  | seqBlock => exact (hs.wrote _ _).wrote _ _
  | vleHeader counts alphabet v t h hw hrd hv hi => rw [(initWindow_ok hi).1.buf]; exact hs
  | short w u t h hw hr hx he ht =>
    obtain ⟨b, -, hsame, -⟩ := decodesCode_of_short he ht
    rw [hsame.buf]; exact hs.wrote _ _
  | long u t h hw he ht =>
    obtain ⟨b, -, hsame, -⟩ := decodesCode_of_long he ht
    rw [hsame.buf]; exact hs.wrote _ _
  | chain t h hc ht => cases ht; exact { hs with out := memory_wf_nil, tmp := memory_wf_nil, prevOut := hs.out }
  | done t h hc ht => cases ht; exact { hs with result := hs.out }

/-! ### Parts that a step leaves alone -/

theorem State.VleSound.of_eq {s t : State} (h : s.VleSound) (hv : t.vle = s.vle) (hw : t.win = s.win)
    (hp : t.phase ≠ .vdec) : t.VleSound := by
  constructor <;> simp only [hv, hw, hp, false_implies]
  · exact h.brLe
  · exact h.escIndexRange
  · exact h.wLe
  · exact h.alphabetLe
  · exact h.widthSumRange
  · exact h.tableRanges
  · exact h.tableTail

theorem State.RleSound.of_eq {s t : State} (h : s.RleSound) (hr : t.rle = s.rle) (h1 : t.phase ≠ .seq)
    (h2 : t.phase ≠ .sbr) : t.RleSound := by
  constructor <;> simp only [hr, h1, h2, false_implies, false_and, or_false]
  · exact h.escNLe
  · exact h.noSeqEq
  · exact h.escNEq
  · exact h.seqStartLe

/-- From one phase of a pass to another, with the source kept or TMP the source. -/
theorem State.PassesSound.of_inPass {s t : State} (h : s.PassesSound) (hpass : t.pass = s.pass) (hhost : t.host = s.host)
    (hs : s.phase.inPass = true) (ht : t.phase.inPass = true) (hsrc : t.cur.src = s.cur.src ∨ t.cur.src = .tmp) :
    t.PassesSound := by
  have hbusy : s.phase.busy = true := by cases hp : s.phase <;> simp_all [Phase.inPass, Phase.busy]
  constructor
  case countLe => exact hpass ▸ h.countLe
  case indexLe => exact hpass ▸ h.indexLe
  case errPassLe => exact hhost ▸ h.errPassLe
  case passLt => exact fun _ => hpass ▸ h.passLt hs
  case inMemPass => exact fun _ hin => hpass ▸ h.inMemPass hbusy (by simp_all)
  case prevOutPass => exact fun _ hin => hpass ▸ h.prevOutPass hbusy (by simp_all)
  all_goals intro hp; rw [hp] at ht; cases ht

/-! ### The pass counters -/

theorem passesSound_of_stepEffect {s t : State} (hs : s.PassesSound) (h : StepEffect s t) : t.PassesSound := by
  cases h with
  | idle => exact hs
  | error => constructor <;> simp [Phase.busy, Phase.inPass, hs.countLe, hs.indexLe]
  | container count rd h hlen hcnt =>
    have hcount : count ≤ 127 := by omega
    constructor <;> simp [Phase.busy, Phase.inPass, hcount, hs.errPassLe, Nat.pos_iff_ne_zero]
  | passHeader tag size engine h hcnt hsz hrd he =>
    have hb : s.phase.busy = true := by rw [h]; rfl
    have hne : engine ≠ .chdr ∧ engine ≠ .phdr := by rcases he with ⟨rfl, -⟩ | ⟨rfl, -⟩ <;> decide
    constructor <;> simp [hne, hs.countLe, hs.indexLe, hs.errPassLe]
    · exact fun _ => hs.phdrLt h hcnt
    · exact fun _ => hs.inMemPass hb
    · exact fun _ => hs.prevOutPass hb
  | rleHeader escs h => exact hs.of_inPass rfl rfl (by rw [h]; rfl) rfl (.inl rfl)
  | seqHeader escs h => exact hs.of_inPass rfl rfl (by rw [h]; rfl) rfl (.inl rfl)
  | preEnd h => exact hs.of_inPass rfl rfl (by rw [h]; rfl) rfl (.inr rfl)
  | seqLit b h => exact hs.of_inPass rfl rfl (by rw [h]; rfl) (by simp [h, Phase.inPass]) (.inl rfl)
  | seqBlock body rep extra h => exact hs.of_inPass rfl rfl (by rw [h]; rfl) (by simp [h, Phase.inPass]) (.inl rfl)
  | run len n v h => exact hs.of_inPass rfl rfl (by rw [h]; rfl) (by simp [h, Phase.inPass]) (.inl rfl)
  | passEnd h => exact hs.of_inPass rfl rfl (by rcases h with h | h <;> rw [h] <;> rfl) rfl (.inl rfl)
  | vleHeader counts alphabet v t h hw hrd hv hi =>
    obtain ⟨hsame, hp, -⟩ := initWindow_ok hi
    exact hs.of_inPass hsame.pass hsame.host (by rw [h]; rfl) (by rw [hp]; rfl) (.inl hsame.src)
  | short w u t h hw hr hx he ht =>
    obtain ⟨b, -, hsame, hp⟩ := decodesCode_of_short he ht
    exact hs.of_inPass hsame.pass hsame.host (by rw [h]; rfl) (by rw [hp, h]; rfl) (.inl hsame.src)
  | long u t h hw he ht =>
    obtain ⟨b, -, hsame, hp⟩ := decodesCode_of_long he ht
    exact hs.of_inPass hsame.pass hsame.host (by rw [h]; rfl) (by rw [hp, h]; rfl) (.inl hsame.src)
  | chain t h hc ht =>
    cases ht
    have hlt := hs.passLt (by rw [h]; rfl)
    have hcnt := hs.countLe
    constructor <;> simp [Phase.inPass, hcnt, hs.errPassLe] <;> omega
  | done t h hc ht =>
    cases ht
    constructor <;> simp [Phase.busy, Phase.inPass, hs.countLe, hs.indexLe, hs.errPassLe]

/-! ### The cursors -/

theorem State.atBlock_wrCursor (s : State) (len : Nat) (rep : Byte) : (s.atBlock len rep).wrCursor = s.wrCursor := rfl

/-- The write side and the read side after a code. -/
structure CodeCursors (s t : State) : Prop where
  phase : t.phase = .vdec
  dest : t.dest = { s.dest with wr := s.dest.wr + 1 }
  fits : s.dest.wr + 1 ≤ s.dest.dstLen
  src : t.cur.src = s.cur.src
  srcLen : t.cur.srcLen = s.cur.srcLen
  rdLe : t.cur.rd ≤ t.cur.srcLen
  pass : t.pass = s.pass
  host : t.host = s.host

theorem codeCursors_of_decodesCode {s t : State} (hs : s.Sound) (hp : s.phase = .vdec) (h : DecodesCode s t) :
    CodeCursors s t := by
  obtain ⟨b, hfit, hsame, htp⟩ := h
  have hout := hs.dst_out (by rw [hp]; rfl) (by simp [hp])
  rw [State.wrCursor_out hout] at hfit
  exact ⟨htp.trans hp, by simp [hsame.dest, Dest.wrote_out _ _ hout], hfit, hsame.src, hsame.srcLen,
    hsame.rdBound hs.cursors.rdLe, hsame.pass, hsame.host⟩

theorem CodeCursors.sound {s t : State} (g : CodeCursors s t) (h : s.CursorsSound) (hp : s.phase = .vdec) :
    t.CursorsSound := by
  have hb : s.phase.busy = true := by rw [hp]; rfl
  have hout := h.passDst (by rw [hp]; rfl) (by simp [hp])
  have hsrc : s.cur.src ≠ .tmp := fun hsrc => by simpa [hp] using h.tmpSrc hb hsrc
  constructor <;> simp [g.phase, g.dest, g.src, g.srcLen, g.pass, g.host, hsrc, hout, h.dstLenEq]
  · exact g.srcLen ▸ g.rdLe
  · exact h.srcLenLe (by simp [hp]) (by simp [hp])
  · exact h.dstLenEq ▸ g.fits
  · exact fun _ => h.inputLen hb

theorem State.CursorsSound.advance {s : State} (h : s.CursorsSound) (hp : s.phase ≠ .chdr) {n : Nat}
    (hrd : s.cur.rd + n ≤ s.cur.srcLen) : (s.advance n).CursorsSound :=
  { h with rdLe := hrd, chdrStart := fun hc => absurd hc hp }

theorem State.CursorsSound.append {s : State} (h : s.CursorsSound) (hp : s.phase = .seq ∨ s.phase = .sbr) {bs : List Byte}
    (hfit : s.wrCursor + bs.length ≤ s.dest.dstLen) : (s.append bs).CursorsSound := by
  rcases hp with hp | hp
  · have hb : s.phase.busy = true := by rw [hp]; rfl
    have hdst := h.seqDst hp
    have hsrc : s.cur.src ≠ .tmp := fun hsrc => by simpa [hp] using h.tmpSrc hb hsrc
    rw [State.wrCursor_tmp hdst] at hfit
    exact { h with
      wrLe := by simpa [Dest.wrote_tmp _ _ hdst] using h.wrLe
      tmpWrLe := fun _ => by simpa [Dest.wrote_tmp _ _ hdst] using hfit
      dstLenEq := by simpa using h.dstLenEq
      seqDst := fun _ => by simpa using hdst
      passDst := fun _ hne => absurd hp hne
      tmpSrcLen := fun _ htmp => absurd htmp hsrc }
  · have hdst := h.passDst (by rw [hp]; rfl) (by simp [hp])
    rw [State.wrCursor_out hdst] at hfit
    exact { h with
      wrLe := by simpa [Dest.wrote_out _ _ hdst] using hfit
      tmpWrLe := by simpa [Dest.wrote_out _ _ hdst] using h.tmpWrLe
      dstLenEq := by simpa using h.dstLenEq
      seqDst := by simpa using h.seqDst
      passDst := by simpa using h.passDst
      tmpSrcLen := by simpa [Dest.wrote_out _ _ hdst] using h.tmpSrcLen }

/-- From one phase of a pass to another with the source and the write side kept. -/
theorem State.CursorsSound.of_inPass {s t : State} (h : s.CursorsSound) (hdest : t.dest = s.dest) (hpass : t.pass = s.pass)
    (hhost : t.host = s.host) (hsrc : t.cur.src = s.cur.src) (hlen : t.cur.srcLen = s.cur.srcLen)
    (hrd : t.cur.rd ≤ s.cur.srcLen) (hs : s.phase.inPass = true) (ht : t.phase.inPass = true) (hseq : s.phase ≠ .seq)
    (hseq' : t.phase ≠ .seq) (htmp : s.cur.src = .tmp → t.phase = .pend) : t.CursorsSound := by
  have hb : s.phase.busy = true := by cases hp : s.phase <;> simp_all [Phase.inPass, Phase.busy]
  have hc : s.phase ≠ .chdr := fun hp => by rw [hp] at hs; cases hs
  have he : s.phase ≠ .error := fun hp => by rw [hp] at hs; cases hs
  constructor
  case rdLe => exact hlen ▸ hrd
  case srcLenLe => exact fun _ _ => hlen ▸ h.srcLenLe hc he
  case wrLe => exact hdest ▸ h.wrLe
  case tmpWrLe => exact fun ht => hdest ▸ h.tmpWrLe (.inr ⟨hb, by grind⟩)
  case dstLenEq => rw [hdest, hpass]; exact h.dstLenEq
  case seqDst => exact fun hp => absurd hp hseq'
  case passDst => exact fun _ _ => hdest ▸ h.passDst hs hseq
  case chdrStart => intro hp; rw [hp] at ht; cases ht
  case inputLen => rw [hsrc, hlen, hhost]; exact fun _ hin => h.inputLen hb hin
  case tmpSrc => rw [hsrc]; exact fun _ hin => .inr (htmp hin)
  case tmpSrcLen => rw [hsrc, hlen, hdest]; exact fun _ hin => h.tmpSrcLen hb hin

theorem cursorsSound_of_stepEffect {s t : State} (hs : s.Sound) (h : StepEffect s t) : t.CursorsSound := by
  have hc := hs.cursors
  have hwr : s.dest.wr ≤ s.pass.subFileSize.toNat := hc.dstLenEq ▸ hc.wrLe
  have hcap : s.pass.subFileSize.toNat ≤ maxInLen := by have := s.pass.subFileSize.isLt; simp only [maxInLen]; omega
  cases h with
  | idle => exact hc
  | error k hb hp hk =>
    constructor <;> simp [State.raise, State.discardBuffers, Phase.busy, Phase.inPass, hc.rdLe, hwr, hc.dstLenEq]
  | container count rd h hlen hcnt hrd =>
    constructor <;> simp [Phase.busy, Phase.inPass, hwr, hc.dstLenEq, hlen, hrd]
  | passHeader tag size engine h hcnt hsz hrd he =>
    have hne : engine ≠ .seq ∧ engine ≠ .chdr := by rcases he with ⟨rfl, -⟩ | ⟨rfl, -⟩ <;> decide
    have hb : s.phase.busy = true := by rw [h]; rfl
    have hsrc : s.cur.src ≠ .tmp := fun hsrc => by simpa [h] using hc.tmpSrc hb hsrc
    constructor <;>
      simp [State.advance, hrd, hsrc, hne, hc.srcLenLe, h]
    exact fun _ => hc.inputLen hb
  | rleHeader escs h hn hrd =>
    have hb : s.phase.busy = true := by rw [h]; rfl
    exact hc.of_inPass rfl rfl rfl rfl rfl hrd (by rw [h]; rfl) rfl (by simp [h]) (by simp)
      fun hsrc => by simpa [h] using hc.tmpSrc hb hsrc
  | seqHeader escs h hn hrd =>
    have hb : s.phase.busy = true := by rw [h]; rfl
    have hsrc : s.cur.src ≠ .tmp := fun hsrc => by simpa [h] using hc.tmpSrc hb hsrc
    constructor <;> simp [State.advance, hrd, hsrc, hwr, hc.dstLenEq, hc.srcLenLe, h, Phase.busy]
    exact hc.inputLen hb
  | preEnd h =>
    have htmp : s.dest.tmpWr ≤ s.pass.subFileSize.toNat := hc.dstLenEq ▸ hc.tmpWrLe (.inl h)
    constructor <;> simp [endPrePass, Phase.busy, hwr, hc.dstLenEq, htmp, htmp.trans hcap]
  | passEnd h hw =>
    refine hc.of_inPass rfl rfl rfl rfl rfl hc.rdLe ?_ rfl ?_ (by simp) fun _ => rfl
    · rcases h with h | h <;> rw [h] <;> rfl
    · rcases h with h | h <;> simp [h]
  | seqLit b h hb hrd hfit => exact (hc.advance (by simp [h]) hrd).append (by simp [h]) hfit
  | seqBlock body rep extra h hb hrd hx hfit =>
    have hat : (s.atBlock body.length rep).CursorsSound := { hc.advance (by simp [h]) hrd with }
    refine (hat.append (by simp [h]) ?_).append (by simp [h]) ?_
    · exact le_trans (by rw [State.atBlock_wrCursor]; omega) hfit
    · rw [State.append_wrCursor, length_flatten_replicate, State.atBlock_wrCursor, Nat.add_assoc]
      simpa using hfit
  | run len n v h hw hl hrd hfit => exact (hc.advance (by simp [h]) hrd).append (by simp [h]) (by simpa using hfit)
  | vleHeader counts alphabet v t h hw hrd hv hi =>
    have hb : s.phase.busy = true := by rw [h]; rfl
    obtain ⟨hsame, hp, -⟩ := initWindow_ok hi
    refine hc.of_inPass hsame.dest hsame.pass hsame.host hsame.src hsame.srcLen ?_ (by rw [h]; rfl) (by rw [hp]; rfl)
      (by simp [h]) (by simp [hp]) fun hsrc => by simpa [h] using hc.tmpSrc hb hsrc
    exact hsame.srcLen ▸ hsame.rdBound hrd
  | short w u t h hw hr hx he ht => exact (codeCursors_of_decodesCode hs h (decodesCode_of_short he ht)).sound hc h
  | long u t h hw he ht => exact (codeCursors_of_decodesCode hs h (decodesCode_of_long he ht)).sound hc h
  | chain t h hcc ht =>
    cases ht
    constructor <;> simp [Phase.busy, Phase.inPass, hwr, hc.dstLenEq, hcap]
  | done t h hcc ht =>
    cases ht
    constructor <;> simp [Phase.busy, Phase.inPass, hwr, hc.dstLenEq, hc.rdLe]
    exact hc.srcLenLe (by simp [h]) (by simp [h])

/-! ### The buffers -/

theorem State.BuffersSound.advance {s : State} (h : s.BuffersSound) (n : Nat) : (s.advance n).BuffersSound :=
  { h with }

/-- Only the read cursor and the window moved. -/
theorem State.BuffersSound.of_same {s t : State} (h : s.BuffersSound) (hsame : SameButWindow s t)
    (hp : t.phase = s.phase) : t.BuffersSound := by
  constructor <;> simp only [hp, hsame.src, hsame.srcLen, hsame.dest, hsame.pass, hsame.host, hsame.buf, hsame.srcMem]
  · exact h.outFilled
  · exact h.pendFull
  · exact h.tmpFilled
  · exact h.tmpGone
  · exact h.srcWritten
  · exact h.resultFilled
  · exact h.resultSize
  · exact h.resultNone
  · exact h.errIff

/-- Appending fills the destination as much further, and the source stays as it is. -/
theorem State.BuffersSound.append {s : State} (h : s.BuffersSound) (hc : s.CursorsSound) (hp : s.phase.inPass = true)
    (hpend : s.phase ≠ .pend) (bs : List Byte) : (s.append bs).BuffersSound := by
  have hb : s.phase.busy = true := by cases hph : s.phase <;> simp_all [Phase.inPass, Phase.busy]
  by_cases hseq : s.phase = .seq
  · have hdst := hc.seqDst hseq
    have hsrc : s.cur.src ≠ .tmp := fun hsrc => by simpa [hseq] using hc.tmpSrc hb hsrc
    exact { h with
      outFilled := by simpa [Dest.wrote_tmp _ _ hdst, Buffers.wrote_tmp _ _ _ hdst] using h.outFilled
      pendFull := fun hpd => absurd hpd hpend
      tmpFilled := fun _ => by simpa [Dest.wrote_tmp _ _ hdst, Buffers.wrote_tmp _ _ _ hdst] using (h.tmpFilled hseq).store bs
      tmpGone := fun hne => absurd hseq hne
      srcWritten := by rw [srcMem_append_of_src hsrc]; exact h.srcWritten
      resultFilled := by simpa using h.resultFilled
      resultNone := by simpa using h.resultNone }
  · have hdst := hc.passDst hp hseq
    exact { h with
      outFilled := fun _ => by simpa [Dest.wrote_out _ _ hdst, Buffers.wrote_out _ _ _ hdst] using (h.outFilled hp).store bs
      pendFull := fun hpd => absurd hpd hpend
      tmpFilled := fun hq => absurd hq hseq
      tmpGone := by simpa [Buffers.wrote_out _ _ _ hdst] using h.tmpGone
      srcWritten := by rw [srcMem_append_of_out hdst]; exact h.srcWritten
      resultFilled := by simpa using h.resultFilled
      resultNone := by simpa using h.resultNone }

theorem State.BuffersSound.of_decodesCode {s t : State} (h : s.BuffersSound) (hc : s.CursorsSound) (hp : s.phase = .vdec)
    (hd : DecodesCode s t) : t.BuffersSound := by
  obtain ⟨b, -, hsame, htp⟩ := hd
  exact (h.append hc (by rw [hp]; rfl) (by simp [hp]) [b]).of_same hsame htp

/-- A header read: the engine's decoding phase begins with the buffers, the source and the write side kept. -/
theorem State.BuffersSound.of_header {s t : State} (h : s.BuffersSound) (hdest : t.dest = s.dest) (hhost : t.host = s.host)
    (hsrc : t.cur.src = s.cur.src) (hlen : t.cur.srcLen = s.cur.srcLen) (hbuf : t.buf = s.buf)
    (hs : s.phase = .rhdr ∨ s.phase = .vhdr) (ht : t.phase = .sbr ∨ t.phase = .vdec) : t.BuffersSound := by
  have hmem : t.srcMem = s.srcMem := by rw [State.srcMem, State.srcMem, hsrc, hbuf]
  have hb : s.phase.busy = true := by rcases hs with hs | hs <;> rw [hs] <;> rfl
  have hin : s.phase.inPass = true := by rcases hs with hs | hs <;> rw [hs] <;> rfl
  have hne : s.phase ≠ .seq ∧ s.phase ≠ .sbr ∧ s.phase ≠ .pend ∧ s.phase ≠ .done ∧ s.phase ≠ .error := by
    rcases hs with hs | hs <;> simp [hs]
  have hne' : t.phase ≠ .seq ∧ t.phase ≠ .pend ∧ t.phase ≠ .done ∧ t.phase ≠ .error := by
    rcases ht with ht | ht <;> simp [ht]
  constructor <;> simp only [hdest, hhost, hsrc, hlen, hbuf, hmem, hne', ne_eq, false_implies, not_false_eq_true, true_implies]
  · exact fun _ => h.outFilled hin
  · exact fun _ => h.tmpGone hne.1 fun hx => hne.2.1 hx.1
  · exact fun _ hsrc _ => h.srcWritten hb hsrc fun hx => hne.2.2.1 hx.1
  · exact h.resultNone hne.2.2.2.1
  · exact ⟨False.elim, fun he => hne.2.2.2.2 (h.errIff.2 he)⟩

theorem buffersSound_of_stepEffect {s t : State} (hs : s.Sound) (h : StepEffect s t) : t.BuffersSound := by
  have hb := hs.buffers
  have hc := hs.cursors
  cases h with
  | idle => exact hb
  | error k hbusy hp hk => constructor <;> simp [State.raise, State.discardBuffers, Phase.busy, Phase.inPass, hk]
  | container count rd h hlen hcnt hrd =>
    have hres := hb.resultNone (by simp [h])
    have herr := hb.errIff
    have htmp := hb.tmpGone (by simp [h]) (by simp [h])
    constructor <;> simp_all [Phase.inPass]
  | passHeader tag size engine h hcnt hsz hrd he =>
    have hres := hb.resultNone (by simp [h])
    have herr := hb.errIff
    have htmp := hb.tmpGone (by simp [h]) (by simp [h])
    have hsrc := hb.srcWritten (by rw [h]; rfl)
    have hne : engine ≠ .seq ∧ engine ≠ .sbr ∧ engine ≠ .pend ∧ engine ≠ .done ∧ engine ≠ .error := by
      rcases he with ⟨rfl, -⟩ | ⟨rfl, -⟩ <;> decide
    constructor <;> simp_all [State.advance, State.srcMem, filledTo_nil]
  | rleHeader escs h hn hrd => exact hb.of_header rfl rfl rfl rfl rfl (.inl h) (.inl rfl)
  | seqHeader escs h hn hrd =>
    have hres := hb.resultNone (by simp [h])
    have herr := hb.errIff
    have hout := hb.outFilled (by rw [h]; rfl)
    have hsrc := hb.srcWritten (by rw [h]; rfl)
    have hne := hs.src_ne_tmp (by rw [h]; rfl) (by simp [h]) (by simp [h])
    constructor <;> simp_all [State.advance, State.srcMem, filledTo_nil]
    cases hx : s.cur.src with
    | inMem => simp
    | prevOut => exact fun _ _ => by simpa [hx] using hsrc
    | tmp => exact absurd hx hne
  | preEnd h =>
    have hres := hb.resultNone (by simp [h])
    have herr := hb.errIff
    have hout := hb.outFilled (by rw [h]; rfl)
    have htmp := hb.tmpFilled h
    constructor <;> simp_all [endPrePass, State.srcMem, Memory.FilledTo]
  | passEnd h hw =>
    have hin : s.phase.inPass = true := by rcases h with h | h <;> rw [h] <;> rfl
    have hbusy : s.phase.busy = true := by rcases h with h | h <;> rw [h] <;> rfl
    have hne : s.phase ≠ .pend ∧ s.phase ≠ .done ∧ s.phase ≠ .error := by rcases h with h | h <;> simp [h]
    have hres := hb.resultNone hne.2.1
    have herr := hb.errIff
    have hout := hb.outFilled hin
    have hsrc := hb.srcWritten hbusy
    constructor <;> simp_all [State.srcMem]
    cases hx : s.cur.src with
    | inMem | tmp => simp
    | prevOut => exact fun _ _ _ => by simpa [hx] using hsrc
  | seqLit b h hbr hrd hfit =>
    exact (hb.advance 1).append (hc.advance (by simp [h]) hrd) (by simp [h, Phase.inPass]) (by simp [h]) _
  | seqBlock body rep extra h hbr hrd hx hfit =>
    have hat : (s.atBlock body.length rep).BuffersSound := { hb.advance _ with }
    have hct : (s.atBlock body.length rep).CursorsSound := { hc.advance (by simp [h]) hrd with }
    refine (hat.append hct (by simp [h, Phase.inPass]) (by simp [h]) _).append (hct.append (by simp [h]) ?_)
      (by simp [h, Phase.inPass]) (by simp [h]) _
    exact le_trans (by rw [State.atBlock_wrCursor]; omega) hfit
  | run len n v h hw hl hrd hfit =>
    exact (hb.advance len).append (hc.advance (by simp [h]) hrd) (by simp [h, Phase.inPass]) (by simp [h]) _
  | vleHeader counts alphabet v t h hw hrd hv hi =>
    obtain ⟨hsame, hp, -⟩ := initWindow_ok hi
    exact hb.of_header hsame.dest hsame.host hsame.src hsame.srcLen hsame.buf (.inr h) (.inr hp)
  | short w u t h hw hr hx he ht => exact hb.of_decodesCode hc h (decodesCode_of_short he ht)
  | long u t h hw he ht => exact hb.of_decodesCode hc h (decodesCode_of_long he ht)
  | chain t h hcc ht =>
    cases ht
    have hres := hb.resultNone (by simp [h])
    have herr := hb.errIff
    have hout := hb.outFilled (by rw [h]; rfl)
    have hfull := hb.pendFull h
    constructor <;> simp_all [Phase.inPass, State.srcMem, Memory.FilledTo]
  | done t h hcc ht =>
    cases ht
    have herr := hb.errIff
    have hout := hb.outFilled (by rw [h]; rfl)
    have hfull := hb.pendFull h
    have htmp := hb.tmpGone (by simp [h]) (by simp [h])
    constructor <;> simp_all [Phase.busy, Phase.inPass, hc.dstLenEq]

/-! ### The RLE engine's registers -/

/-- Only an escape byte at index 1 selects an implicit run of length 1. -/
theorem getElem?_one_of_buildLookup_eq_two {escs : List Byte} {b : Byte} (hlen : escs.length ≤ maxEscapes)
    (h : ((buildLookup escs)[b.toNat]'b.isLt).val = 2) : escs[1]? = some b := by
  obtain ⟨hzero, hindex⟩ := escapeLookupIsTheLastIndex escs b hlen
  obtain ⟨j, hget, hlast⟩ := exists_isLastIndex (not_not.1 fun hmem => by simp [hzero.2 hmem] at h)
  have hj := (hindex j (List.getElem?_eq_some_iff.1 hget).1).2 ⟨hget, hlast⟩
  obtain rfl : j = 1 := by omega
  exact hget

theorem withEscapes_selectorTwo (r : RleRegs) (noSeq : Bool) {escs : List Byte} (hlen : escs.length ≤ maxEscapes) (b : Byte)
    (h : ((r.withEscapes noSeq escs).escLookup[b.toNat]'b.isLt).val = 2) : b = (r.withEscapes noSeq escs).escCodes[1] := by
  simp [RleRegs.withEscapes, getElem?_one_of_buildLookup_eq_two hlen h]

theorem withEscapes_escN (r : RleRegs) (noSeq : Bool) {escs : List Byte} (hlen : escs.length ≤ maxEscapes) :
    (r.withEscapes noSeq escs).escN = (low7 (r.withEscapes noSeq escs).escLen).toNat := by
  simp only [RleRegs.withEscapes, low7_mkByte, BitVec.toNat_ofNat]
  exact (Nat.mod_eq_of_lt (by simp only [maxEscapes] at hlen; omega)).symm

theorem State.RleSound.append {s : State} (h : s.RleSound) {bs : List Byte}
    (hbs : s.dest.dst = .out ∨ s.phase = .seq ∧ s.rle.bracket ∉ bs) : (s.append bs).RleSound := by
  refine { h with seqBracket := fun hp => ?_ }
  obtain ⟨hbrk, htmp⟩ := h.seqBracket hp
  refine ⟨hbrk, fun a => ?_⟩
  cases hd : s.dest.dst with
  | out => simpa [Buffers.wrote_out _ _ _ hd] using htmp a
  | tmp =>
    have hnot : s.rle.bracket ∉ bs := (hbs.resolve_left (by simp [hd])).2
    simpa [Buffers.wrote_tmp _ _ _ hd] using read_store_ne htmp _ hnot a

theorem rleSound_of_stepEffect {s t : State} (hs : s.Sound) (h : StepEffect s t) : t.RleSound := by
  have hr := hs.rle
  cases h with
  | idle => exact hr
  | error k hb hp hk => exact hr.of_eq rfl (by simp [State.raise]) (by simp [State.raise])
  | container count rd h => exact hr.of_eq rfl (by simp) (by simp)
  | passHeader tag size engine h hcnt hsz hrd he =>
    rcases he with ⟨rfl, -⟩ | ⟨rfl, -⟩ <;> exact hr.of_eq rfl (by simp) (by simp)
  | rleHeader escs h hn hrd =>
    have hne := hs.src_ne_tmp (by rw [h]; rfl) (by simp [h]) (by simp [h])
    exact {
      escNLe := hn
      noSeqEq := (highBit_mkByte _ _).symm
      escNEq := withEscapes_escN _ _ hn
      seqStartLe := hr.seqStartLe
      seqEscapes := by simp
      seqBracket := fun hp => by simp [hne] at hp
      selectorTwo := fun _ => withEscapes_selectorTwo _ _ hn }
  | seqHeader escs h hn hrd =>
    exact {
      escNLe := hn.2
      noSeqEq := (highBit_mkByte _ _).symm
      escNEq := withEscapes_escN s.rle false hn.2
      seqStartLe := hr.seqStartLe
      seqEscapes := fun _ => ⟨rfl, hn.1⟩
      seqBracket := fun _ => ⟨rfl, by simp⟩
      selectorTwo := fun _ => withEscapes_selectorTwo s.rle false hn.2 }
  | preEnd h =>
    exact { hr with
      seqEscapes := by simp [endPrePass]
      seqBracket := fun _ => hr.seqBracket (.inl h)
      selectorTwo := fun _ => hr.selectorTwo (.inl h) }
  | passEnd h hw => exact hr.of_eq rfl (by simp) (by simp)
  | seqLit b h hb hrd hfit => exact State.RleSound.append (s := s.advance 1) { hr with } (.inr ⟨h, by simpa using hb.symm⟩)
  | seqBlock body rep extra h hb hrd hx hfit =>
    have hlen := hs.cursors.srcLenLe (by simp [h]) (by simp [h])
    have hat : (s.atBlock body.length rep).RleSound := { hr with seqStartLe := by simp only; omega }
    refine (hat.append (.inr ⟨h, hb⟩)).append (.inr ⟨h, fun hmem => ?_⟩)
    obtain ⟨l, hl, hin⟩ := List.mem_flatten.1 hmem
    exact hb (List.eq_of_mem_replicate hl ▸ hin)
  | run len n v h hw hl hrd hfit =>
    exact State.RleSound.append (s := s.advance len) { hr with } (.inl (hs.dst_out (by rw [h]; rfl) (by simp [h])))
  | vleHeader counts alphabet v t h hw hrd hv hi =>
    obtain ⟨hsame, hp, -⟩ := initWindow_ok hi
    exact hr.of_eq hsame.rle (by simp [hp]) (by simp [hp])
  | short w u t h hw hr' hx he ht =>
    obtain ⟨b, -, hsame, hp⟩ := decodesCode_of_short he ht
    exact hr.of_eq hsame.rle (by simp [hp, h]) (by simp [hp, h])
  | long u t h hw he ht =>
    obtain ⟨b, -, hsame, hp⟩ := decodesCode_of_long he ht
    exact hr.of_eq hsame.rle (by simp [hp, h]) (by simp [hp, h])
  | chain t h hc ht => cases ht; exact hr.of_eq rfl (by simp) (by simp)
  | done t h hc ht => cases ht; exact hr.of_eq rfl (by simp) (by simp)

/-! ### The VLE engine -/

/-- The direct table's two kinds of entry: a short code's width, or the escape width with symbol 0. -/
theorem VleRegs.TablesOf.entry_cases {v : VleRegs} {counts alphabet : List Byte} (h : v.TablesOf counts alphabet) (p : Byte) :
    (∃ k < 8, v.widths[p.toNat]'p.isLt = BitVec.ofNat 8 (k + 1)) ∨
      (v.widths[p.toNat]'p.isLt = vleEscapeWidth ∧ v.symbols[p.toNat]'p.isLt = 0) := by
  by_cases hlt : p.toNat < directEnd counts (min counts.length 8)
  · obtain ⟨k, hk, hle, hcode⟩ := exists_width_of_lt_directEnd (Nat.min_le_right _ _) hlt
    exact .inl ⟨k, by omega,
      (h.entry k (p.toNat >>> (7 - k) - firstCode counts k) p.toNat p.isLt hk (by omega) (by omega)).1⟩
  · exact .inr (h.rest p.toNat p.isLt (Nat.not_lt.1 hlt))

theorem legalWidth_of_short {k : Nat} (hk : k < 8) : legalWidth (BitVec.ofNat 8 (k + 1)) = true ∧
    BitVec.ofNat 8 (k + 1) ≠ vleEscapeWidth := by
  decide +revert

theorem State.VleSound.of_header {s t : State} (h : s.VleSound) {counts alphabet : List Byte} {v : VleRegs}
    (hw : (Instr.vleHdr counts alphabet).wellFormed = true)
    (hv : (s.vle.withCounts counts alphabet).withDirect counts = .ok v)
    (hi : initWindow (s.atCodes counts alphabet v) = .ok t) : t.VleSound := by
  obtain ⟨hsame, -, hbr, hrd, -, hesc, -⟩ := initWindow_ok hi
  obtain ⟨hlen, hsum, hal⟩ := wellFormed_vleHdr_iff.1 hw
  have ht : t.vle.TablesOf counts alphabet := tablesOf_of_withDirect hv hsame.vle
  obtain ⟨hws, -, hranges⟩ := ht.counted.ranges hlen
  have hlength : t.vle.alphabetLength.toNat = countSum counts := by
    rw [ht.counted.alphabetLength, symbolsBefore_length, BitVec.toNat_ofNat, Nat.mod_eq_of_lt (by omega)]
  constructor
  case window => exact fun _ _ => ⟨hbr.le, by rw [hbr]; exact Nat.mod_one _⟩
  case brLe => exact hbr.le
  case escIndexRange => rw [hesc]; exact h.escIndexRange
  case wLe => exact ht.W ▸ hlen
  case offsets =>
    rw [hlength, ht.W, hrd, hsame.vle, ← hal]
    exact fun _ => ⟨rfl, Nat.le_add_right _ _⟩
  case alphabetLe => exact hlength ▸ hsum
  case widthSumRange => exact hws
  case tableRanges => exact hranges
  case tableTail => exact fun i h16 hle => ht.counted.tail h16 (ht.W ▸ hle)
  case widthsLegal =>
    intro _ p
    rcases ht.entry_cases p with ⟨k, hk, he⟩ | ⟨he, -⟩
    · exact he ▸ (legalWidth_of_short hk).1
    · rw [he]; rfl
  case escapeSymbols =>
    intro _ p hp
    rcases ht.entry_cases p with ⟨k, hk, he⟩ | ⟨-, h0⟩
    · exact absurd (he.symm.trans hp) (legalWidth_of_short hk).2
    · exact h0

/-- A code leaves the tables alone; its window is what remains to be shown. -/
theorem State.VleSound.of_code {s t : State} (h : s.VleSound) (hp : s.phase = .vdec) (hv : t.vle = s.vle)
    (hrd : s.cur.rd ≤ t.cur.rd) (hwin : t.dest.wr ≠ t.dest.dstLen → t.win.AtBoundary) (hbr : t.win.br ≤ 8)
    (hesc : t.win.escIndex = 0 ∨ (8 ≤ t.win.escIndex ∧ t.win.escIndex ≤ 15)) : t.VleSound := by
  obtain ⟨hoff, hco⟩ := h.offsets hp
  constructor
  case window => exact fun _ => hwin
  case brLe => exact hbr
  case escIndexRange => exact hesc
  case wLe => exact hv ▸ h.wLe
  case offsets => exact fun _ => hv ▸ ⟨hoff, hco.trans hrd⟩
  case alphabetLe => exact hv ▸ h.alphabetLe
  case widthSumRange => exact hv ▸ h.widthSumRange
  case tableRanges => exact hv ▸ h.tableRanges
  case tableTail => exact hv ▸ h.tableTail
  case widthsLegal => exact fun _ => hv ▸ h.widthsLegal hp
  case escapeSymbols => exact fun _ => hv ▸ h.escapeSymbols hp

/-- The escape loop ends well at a width of the table, with its bit source in order. -/
theorem escapeLoop_ok_atBit {fuel : Nat} {s t : State} (hb : s.win.AtBit) (h7 : 7 ≤ s.win.escIndex)
    (h : escapeLoop fuel s = .ok t) :
    ∃ u bs, SameButWindow s u ∧ u.win.AtBit ∧ 8 ≤ u.win.escIndex ∧ u.win.escIndex ≤ 15 ∧ t = u.append bs := by
  induction fuel generalizing s with
  | zero => cases h
  | succ fuel ih =>
    rw [escapeLoop_succ] at h
    obtain ⟨v, hr, h⟩ := Except.bind_eq_ok.1 h
    obtain ⟨hsv, -, -, hidx, hbr⟩ := escRefill_same hr
    have hsu := hsv.trans (escBit_same v)
    have hbit := atBit_escBit (atBit_escRefill hb hr) hbr
    have h8 : 8 ≤ (escBit v).win.escIndex := by simp only [escBit_win]; omega
    unfold escJudge at h
    split at h
    · next hlim =>
      split at h
      · split at h
        · exact ⟨_, _, hsu, hbit, h8, Nat.le_of_lt_succ hlim, (emit_ok.1 h).2⟩
        · cases h
      · obtain ⟨u, bs, hsame, hu⟩ := ih hbit (by omega) h
        exact ⟨u, bs, hsu.trans hsame, hu⟩
    · cases h

theorem vleSound_of_stepEffect {s t : State} (hs : s.Sound) (h : StepEffect s t) : t.VleSound := by
  have hv := hs.vle
  cases h with
  | idle => exact hv
  | error k hb hp hk => exact hv.of_eq rfl rfl (by simp [State.raise])
  | container count rd h => exact hv.of_eq rfl rfl (by simp)
  | passHeader tag size engine h hcnt hsz hrd he =>
    rcases he with ⟨rfl, -⟩ | ⟨rfl, -⟩ <;> exact hv.of_eq rfl rfl (by simp)
  | rleHeader escs h | seqHeader escs h | preEnd h | passEnd h => exact hv.of_eq rfl rfl (by simp [endPrePass])
  | seqLit b h => exact hv.of_eq rfl rfl (by simp [h])
  | seqBlock body rep extra h => exact hv.of_eq rfl rfl (by simp [h])
  | run len n v h => exact hv.of_eq rfl rfl (by simp [h])
  | vleHeader counts alphabet v t h hw hrd hd hi => exact hv.of_header hw hd hi
  | short w u t h hw hr hx he ht =>
    obtain ⟨-, rfl⟩ := emit_ok.1 he
    split at ht
    · next hfull =>
      exact ht ▸ State.VleSound.of_code hv h rfl (Nat.le_refl _) (fun hne => absurd hfull hne) hv.brLe hv.escIndexRange
    · have hsame := (shiftWindow_same ht).1
      have hsh := shiftWindow_shifted (s := s.append _) hr.2 (hv.window h hw) ht
      exact hv.of_code h hsame.vle hsame.rdLe (fun _ => hsh.boundary) hsh.boundary.brLe (hsh.escIndex ▸ hv.escIndexRange)
  | long u t h hw he ht =>
    obtain ⟨v, bs, hsv, hbit, h8, h15, rfl⟩ := escapeLoop_ok_atBit (atBit_enterLong (hv.window h hw) _) (Nat.le_refl 7) he
    split at ht
    · next hfull =>
      exact ht ▸ hv.of_code h hsv.vle hsv.rdLe (fun hne => absurd hfull hne) hbit.brLe (.inr ⟨h8, h15⟩)
    · have hsame := (reloadWindow_same ht).1
      have hre := reloadWindow_reloaded (s := v.append bs) hbit ht
      exact hv.of_code h (hsame.vle.trans hsv.vle) (hsv.rdLe.trans hsame.rdLe) (fun _ => hre.boundary) hre.boundary.brLe
        (.inr (hre.escIndex ▸ ⟨h8, h15⟩))
  | chain t h hc ht => cases ht; exact hv.of_eq rfl rfl (by simp)
  | done t h hc ht => cases ht; exact hv.of_eq rfl rfl (by simp)

/-! ### The claims -/

theorem State.Sound.of_stepEffect {s t : State} (hs : s.Sound) (h : StepEffect s t) : t.Sound where
  memories := canonical_of_stepEffect hs.memories h
  cursors := cursorsSound_of_stepEffect hs h
  passes := passesSound_of_stepEffect hs.passes h
  buffers := buffersSound_of_stepEffect hs h
  rle := rleSound_of_stepEffect hs h
  vle := vleSound_of_stepEffect hs h

/-- Settles O46: each of the six parts is kept by every effect of a step. -/
theorem soundStepIsSound : Obligations.SoundStepIsSound :=
  fun _ _ hs hst => hs.of_stepEffect (step_effect hst)

/-- Settles O45: the reset state is idle with empty buffers and tables of zeros. -/
theorem resetIsSound : Obligations.ResetIsSound where
  memories := ⟨by decide, by decide, by decide, by decide, by decide, by decide⟩
  cursors := by constructor <;> decide
  passes := by constructor <;> decide
  buffers := by constructor <;> simp [State.reset, Phase.inPass, Phase.busy]
  rle := ⟨by decide, by decide, by decide, by decide, by decide, fun h => absurd h (by decide), fun h => absurd h (by decide)⟩
  vle := by
    constructor
    case window => exact fun h => absurd h (by decide)
    all_goals decide

theorem State.Sound.applyReset (s : State) : s.applyReset.Sound where
  memories := resetIsSound.memories
  cursors := { resetIsSound.cursors with }
  passes := { resetIsSound.passes with }
  buffers := { resetIsSound.buffers with }
  rle := { resetIsSound.rle with }
  vle := { resetIsSound.vle with }

/-- START discards every buffer of the run before (60_exceptions.md R221). -/
theorem State.Sound.startRun {s : State} (hs : s.Sound) : s.startRun.Sound where
  memories := { hs.memories with
    out := memory_wf_nil, tmp := memory_wf_nil, prevOut := memory_wf_nil, result := memory_wf_nil }
  cursors := by
    have hwr : s.dest.wr ≤ s.pass.subFileSize.toNat := hs.cursors.dstLenEq ▸ hs.cursors.wrLe
    constructor <;> simp [State.startRun, State.discardBuffers, Phase.inPass, hwr, hs.cursors.dstLenEq]
  passes := by constructor <;> simp [State.startRun, State.discardBuffers, Phase.inPass]
  buffers := by constructor <;> simp [State.startRun, State.discardBuffers, Phase.inPass]
  rle := hs.rle.of_eq rfl (by simp [State.startRun]) (by simp [State.startRun])
  vle := hs.vle.of_eq rfl rfl (by simp [State.startRun])

theorem State.Sound.writeCtrl {s : State} (hs : s.Sound) (v : BitVec 32) : (s.writeCtrl v).Sound := by
  unfold State.writeCtrl
  split
  · exact hs.startRun
  · exact hs

theorem State.Sound.writeInLen {s : State} (hs : s.Sound) (v : BitVec 32) : (s.writeInLen v).Sound := by
  unfold State.writeInLen
  split
  · exact hs
  · next hb =>
    exact {
      memories := hs.memories
      cursors := { hs.cursors with inputLen := fun hb' => absurd hb' hb }
      passes := { hs.passes with }
      buffers := { hs.buffers with }
      rle := { hs.rle with }
      vle := { hs.vle with } }

theorem State.Sound.writeInput {s : State} (hs : s.Sound) (hb : s.phase.busy = false) {pos : Nat} (hpos : pos < maxInLen)
    (b : Byte) : State.Sound { s with buf.inMem := s.buf.inMem.store pos [b] } where
  memories := { hs.memories with
    inMem := Memory.store_wf hs.memories.inMem _ _
    inMemSize := Memory.store_bound hs.memories.inMemSize _ _ hpos }
  cursors := { hs.cursors with }
  passes := { hs.passes with }
  buffers := { hs.buffers with srcWritten := fun hb' => by simp [hb] at hb' }
  rle := { hs.rle with }
  vle := { hs.vle with }

theorem writeReg_next {off : Nat} {v : BitVec 32} {s t : State} (h : writeReg off v s = .next t) :
    t = s.writeCtrl v ∨ t = s.writeInLen v ∨ t = s := by
  unfold writeReg at h
  split at h <;> simp_all

/-- Settles O47: the accepted commands are START, a write of IN_LEN or IN_MEM on an idle core, and reset. -/
theorem soundHostStepIsSound : Obligations.SoundHostStepIsSound := by
  intro c s t hs h
  cases c with
  | reset => injection h with h; exact h ▸ State.Sound.applyReset s
  | writeInput pos b =>
    rw [hostStep, Machine.writeInput] at h
    split at h
    · cases h
    · next hb =>
      split at h
      · next hpos => injection h with h; exact h ▸ hs.writeInput (by simpa using hb) hpos b
      · cases h
  | writeReg off v =>
    rcases writeReg_next h with rfl | rfl | rfl
    · exact hs.writeCtrl v
    · exact hs.writeInLen v
    · exact hs

theorem runDone_of_stepEffect {s t : State} (h : StepEffect s t) (hp : s.phase ≠ .done) (ht : t.phase = .done) :
    s.phase = .pend ∧ execRunDone s = .next t := by
  cases h with
  | idle => exact absurd ht hp
  | error | container | rleHeader | seqHeader | preEnd | passEnd => cases ht
  | passHeader tag size engine h hcnt hsz hrd he => rcases he with ⟨rfl, -⟩ | ⟨rfl, -⟩ <;> cases ht
  | seqLit | seqBlock | run => exact absurd ht hp
  | vleHeader counts alphabet v t h hw hrd hd hi => rw [(initWindow_ok hi).2.1] at ht; cases ht
  | short w u t h hw hr hx he hs =>
    obtain ⟨-, -, -, hph⟩ := decodesCode_of_short he hs
    exact absurd (hph.symm.trans ht) hp
  | long u t h hw he hs =>
    obtain ⟨-, -, -, hph⟩ := decodesCode_of_long he hs
    exact absurd (hph.symm.trans ht) hp
  | chain t h hc hs => cases hs; cases ht
  | done t h hc hs => exact ⟨h, hs⟩

/-- Settles O50: only RUN_DONE enters DONE; it moves OUT, which the pass filled, to RESULT. -/
theorem doneResultIsComplete : Obligations.DoneResultIsComplete := by
  intro s t hs hst hp ht
  have hts := (soundStepIsSound s t hs hst).buffers
  obtain ⟨-, hdone⟩ := runDone_of_stepEffect (step_effect hst) hp ht
  have hres : t.buf.result = s.buf.out := by cases hdone; rfl
  have hsize := hts.resultSize ht
  refine ⟨hsize, ?_, ?_, fun pos => ⟨fun hpos => ?_, fun hpos => ?_⟩⟩
  · rw [State.regValue, hsize, BitVec.ofNat_toNat, BitVec.setWidth_eq]
  · rw [State.regValue, ht]; decide
  · obtain ⟨b, hb⟩ := Option.isSome_iff_exists.1 ((hts.resultFilled ht pos).2 hpos)
    exact ⟨b, by rw [readResult, if_pos ⟨ht, hpos⟩, hb], hres ▸ hb⟩
  · rw [readResult, if_neg fun h => Nat.not_lt.2 hpos h.2]

end Sys2Proof.Machine
end

