-- ==== Sys2Proof/Proofs/Progress.lean ====
section
/-! A sound core whose input is loaded never faults: every position of its source that it may read is written, so that
neither the decoder nor a meaning meets an unwritten byte. -/

namespace Sys2Proof.Machine

/-! ### What a computation can fail with -/

/-- A computation ends well, or in an error of the given kind. -/
def FailsOnly {ε α : Type} (p : ε → Prop) (r : Except ε α) : Prop :=
  ∀ e, r = .error e → p e

theorem FailsOnly.ok {ε α : Type} {p : ε → Prop} (a : α) : FailsOnly p (.ok a) := by
  intro e h; cases h

theorem FailsOnly.error {ε α : Type} {p : ε → Prop} {e : ε} (h : p e) : FailsOnly p (.error e : Except ε α) := by
  intro e' h'; cases h'; exact h

theorem FailsOnly.bind {ε α β : Type} {p : ε → Prop} {x : Except ε α} {f : α → Except ε β} (hx : FailsOnly p x)
    (hf : ∀ a, x = .ok a → FailsOnly p (f a)) : FailsOnly p (x >>= f) := by
  intro e h
  rcases Except.bind_eq_error.1 h with h | ⟨a, ha, h⟩
  · exact hx e h
  · exact hf a ha e h

/-! ### The decoder on written slots -/

/-- Every slot holds a byte. -/
def AllWritten (sl : List Slot) : Prop :=
  ∀ slot ∈ sl, slot.isSome = true

/-- The errors that every context but that of the pre-pass can end in, but for an unwritten byte, are of the kind. -/
structure PlainErrors (p : Reject → Prop) : Prop where
  truncated : p .truncated
  badAlgorithmTag : ∀ size, p (.badAlgorithmTag size)
  badRLEEscapeTable : p .badRLEEscapeTable
  badVLEHeader : p .badVLEHeader
  badVLECode : p .badVLECode

/-- An unwritten byte is not met, or is an error of the kind. -/
def Meets (p : Reject → Prop) (sl : List Slot) : Prop :=
  AllWritten sl ∨ p .unwritten

section
variable {p : Reject → Prop} {sl rest : List Slot} {n : Nat}

theorem Meets.of_takeByte {b : Byte} (h : Meets p sl) (hok : takeByte sl = .ok (b, rest)) : Meets p rest := by
  rw [takeByte_ok.1 hok] at h
  exact h.imp_left fun h slot hs => h slot (List.mem_cons_of_mem _ hs)

theorem Meets.of_takeBytes {bs : List Byte} (h : Meets p sl) (hok : takeBytes n sl = .ok (bs, rest)) : Meets p rest := by
  rw [(takeBytes_ok.1 hok).2] at h
  exact h.imp_left fun h slot hs => h slot (List.mem_append_right _ hs)

theorem Meets.of_skipSlots (h : Meets p sl) (hok : skipSlots n sl = .ok rest) : Meets p rest := by
  rw [(skipSlots_ok.1 hok).2]
  exact h.imp_left fun h slot hs => h slot (List.mem_of_mem_drop hs)

theorem takeByte_failsOnly (ht : p .truncated) (h : Meets p sl) : FailsOnly p (takeByte sl) := by
  rcases sl with _ | ⟨_ | b, sl⟩
  · exact .error ht
  · exact .error (h.resolve_left fun h => by simpa using h none (List.mem_cons_self ..))
  · exact .ok _

theorem takeBytes_failsOnly (ht : p .truncated) (n : Nat) {sl : List Slot} (h : Meets p sl) :
    FailsOnly p (takeBytes n sl) := by
  induction n generalizing sl with
  | zero => exact .ok _
  | succ n ih => exact (takeByte_failsOnly ht h).bind fun a ha => (ih (h.of_takeByte ha)).bind fun _ _ => .ok _

theorem skipSlots_failsOnly (ht : p .truncated) (n : Nat) (sl : List Slot) : FailsOnly p (skipSlots n sl) := by
  unfold skipSlots
  split
  · exact .error ht
  · exact .ok _

theorem decodeChdr_failsOnly (he : PlainErrors p) (h : Meets p sl) : FailsOnly p (decodeChdr sl) := by
  refine (takeByte_failsOnly he.truncated h).bind fun a _ => ?_
  simp only
  split
  · exact (skipSlots_failsOnly he.truncated _ _).bind fun _ _ => .ok _
  · exact .ok _

theorem decodePhdr_failsOnly (he : PlainErrors p) (h : Meets p sl) : FailsOnly p (decodePhdr sl) := by
  refine (takeByte_failsOnly he.truncated h).bind fun a ha => ?_
  have h1 := h.of_takeByte ha
  refine (takeByte_failsOnly he.truncated h1).bind fun b hb => ?_
  have h2 := h1.of_takeByte hb
  refine (takeByte_failsOnly he.truncated h2).bind fun c hc => ?_
  refine (takeByte_failsOnly he.truncated (h2.of_takeByte hc)).bind fun d _ => ?_
  simp only
  split
  · exact .ok _
  split
  · exact .ok _
  · exact .error (he.badAlgorithmTag _)

theorem decodeRhdr_failsOnly (he : PlainErrors p) (h : Meets p sl) : FailsOnly p (decodeRhdr sl) := by
  refine (skipSlots_failsOnly he.truncated _ _).bind fun a ha => ?_
  have h1 := h.of_skipSlots ha
  refine (takeByte_failsOnly he.truncated h1).bind fun b hb => ?_
  simp only
  split
  · exact .error he.badRLEEscapeTable
  split
  · exact .error he.badRLEEscapeTable
  refine (takeBytes_failsOnly he.truncated _ (h1.of_takeByte hb)).bind fun c _ => ?_
  split <;> exact .ok _

theorem decodeSbr_failsOnly (he : PlainErrors p) (lookup : Vector (Fin 11) 256) (h : Meets p sl) :
    FailsOnly p (decodeSbr lookup sl) := by
  refine (takeByte_failsOnly he.truncated h).bind fun a ha => ?_
  have h1 := h.of_takeByte ha
  simp only
  split
  · exact .ok _
  split
  · exact (takeByte_failsOnly he.truncated h1).bind fun b hb =>
      (takeByte_failsOnly he.truncated (h1.of_takeByte hb)).bind fun _ _ => .ok _
  split
  · refine (takeByte_failsOnly he.truncated h1).bind fun b hb => ?_
    have h2 := h1.of_takeByte hb
    exact (takeByte_failsOnly he.truncated h2).bind fun c hc =>
      (takeByte_failsOnly he.truncated (h2.of_takeByte hc)).bind fun _ _ => .ok _
  · exact (takeByte_failsOnly he.truncated h1).bind fun _ _ => .ok _

theorem decodeVhdr_failsOnly (he : PlainErrors p) (h : Meets p sl) : FailsOnly p (decodeVhdr sl) := by
  refine (takeByte_failsOnly he.truncated h).bind fun a ha => ?_
  have h1 := h.of_takeByte ha
  simp only
  split
  · exact .error he.badVLEHeader
  refine (takeBytes_failsOnly he.truncated _ h1).bind fun b hb => ?_
  split
  · exact .error he.badVLEHeader
  · exact (takeBytes_failsOnly he.truncated _ (h1.of_takeBytes hb)).bind fun _ _ => .ok _

theorem decodeVdec_failsOnly (he : PlainErrors p) (widths : Vector Byte 256) (h : Meets p sl) :
    FailsOnly p (decodeVdec widths sl) := by
  refine (takeByte_failsOnly he.truncated h).bind fun a ha => ?_
  simp only
  split
  case h_10 => exact .error he.badVLECode
  all_goals exact .ok _

theorem decode_failsOnly (he : PlainErrors p) {c : Ctx} (hc : ∀ brk, c ≠ .seq brk) (h : Meets p sl) :
    FailsOnly p (decode c sl) := by
  cases c with
  | runStart | passEntry | pend => exact .ok _
  | chdr => exact decodeChdr_failsOnly he h
  | phdr => exact decodePhdr_failsOnly he h
  | rhdr => exact decodeRhdr_failsOnly he h
  | seq brk => exact absurd rfl (hc brk)
  | sbr full lookup =>
    cases full with
    | true => exact .ok _
    | false => exact decodeSbr_failsOnly he lookup h
  | vhdr => exact decodeVhdr_failsOnly he h
  | vdec full widths =>
    cases full with
    | true => exact .ok _
    | false => exact decodeVdec_failsOnly he widths h

end

/-- A token was not rejected for an unwritten byte. -/
def NoHole (r : Reject) : Prop :=
  r ≠ .unwritten ∧ ∀ got, r ≠ .blockCut got true

theorem plainErrors_noHole : PlainErrors NoHole := by
  constructor <;> simp [NoHole]

theorem takeBody_noHole (brk : Byte) (got : Nat) {sl : List Slot} (h : AllWritten sl) :
    FailsOnly NoHole (takeBody brk got sl) := by
  induction sl generalizing got with
  | nil => exact .error (by simp [NoHole])
  | cons slot sl ih =>
    have hrest : AllWritten sl := fun x hx => h x (List.mem_cons_of_mem _ hx)
    cases slot with
    | none => simpa using h none (List.mem_cons_self ..)
    | some c =>
      unfold takeBody
      split
      · exact .ok _
      · exact (ih (got + 1) hrest).bind fun _ _ => .ok _

theorem takeRep_noHole (got : Nat) {sl : List Slot} (h : AllWritten sl) : FailsOnly NoHole (takeRep got sl) := by
  rcases sl with _ | ⟨_ | b, sl⟩
  · exact .error (by simp [NoHole])
  · simpa using h none (List.mem_cons_self ..)
  · exact .ok _

theorem decodeSeq_noHole (brk : Byte) {sl : List Slot} (h : AllWritten sl) : FailsOnly NoHole (decodeSeq brk sl) := by
  refine (takeByte_failsOnly plainErrors_noHole.truncated (.inl h)).bind fun a ha => ?_
  have h1 : AllWritten a.2 := fun slot hs => h slot (by rw [takeByte_ok.1 ha]; exact List.mem_cons_of_mem _ hs)
  simp only
  split
  · refine (takeBody_noHole _ _ h1).bind fun b hb => (takeRep_noHole _ ?_).bind fun _ _ => .ok _
    have hsl := (takeBody_ok (body := b.1) (rest := b.2).1 hb).2
    exact fun x hx => h1 x (hsl ▸ List.mem_append_right _ (List.mem_cons_of_mem _ hx))
  · exact .ok _

theorem decode_noHole (c : Ctx) {sl : List Slot} (h : AllWritten sl) : FailsOnly NoHole (decode c sl) := by
  by_cases hc : ∃ brk, c = .seq brk
  · obtain ⟨brk, rfl⟩ := hc
    exact decodeSeq_noHole brk h
  · exact decode_failsOnly plainErrors_noHole (fun brk he => hc ⟨brk, he⟩) (.inl h)

/-! ### The meanings on a written rest -/

/-- A computation stopped in an error of the spec, not in a fault. -/
def Stop.isRaise (e : Stop) : Prop :=
  ∃ k, e = .raise k

theorem finish_ne_fault {s : State} {r : Except Stop State} (h : FailsOnly Stop.isRaise r) (f : Fault) :
    finish s r ≠ .fault f := by
  rcases r with e | t
  · obtain ⟨k, rfl⟩ := h e rfl
    simp
  · simp

theorem raise_failsOnly {α : Type} (k : ErrKind) : FailsOnly Stop.isRaise (.error (.raise k) : Except Stop α) :=
  .error ⟨k, rfl⟩

theorem emit_failsOnly (bs : List Byte) (s : State) : FailsOnly Stop.isRaise (emit bs s) :=
  fun _ h => ⟨_, (emit_error.1 h).2⟩

theorem extraCopies_failsOnly (z : SeqRepZero) (rep : Byte) : FailsOnly Stop.isRaise (extraCopies z rep) := by
  unfold extraCopies
  split
  · cases z
    · exact raise_failsOnly _
    · exact .ok _
    · exact .ok _
  · exact .ok _

theorem readByte_failsOnly {s : State} (h : s.RestWritten) : FailsOnly Stop.isRaise (readByte s) := by
  by_cases hlt : s.cur.rd < s.cur.srcLen
  · obtain ⟨b, hb, -⟩ := h.readByte hlt
    rw [hb]
    exact .ok _
  · rw [readByte, if_pos (Nat.not_lt.1 hlt)]
    exact raise_failsOnly _

theorem State.RestWritten.of_same {s t : State} (h : s.RestWritten) (hsame : SameButWindow s t) : t.RestWritten :=
  h.forward hsame.srcMem hsame.srcLen hsame.rdLe

/-- The rest of the source is written, and no byte is emitted into the source. -/
structure Readable (s : State) : Prop where
  rest : s.RestWritten
  apart : s.cur.src ≠ .tmp ∨ s.dest.dst = .out

theorem Readable.append {s : State} (h : Readable s) (bs : List Byte) : Readable (s.append bs) where
  rest := by
    refine h.rest.forward ?_ rfl (Nat.le_refl _)
    rcases h.apart with hsrc | hout
    · exact srcMem_append_of_src hsrc bs
    · exact srcMem_append_of_out hout bs
  apart := by simpa using h.apart

theorem Readable.of_same {s t : State} (h : Readable s) (hsame : SameButWindow s t) : Readable t where
  rest := h.rest.of_same hsame
  apart := by rw [hsame.src, hsame.dest]; exact h.apart

theorem shiftWindow_failsOnly (w : Nat) {s : State} (h : s.RestWritten) : FailsOnly Stop.isRaise (shiftWindow w s) := by
  unfold shiftWindow
  split
  · exact (readByte_failsOnly (s := s) h).bind fun _ _ => .ok _
  · exact .ok _

theorem reloadWindow_failsOnly {s : State} (h : s.RestWritten) : FailsOnly Stop.isRaise (reloadWindow s) :=
  (readByte_failsOnly h).bind fun _ _ => .ok _

theorem initWindow_failsOnly {s : State} (h : s.RestWritten) : FailsOnly Stop.isRaise (initWindow s) := by
  refine (readByte_failsOnly h).bind fun a ha => ?_
  exact (readByte_failsOnly (h.of_same (readByte_same (b := a.1) ha).1)).bind fun _ _ => .ok _

theorem escRefill_failsOnly {s : State} (h : s.RestWritten) : FailsOnly Stop.isRaise (escRefill s) := by
  unfold escRefill
  split
  · exact (readByte_failsOnly h).bind fun _ _ => .ok _
  · exact .ok _

theorem escapeLoop_failsOnly (fuel : Nat) {s : State} (h : s.RestWritten) : FailsOnly Stop.isRaise (escapeLoop fuel s) := by
  induction fuel generalizing s with
  | zero => exact raise_failsOnly _
  | succ fuel ih =>
    rw [escapeLoop_succ]
    refine (escRefill_failsOnly h).bind fun t ht => ?_
    have hu : (escBit t).RestWritten := h.of_same ((escRefill_same ht).1.trans (escBit_same t))
    unfold escJudge
    split
    · split
      · split
        · exact emit_failsOnly _ _
        · exact raise_failsOnly _
      · exact ih hu
    · exact raise_failsOnly _

theorem shortCode_ne_fault (w : Nat) (pfx : Byte) {s : State} (h : Readable s) (f : Fault) :
    shortCode w pfx s ≠ .fault f := by
  refine finish_ne_fault ((emit_failsOnly _ _).bind fun t ht => ?_) f
  obtain ⟨-, rfl⟩ := emit_ok.1 ht
  split
  · exact .ok _
  · exact shiftWindow_failsOnly w (h.append _).rest

theorem vleLong_ne_fault (pfx : Byte) {s : State} (h : Readable s) (f : Fault) : exec (.vleLong pfx) s ≠ .fault f := by
  have hent := h.of_same (enterLong_same pfx s)
  rw [execVleLong_eq]
  refine finish_ne_fault ((escapeLoop_failsOnly 9 hent.rest).bind fun t ht => ?_) f
  obtain ⟨u, idx, hi, hsame, -, -, hem⟩ := escapeLoop_ok ht
  obtain ⟨-, rfl⟩ := emit_ok.1 hem
  split
  · exact .ok _
  · exact reloadWindow_failsOnly ((hent.of_same hsame).append _).rest

theorem vleHdr_ne_fault (counts alphabet : List Byte) {s : State} (h : s.RestWritten) (f : Fault) :
    exec (.vleHdr counts alphabet) s ≠ .fault f := by
  rw [execVleHdr_eq]
  refine finish_ne_fault (FailsOnly.bind ?_ fun v _ => initWindow_failsOnly ?_) f
  · rcases withDirect_cases (s.vle.withCounts counts alphabet) counts with ⟨-, b, hb, -⟩ | ⟨-, he⟩
    · rw [hb]; exact .ok _
    · rw [he]; exact raise_failsOnly _
  · exact h.forward rfl rfl (by simp only; omega)

theorem ite_next_ne_fault {c : Prop} [Decidable c] {s t : State} {f : Fault} :
    (if c then .next s else .next t : Out) ≠ .fault f := by
  split <;> exact nofun

theorem exec_ne_fault (i : Instr) {s : State} (h : Readable s) (f : Fault) : exec i s ≠ .fault f := by
  cases i with
  | runStart | passEntry | phdrRle | phdrVle | rhdrSeq => exact ite_next_ne_fault
  | chdrSingle | chdrMulti | rhdrNoseq | passEnd | passChain | runDone => exact nofun
  | seqBlock brk body rep =>
    exact finish_ne_fault ((emit_failsOnly _ _).bind fun _ _ => (extraCopies_failsOnly _ _).bind fun _ _ => emit_failsOnly _ _) f
  | vleHdr counts alphabet => exact vleHdr_ne_fault counts alphabet h.rest f
  | vleLong pfx => exact vleLong_ne_fault pfx h f
  | vleShortW1 pfx | vleShortW2 pfx | vleShortW3 pfx | vleShortW4 pfx | vleShortW5 pfx | vleShortW6 pfx
  | vleShortW7 pfx | vleShortW8 pfx => exact shortCode_ne_fault _ pfx h f
  | _ => exact finish_ne_fault (emit_failsOnly _ _) f

/-! ### A step -/

theorem rejected_ne_fault (s : State) {r : Reject} (h : NoHole r) (f : Fault) : rejected s r ≠ .fault f := by
  obtain ⟨h1, h2⟩ := h
  cases r with
  | unwritten => exact absurd rfl h1
  | blockCut got hole =>
    cases hole with
    | true => exact absurd rfl (h2 got)
    | false => simp only [rejected]; exact ite_next_ne_fault
  | badAlgorithmTag => exact ite_next_ne_fault
  | _ => exact nofun

theorem decode_of_fetch_reject {s : State} {r : Reject} (h : fetch s = .reject r) :
    ∃ c, s.context = some c ∧ decode c s.tokenSlots = .error r := by
  unfold fetch at h
  split at h
  · cases h
  split at h
  · cases h
  split at h
  · cases h
  split at h
  · cases h
  · next hc _ _ _ e hd => injection h with h; exact ⟨_, hc, h ▸ hd⟩

theorem runFetched_ne_fault (s : State) {t : State} (h : Readable t) (f : Fault) : runFetched exec s t ≠ .fault f := by
  unfold runFetched
  cases hf : fetch t with
  | instr i => exact exec_ne_fault i h f
  | underflow | seqEnd | idle => exact nofun
  | reject r =>
    have hsl : AllWritten t.tokenSlots := by
      unfold State.tokenSlots
      split
      · simp [AllWritten]
      · exact h.rest
    obtain ⟨c, -, hd⟩ := decode_of_fetch_reject hf
    exact rejected_ne_fault s (decode_noHole c hsl r hd) f

/-- Outside PEND the rest of a loaded source is written (10_state.md R32). -/
theorem State.Sound.readable {s : State} (hs : s.Sound) (hin : s.InputLoaded) (hb : s.phase.busy = true)
    (hp : s.phase ≠ .pend) : Readable s where
  rest := by
    refine s.RestWritten_iff.2 fun a _ ha => ?_
    by_cases hsrc : s.cur.src = .inMem
    · rw [State.srcMem, hsrc]
      exact hin a (hs.cursors.inputLen hb hsrc ▸ ha)
    · exact hs.buffers.srcWritten hb hsrc (fun h => hp h.1) a ha
  apart := by
    by_cases hsrc : s.cur.src = .tmp
    · have hsbr := (hs.cursors.tmpSrc hb hsrc).resolve_right hp
      exact .inr (hs.dst_out (by rw [hsbr]; rfl) (by simp [hsbr]))
    · exact .inl hsrc

theorem step_ne_fault {s : State} (hs : s.Sound) (hin : s.InputLoaded) (f : Fault) : step s ≠ .fault f := by
  cases hb : s.phase.busy with
  | false => rw [idleCoreStaysAsItIs s hb]; exact nofun
  | true =>
    by_cases hpend : s.phase = .pend
    · rw [step_pend hpend rfl]
      split <;> exact nofun
    have hread := hs.readable hin hb hpend
    by_cases hchdr : s.phase = .chdr
    · by_cases hlen : s.host.inLen.toNat ≤ maxInLen
      · rw [step_chdr_of_inLen_le hchdr hlen]
        have hstart : Readable s.rewound := ⟨s.rewound.RestWritten_iff.2 fun a _ ha => hin a ha, .inl (by simp)⟩
        exact runFetched_ne_fault s hstart f
      · rw [step_chdr_of_inLen_gt hchdr (Nat.not_le.1 hlen)]
        exact nofun
    by_cases hphdr : s.phase = .phdr
    · by_cases hcount : s.pass.passCount = 0
      · rw [step_phdr_of_passCount_eq_zero hphdr hcount]
        exact nofun
      · rw [step_phdr_of_passCount_ne_zero hphdr hcount]
        exact runFetched_ne_fault s hread f
    · rw [step_of_entryContext_none (by unfold State.entryContext; split <;> simp_all)]
      exact runFetched_ne_fault s hread f

/-- Settles O48: a step is never refused, and in such a state it does not fault. -/
theorem soundLoadedStateSteps : Obligations.SoundLoadedStateSteps := by
  intro s hs hin
  cases h : step s with
  | next t => exact ⟨t, h⟩
  | fault f => exact absurd h (step_ne_fault hs hin f)
  | refused r => exact absurd h (stepIsNeverRefused s r)

end Sys2Proof.Machine
end

