-- ==== Sys2Proof/Proofs/Termination.lean ====
section
/-! Every run ends: what is left of a run, counted in steps, goes down in every step, and it is at most the bound of
40_driver.md R131 where the run begins. -/

namespace Sys2Proof.Machine

/-- The most steps left in the current pass, PEND included: a source byte or an output byte per step, with at most
16,777,215 of each, and a few steps between the phases. -/
def State.passStepsLeft (s : State) : Nat :=
  match s.phase with
  | .rhdr | .vhdr => 2 * 16777215 + 6
  | .seq => s.cur.srcLen - s.cur.rd + 16777220
  | .sbr => s.cur.srcLen - s.cur.rd + 3
  | .vdec => s.dest.dstLen - s.dest.wr + 3
  | .pend => 1
  | .idle | .chdr | .phdr | .done | .error => 0

/-- The most steps left in the run. -/
def State.stepsLeft (s : State) : Nat :=
  match s.phase with
  | .idle | .done | .error => 0
  | .chdr => runBound
  | .phdr => 1 + (s.pass.passCount - s.pass.passIndex) * (2 * 16777215 + 8)
  | .rhdr | .seq | .sbr | .vhdr | .vdec | .pend =>
    1 + (s.pass.passCount - s.pass.passIndex - 1) * (2 * 16777215 + 8) + s.passStepsLeft

theorem State.stepsLeft_of_inPass {s : State} (h : s.phase.inPass = true) :
    s.stepsLeft = 1 + (s.pass.passCount - s.pass.passIndex - 1) * (2 * 16777215 + 8) + s.passStepsLeft := by
  unfold State.stepsLeft
  cases hp : s.phase <;> simp_all [Phase.inPass]

theorem State.stepsLeft_pos {s : State} (h : s.phase.busy = true) : 0 < s.stepsLeft := by
  unfold State.stepsLeft
  cases hp : s.phase <;> simp_all [Phase.busy]

/-- Within a pass the steps left in it decide. -/
theorem State.stepsLeft_lt {s t : State} (hs : s.phase.inPass = true) (ht : t.phase.inPass = true)
    (hpass : t.pass = s.pass) (h : t.passStepsLeft < s.passStepsLeft) : t.stepsLeft < s.stepsLeft := by
  rw [State.stepsLeft_of_inPass hs, State.stepsLeft_of_inPass ht, hpass]
  omega

theorem State.Sound.srcLen_le {s : State} (hs : s.Sound) (hp : s.phase.inPass = true) : s.cur.srcLen ≤ 16777215 :=
  hs.cursors.srcLenLe (fun h => by rw [h] at hp; cases hp) (fun h => by rw [h] at hp; cases hp)

theorem State.Sound.dstLen_le {s : State} (hs : s.Sound) : s.dest.dstLen ≤ 16777215 := by
  have h := s.pass.subFileSize.isLt
  rw [hs.cursors.dstLenEq]
  omega

theorem stepsLeft_lt_of_decodesCode {s t : State} (hs : s.Sound) (hp : s.phase = .vdec) (h : DecodesCode s t) :
    t.stepsLeft < s.stepsLeft := by
  have hc := codeCursors_of_decodesCode hs hp h
  have hfits := hc.fits
  refine State.stepsLeft_lt (by rw [hp]; rfl) (by rw [hc.phase]; rfl) hc.pass ?_
  simp only [State.passStepsLeft, hc.phase, hp, hc.dest]
  omega

theorem stepsLeft_lt_of_stepEffect {s t : State} (hs : s.Sound) (h : StepEffect s t) (hb : s.phase.busy = true) :
    t.stepsLeft < s.stepsLeft := by
  have hdst := hs.dstLen_le
  cases h with
  | idle h => rw [hb] at h; cases h
  | error k => exact s.stepsLeft_pos hb
  | container count rd h hlen hcnt hrd =>
    simp only [State.stepsLeft, enterPasses_phase, enterPasses_pass, h, runBound]
    omega
  | passHeader tag size engine h hcnt hsz hrd he =>
    have hlt := hs.passes.phdrLt h hcnt
    rcases he with ⟨rfl, -⟩ | ⟨rfl, -⟩ <;>
      simp only [State.stepsLeft, State.passStepsLeft, State.advance_pass, h] <;> omega
  | rleHeader escs h hn hrd =>
    have hlen := hs.srcLen_le (by rw [h]; rfl)
    refine State.stepsLeft_lt (by rw [h]; rfl) rfl rfl ?_
    simp only [State.passStepsLeft, State.advance_cur, h]
    omega
  | seqHeader escs h hn hrd =>
    have hlen := hs.srcLen_le (by rw [h]; rfl)
    refine State.stepsLeft_lt (by rw [h]; rfl) rfl rfl ?_
    simp only [State.passStepsLeft, State.advance_cur, h]
    omega
  | preEnd h =>
    have htmp := hs.cursors.tmpWrLe (.inl h)
    refine State.stepsLeft_lt (by rw [h]; rfl) rfl rfl ?_
    simp only [State.passStepsLeft, endPrePass, h]
    omega
  | seqLit b h hbr hrd =>
    refine State.stepsLeft_lt (by rw [h]; rfl) (by simp [h, Phase.inPass]) rfl ?_
    simp only [State.passStepsLeft, State.append_phase, State.append_cur, State.advance_phase, State.advance_cur, h]
    omega
  | seqBlock body rep extra h hbr hrd =>
    refine State.stepsLeft_lt (by rw [h]; rfl) (by simp [h, Phase.inPass]) rfl ?_
    simp only [State.passStepsLeft, State.append_phase, State.append_cur, State.advance_phase, State.advance_cur, h]
    omega
  | run len n v h hw hl hrd =>
    refine State.stepsLeft_lt (by rw [h]; rfl) (by simp [h, Phase.inPass]) rfl ?_
    simp only [State.passStepsLeft, State.append_phase, State.append_cur, State.advance_phase, State.advance_cur, h]
    omega
  | passEnd h hw =>
    refine State.stepsLeft_lt (by rcases h with h | h <;> rw [h] <;> rfl) rfl rfl ?_
    rcases h with h | h <;> simp only [State.passStepsLeft, h] <;> omega
  | vleHeader counts alphabet v t h hw hrd hv hi =>
    obtain ⟨hsame, hp, -⟩ := initWindow_ok hi
    refine State.stepsLeft_lt (by rw [h]; rfl) (by rw [hp]; rfl) hsame.pass ?_
    simp only [State.passStepsLeft, hp, h, hsame.dest]
    omega
  | short w u t h hw hr hx he ht => exact stepsLeft_lt_of_decodesCode hs h (decodesCode_of_short he ht)
  | long u t h hw he ht => exact stepsLeft_lt_of_decodesCode hs h (decodesCode_of_long he ht)
  | chain t h hc ht =>
    cases ht
    have hlt := hs.passes.passLt (by rw [h]; rfl)
    simp only [State.stepsLeft, State.passStepsLeft, h]
    omega
  | done t h hc ht =>
    cases ht
    exact s.stepsLeft_pos hb

theorem State.InputLoaded.of_step {s t : State} (h : s.InputLoaded) (hst : step s = .next t) : t.InputLoaded := by
  obtain ⟨hmem, hlen, -⟩ := stepKeepsInputAndConfig s t hst
  intro a ha
  rw [hmem]
  exact h a (hlen ▸ ha)

theorem Phase.ended_of_edge {p q : Phase} (h : p.edge q = true) (hp : p.busy = true) (hq : q.busy = false) :
    q.ended = true := by
  cases q with
  | idle => cases p <;> simp_all [Phase.edge, Phase.busy]
  | done | error => rfl
  | _ => cases hq

/-- A busy sound core with its input loaded ends its run within the steps it has left. -/
theorem exists_run_ended (k : Nat) {s : State} (hs : s.Sound) (hin : s.InputLoaded) (hb : s.phase.busy = true)
    (hk : s.stepsLeft ≤ k) : ∃ n t, n ≤ k ∧ core.run n s = .next t ∧ t.phase.ended = true := by
  induction k generalizing s with
  | zero => exact absurd (s.stepsLeft_pos hb) (by omega)
  | succ k ih =>
    obtain ⟨t, ht⟩ := soundLoadedStateSteps s hs hin
    have heff := step_effect ht
    cases htb : t.phase.busy with
    | false =>
      exact ⟨1, t, by omega, run_succ_of_next ht 0, Phase.ended_of_edge (edge_of_stepEffect heff) hb htb⟩
    | true =>
      have hlt := stepsLeft_lt_of_stepEffect hs heff hb
      obtain ⟨n, u, hn, hu, hended⟩ := ih (hs.of_stepEffect heff) (hin.of_step ht) htb (by omega)
      exact ⟨n + 1, u, by omega, (run_succ_of_next ht n).trans hu, hended⟩

/-- Settles O49: after START the steps left are the bound. -/
theorem everyRunEnds : Obligations.EveryRunEnds := by
  intro s hs hin hp
  exact exists_run_ended runBound hs hin (by rw [hp]; rfl) (by simp only [State.stepsLeft, hp, Nat.le_refl])

end Sys2Proof.Machine
end

