-- ==== Sys2Proof/Proofs/Determinism.lean ====
section
/-! A run's outcome depends on its input alone: two states that agree on what a step reads (`Twin`) step to two states
that agree again, or to the same fault. START makes any two idle states with the same input agree. -/

namespace Sys2Proof.Machine

/-! ### States that agree on what is read -/

/-- A header's direct table does not depend on what was there before it. -/
theorem VleRegs.TablesOf.direct_eq {v w : VleRegs} {counts alphabet : List Byte}
    (hwf : (Instr.vleHdr counts alphabet).wellFormed = true) (hv : v.TablesOf counts alphabet)
    (hw : w.TablesOf counts alphabet) (x : Nat) (hx : x < 256) :
    w.widths[x] = v.widths[x] ∧ w.symbols[x] = v.symbols[x] := by
  obtain ⟨hlen, hsum, hal⟩ := wellFormed_vleHdr_iff.1 hwf
  by_cases hlt : x < directEnd counts (min counts.length 8)
  · obtain ⟨k, hk, hle, hcode⟩ := exists_width_of_lt_directEnd (Nat.min_le_right _ _) hlt
    have hj : x >>> (7 - k) - firstCode counts k < countAt counts k := by omega
    have hidx := symbolsBefore_le_countSum (counts := counts) (n := k + 1) (by omega)
    rw [symbolsBefore_succ] at hidx
    obtain ⟨hv1, hv2⟩ := hv.entry k _ x hx hk hj (by omega)
    obtain ⟨hw1, hw2⟩ := hw.entry k _ x hx hk hj (by omega)
    have hin : symbolsBefore counts k + (x >>> (7 - k) - firstCode counts k) < alphabet.length := by omega
    rw [Vector.getElem?_eq_getElem (by omega)] at hv2 hw2
    have hsv := hv.symbol _ (by omega) hin
    have hsw := hw.symbol _ (by omega) hin
    exact ⟨hw1.trans hv1.symm, by rw [hw2, hv2, hsv, hsw]⟩
  · obtain ⟨hv1, hv2⟩ := hv.rest x hx (Nat.not_lt.1 hlt)
    obtain ⟨hw1, hw2⟩ := hw.rest x hx (Nat.not_lt.1 hlt)
    exact ⟨hw1.trans hv1.symm, hw2.trans hv2.symm⟩

/-- The tables of one header, and the same bits in the window. What the alphabet's table holds beyond the header's
bytes may differ. -/
structure SameCodes (s t : State) : Prop where
  tables : ∃ counts alphabet, (Instr.vleHdr counts alphabet).wellFormed = true ∧ s.vle.TablesOf counts alphabet ∧
    t.vle.TablesOf counts alphabet
  word : t.win.word = s.win.word
  br : t.win.br = s.win.br

/-- The states agree on everything a later step reads before it is written again. -/
structure Twin (s t : State) : Prop where
  cfg : t.cfg = s.cfg
  phase : t.phase = s.phase
  cur : t.cur = s.cur
  host : t.host = s.host
  passCount : t.pass.passCount = s.pass.passCount
  passIndex : t.pass.passIndex = s.pass.passIndex
  out : t.buf.out = s.buf.out
  tmp : t.buf.tmp = s.buf.tmp
  prevOut : t.buf.prevOut = s.buf.prevOut
  result : t.buf.result = s.buf.result
  input : ∀ a < s.host.inLen.toNat, t.buf.inMem.read a = s.buf.inMem.read a
  inputLen : s.phase.busy = true → s.cur.src = .inMem → s.cur.srcLen = s.host.inLen.toNat
  dest : s.phase.inPass = true → t.dest.dst = s.dest.dst ∧ t.dest.wr = s.dest.wr ∧ t.dest.dstLen = s.dest.dstLen
  tmpWr : s.phase = .seq → s.dest.dst = .tmp ∧ t.dest.tmpWr = s.dest.tmpWr
  outDst : s.phase.inPass = true → s.phase ≠ .seq → s.dest.dst = .out
  bracket : s.phase = .seq → t.rle.bracket = s.rle.bracket
  lookup : s.phase = .seq ∨ s.phase = .sbr → t.rle.escLookup = s.rle.escLookup
  codes : s.phase = .vdec → SameCodes s t

/-- The outcomes of two steps agree: twin states, or the same fault. -/
inductive StepAgree : Out → Out → Prop where
  | next {s t : State} (h : Twin s t) : StepAgree (.next s) (.next t)
  | fault (f : Fault) : StepAgree (.fault f) (.fault f)

/-- Two computations end in related values, or stop alike. -/
inductive Agree {ε α β : Type} (R : α → β → Prop) : Except ε α → Except ε β → Prop where
  | ok {a : α} {b : β} (h : R a b) : Agree R (.ok a) (.ok b)
  | error (e : ε) : Agree R (.error e) (.error e)

theorem Agree.bind {ε α β γ δ : Type} {R : α → β → Prop} {Q : γ → δ → Prop} {x : Except ε α} {y : Except ε β}
    {f : α → Except ε γ} {g : β → Except ε δ} (h : Agree R x y) (hfg : ∀ a b, R a b → Agree Q (f a) (g b)) :
    Agree Q (x >>= f) (y >>= g) := by
  cases h with
  | ok h => exact hfg _ _ h
  | error e => exact .error e

theorem Agree.refl {ε α : Type} (x : Except ε α) : Agree Eq x x := by
  cases x with
  | ok a => exact .ok rfl
  | error e => exact .error e

theorem Phase.busy_of_inPass {p : Phase} (h : p.inPass = true) : p.busy = true := by
  cases p <;> simp_all [Phase.inPass, Phase.busy]

namespace Twin

variable {s t : State} (h : Twin s t)
include h

theorem wrCursor (hp : s.phase.inPass = true) : t.wrCursor = s.wrCursor := by
  obtain ⟨hdst, hwr, -⟩ := h.dest hp
  by_cases hseq : s.phase = .seq
  · obtain ⟨htmp, heq⟩ := h.tmpWr hseq
    rw [State.wrCursor_tmp htmp, State.wrCursor_tmp (hdst.trans htmp), heq]
  · have hout := h.outDst hp hseq
    rw [State.wrCursor_out hout, State.wrCursor_out (hdst.trans hout), hwr]

theorem source (hb : s.phase.busy = true) : ∀ a < s.cur.srcLen, t.srcMem.read a = s.srcMem.read a := by
  intro a ha
  rw [State.srcMem, State.srcMem, h.cur]
  cases hsrc : s.cur.src with
  | inMem => exact h.input a (h.inputLen hb hsrc ▸ ha)
  | prevOut => simp only [h.prevOut]
  | tmp => simp only [h.tmp]

theorem srcSlots (hb : s.phase.busy = true) : t.srcSlots = s.srcSlots := by
  rw [State.srcSlots, State.srcSlots, h.cur]
  refine List.map_congr_left fun a ha => h.source hb a ?_
  rw [List.mem_range'_1] at ha
  omega

theorem raise (k : ErrKind) : Twin (s.raise k) (t.raise k) := by
  constructor <;> simp [State.raise, State.discardBuffers, h.cfg, h.cur, h.host, h.passCount, h.passIndex, Phase.busy,
    Phase.inPass]
  exact h.input

theorem advance (n : Nat) : Twin (s.advance n) (t.advance n) :=
  { h with
    cur := by simp [h.cur]
    codes := fun hv => { h.codes hv with } }

/-- The same bytes appended at the same place. -/
theorem append (hp : s.phase.inPass = true) (bs : List Byte) : Twin (s.append bs) (t.append bs) := by
  obtain ⟨hdst, hwr, hlen⟩ := h.dest hp
  by_cases hseq : s.phase = .seq
  · obtain ⟨htmp, heq⟩ := h.tmpWr hseq
    have htmp' := hdst.trans htmp
    exact { h with
      out := by simpa [Buffers.wrote_tmp _ _ _ htmp, Buffers.wrote_tmp _ _ _ htmp'] using h.out
      tmp := by simp [Buffers.wrote_tmp _ _ _ htmp, Buffers.wrote_tmp _ _ _ htmp', h.tmp, heq]
      prevOut := by simpa using h.prevOut
      result := by simpa using h.result
      input := by simpa using h.input
      dest := fun _ => by simp [Dest.wrote_tmp _ _ htmp, Dest.wrote_tmp _ _ htmp', htmp, htmp', hwr, hlen]
      tmpWr := fun _ => by simp [Dest.wrote_tmp _ _ htmp, Dest.wrote_tmp _ _ htmp', htmp, heq]
      outDst := fun _ hne => absurd hseq hne
      codes := fun hv => by simp [hseq] at hv }
  · have hout := h.outDst hp hseq
    have hout' := hdst.trans hout
    exact { h with
      out := by simp [Buffers.wrote_out _ _ _ hout, Buffers.wrote_out _ _ _ hout', h.out, hwr]
      tmp := by simpa [Buffers.wrote_out _ _ _ hout, Buffers.wrote_out _ _ _ hout'] using h.tmp
      prevOut := by simpa using h.prevOut
      result := by simpa using h.result
      input := by simpa using h.input
      dest := fun _ => by simp [Dest.wrote_out _ _ hout, Dest.wrote_out _ _ hout', hout, hout', hwr, hlen]
      tmpWr := fun hs => absurd hs hseq
      outDst := fun _ _ => by simpa using hout
      codes := fun hv => { h.codes hv with } }

theorem finish {r q : Except Stop State} (hr : Agree Twin r q) : StepAgree (finish s r) (finish t q) := by
  cases hr with
  | ok h => exact .next h
  | error e =>
    cases e with
    | raise k => exact .next (h.raise k)
    | fault f => exact .fault f

/-! ### The shared operations -/

theorem readByte_agree (hb : s.phase.busy = true) :
    Agree (fun a b => b.1 = a.1 ∧ a.2 = s.advance 1 ∧ b.2 = t.advance 1) (readByte s) (readByte t) := by
  unfold readByte
  rw [h.cur]
  split
  · exact .error _
  · next hlt =>
    rw [h.source hb _ (Nat.not_le.1 hlt)]
    split
    · exact .ok ⟨rfl, rfl, rfl⟩
    · exact .error _

theorem emit_agree (hp : s.phase.inPass = true) (bs : List Byte) :
    Agree (fun u v => u = s.append bs ∧ v = t.append bs) (emit bs s) (emit bs t) := by
  unfold emit
  rw [h.wrCursor hp, (h.dest hp).2.2]
  split
  · exact .error _
  · exact .ok ⟨rfl, rfl⟩

theorem emit_twin (hp : s.phase.inPass = true) (bs : List Byte) : Agree Twin (emit bs s) (emit bs t) := by
  have he := h.emit_agree hp bs
  generalize emit bs s = r, emit bs t = q at he
  cases he with
  | ok hs => exact .ok (hs.1 ▸ hs.2 ▸ h.append hp bs)
  | error e => exact .error e

/-! ### Fetching -/

theorem rejected {r : Reject} (hcut : ∀ got hole, r = .blockCut got hole → s.phase = .seq) :
    StepAgree (rejected s r) (rejected t r) := by
  cases r with
  | unwritten => exact .fault _
  | blockCut got hole =>
    have hp : s.phase.inPass = true := by rw [hcut got hole rfl]; rfl
    simp only [Machine.rejected, h.wrCursor hp, (h.dest hp).2.2]
    split
    · exact .next (h.raise _)
    split
    · exact .fault _
    · exact .next (h.raise _)
  | badAlgorithmTag size =>
    simp only [Machine.rejected, h.cfg]
    split
    · exact .next (h.raise _)
    · exact .next (h.raise _)
  | truncated | badRLEEscapeTable | badVLEHeader | badVLECode => exact .next (h.raise _)

theorem tokenSlots (hb : s.phase.busy = true) : t.tokenSlots = s.tokenSlots := by
  unfold State.tokenSlots
  rw [h.phase, h.srcSlots hb]
  by_cases hp : s.phase = .vdec
  · rw [(h.codes hp).word]
  · rw [if_neg hp, if_neg hp]

theorem context : t.context = s.context := by
  unfold State.context
  rw [h.phase, h.passCount, h.passIndex]
  cases hp : s.phase with
  | seq => rw [h.bracket hp]
  | sbr =>
    obtain ⟨-, hwr, hlen⟩ := h.dest (by rw [hp]; rfl)
    simp only [h.lookup (.inr hp), hwr, hlen]
  | vdec =>
    obtain ⟨-, hwr, hlen⟩ := h.dest (by rw [hp]; rfl)
    obtain ⟨counts, alphabet, hwf, hs, ht⟩ := (h.codes hp).tables
    have hwidths : t.vle.widths = s.vle.widths := Vector.ext fun x hx => (hs.direct_eq hwf ht x hx).1
    simp only [hwr, hlen, hwidths]
  | idle | chdr | phdr | rhdr | vhdr | pend | done | error => rfl

theorem fetch : fetch t = fetch s := by
  unfold Machine.fetch
  rw [h.context, h.phase, h.cur]
  cases hc : s.context with
  | none => rfl
  | some c =>
    have hb : s.phase.busy = true := by
      unfold State.context at hc
      cases hp : s.phase <;> simp_all [Phase.busy]
    have hsbr : (s.phase = .sbr ∧ t.dest.wr ≠ t.dest.dstLen ∧ s.cur.rd = s.cur.srcLen) ↔
        (s.phase = .sbr ∧ s.dest.wr ≠ s.dest.dstLen ∧ s.cur.rd = s.cur.srcLen) := by
      refine and_congr_right fun hp => ?_
      obtain ⟨-, hwr, hlen⟩ := h.dest (by rw [hp]; rfl)
      rw [hwr, hlen]
    simp only [hsbr, h.tokenSlots hb]

/-! ### The meanings of the driver's and the RLE engine's tokens -/

theorem rewound (hp : s.phase = .chdr) : Twin s.rewound t.rewound := by
  constructor <;> simp [h.cfg, h.phase, h.host, h.passCount, h.passIndex, h.out, h.tmp, h.prevOut, h.result, hp, Phase.inPass]
  exact h.input

theorem enterPasses (hsrc : s.cur.src = .inMem → s.cur.srcLen = s.host.inLen.toNat) (count rd : Nat) :
    Twin (enterPasses count rd s) (enterPasses count rd t) := by
  constructor <;> simp [h.cfg, h.cur, h.host, h.out, h.tmp, h.prevOut, h.result, Phase.inPass]
  · exact h.input
  · exact fun _ => hsrc

theorem enterPass (hp : s.phase = .phdr) (tag : Byte) (size : BitVec 24) {engine : Phase}
    (he : engine = .rhdr ∨ engine = .vhdr) : StepAgree (enterPass tag size engine s) (enterPass tag size engine t) := by
  have hne : engine ≠ .seq ∧ engine ≠ .sbr ∧ engine ≠ .vdec := by rcases he with rfl | rfl <;> decide
  simp only [Machine.enterPass, h.cfg]
  split
  · exact .next (h.raise _)
  · exact .next { h with
      phase := rfl
      cur := by simp [h.cur]
      out := rfl
      inputLen := fun _ => h.inputLen (by rw [hp]; rfl)
      dest := fun _ => ⟨rfl, rfl, rfl⟩
      tmpWr := fun hq => absurd hq hne.1
      outDst := fun _ _ => rfl
      bracket := fun hq => absurd hq hne.1
      lookup := fun hq => absurd hq (by simp [hne])
      codes := fun hq => absurd hq hne.2.2 }

theorem rhdrNoseq (hp : s.phase = .rhdr) (escs : List Byte) :
    StepAgree (exec (.rhdrNoseq escs) s) (exec (.rhdrNoseq escs) t) := by
  refine .next { h with
    phase := rfl
    cur := by simp [h.cur]
    inputLen := fun _ => h.inputLen (by rw [hp]; rfl)
    dest := fun _ => h.dest (by rw [hp]; rfl)
    tmpWr := by simp
    outDst := fun _ _ => h.outDst (by rw [hp]; rfl) (by simp [hp])
    bracket := by simp
    lookup := fun _ => rfl
    codes := by simp }

theorem rhdrSeq (hp : s.phase = .rhdr) {escs : List Byte} (hlen : 2 ≤ escs.length) :
    StepAgree (exec (.rhdrSeq escs) s) (exec (.rhdrSeq escs) t) := by
  obtain ⟨-, hwr, hdst⟩ := h.dest (by rw [hp]; rfl)
  show StepAgree (execRhdrSeq escs s) (execRhdrSeq escs t)
  simp only [execRhdrSeq, hdst, h.cfg]
  split
  · exact .next (h.raise _)
  · exact .next { h with
      phase := rfl
      cur := by simp [h.cur]
      tmp := rfl
      inputLen := fun _ => h.inputLen (by rw [hp]; rfl)
      dest := fun _ => ⟨rfl, hwr, hdst⟩
      tmpWr := fun _ => ⟨rfl, rfl⟩
      outDst := by simp
      bracket := fun _ => by simp [RleRegs.withEscapes, List.getElem?_eq_getElem (show 1 < escs.length from hlen)]
      lookup := fun _ => rfl
      codes := by simp }

theorem endPrePass (hp : s.phase = .seq) : Twin (endPrePass s) (endPrePass t) := by
  obtain ⟨-, hwr, hlen⟩ := h.dest (by rw [hp]; rfl)
  obtain ⟨-, htmp⟩ := h.tmpWr hp
  exact { h with
    phase := rfl
    cur := by simp [Machine.endPrePass, htmp]
    inputLen := by simp [Machine.endPrePass]
    dest := fun _ => ⟨rfl, hwr, hlen⟩
    tmpWr := by simp [Machine.endPrePass]
    outDst := fun _ _ => rfl
    bracket := by simp [Machine.endPrePass]
    lookup := fun _ => h.lookup (.inl hp)
    codes := by simp [Machine.endPrePass] }

theorem atBlock (hp : s.phase = .seq) (len : Nat) (rep : Byte) : Twin (s.atBlock len rep) (t.atBlock len rep) :=
  { h with
    cur := by simp [h.cur]
    bracket := fun _ => h.bracket hp
    lookup := fun _ => h.lookup (.inl hp)
    codes := fun hv => by simp [hp] at hv }

theorem seqBlock (hp : s.phase = .seq) (brk : Byte) (body : List Byte) (rep : Byte) :
    StepAgree (exec (.seqBlock brk body rep) s) (exec (.seqBlock brk body rep) t) := by
  have hat := h.atBlock hp body.length rep
  have hin : (s.atBlock body.length rep).phase.inPass = true := by simp [hp, Phase.inPass]
  refine h.finish ((hat.emit_agree hin body).bind fun u v ⟨hu, hv⟩ => ?_)
  rw [hu, hv, h.cfg]
  refine (Agree.refl _).bind fun a b hab => ?_
  rw [hab]
  exact (hat.append hin body).emit_twin hin _

theorem runToken (hp : s.phase = .sbr) (len : Nat) (v : Byte) (n : Nat) :
    StepAgree (runToken len v n s) (runToken len v n t) :=
  h.finish ((h.advance len).emit_twin (by rw [State.advance_phase, hp]; rfl) _)

theorem passEnd (hp : s.phase.inPass = true) (hseq : s.phase ≠ .seq) : StepAgree (exec .passEnd s) (exec .passEnd t) :=
  .next { h with
    phase := rfl
    tmp := rfl
    inputLen := fun _ => h.inputLen (Phase.busy_of_inPass hp)
    dest := fun _ => h.dest hp
    tmpWr := by simp
    outDst := fun _ _ => h.outDst hp hseq
    bracket := by simp
    lookup := by simp
    codes := by simp }

theorem passChain (hp : s.phase = .pend) : StepAgree (exec .passChain s) (exec .passChain t) := by
  obtain ⟨-, -, hlen⟩ := h.dest (by rw [hp]; rfl)
  refine .next ?_
  constructor <;> simp [h.cfg, h.host, h.out, h.result, h.passCount, h.passIndex, hlen, Phase.inPass]
  exact h.input

theorem runDone (hp : s.phase = .pend) : StepAgree (exec .runDone s) (exec .runDone t) := by
  obtain ⟨-, -, hlen⟩ := h.dest (by rw [hp]; rfl)
  refine .next ?_
  constructor <;>
    simp [h.cfg, h.cur, h.host, h.out, h.tmp, h.prevOut, h.passCount, h.passIndex, hlen, Phase.inPass, Phase.busy]
  exact h.input

/-! ### The meanings of the VLE engine's tokens -/

theorem initWindow (hp : s.phase = .vhdr) {counts alphabet : List Byte}
    (hwf : (Instr.vleHdr counts alphabet).wellFormed = true) (hs : s.vle.TablesOf counts alphabet)
    (ht : t.vle.TablesOf counts alphabet) : Agree Twin (initWindow s) (initWindow t) := by
  have hb : s.phase.busy = true := by rw [hp]; rfl
  refine (h.readByte_agree hb).bind fun ⟨hi, u⟩ ⟨hi', v⟩ ⟨hbyte, hu, hv⟩ => ?_
  simp only at hbyte hu hv
  subst hbyte hu hv
  refine ((h.advance 1).readByte_agree hb).bind fun ⟨lo, u⟩ ⟨lo', v⟩ ⟨hbyte, hu, hv⟩ => ?_
  simp only at hbyte hu hv
  subst hbyte hu hv
  exact .ok { (h.advance 1).advance 1 with
    phase := rfl
    inputLen := fun _ => h.inputLen hb
    dest := fun _ => h.dest (by rw [hp]; rfl)
    tmpWr := by simp
    outDst := fun _ _ => h.outDst (by rw [hp]; rfl) (by simp [hp])
    bracket := by simp
    lookup := by simp
    codes := fun _ => ⟨⟨counts, alphabet, hwf, hs, ht⟩, rfl, rfl⟩ }

theorem vleHdr (hp : s.phase = .vhdr) {counts alphabet : List Byte}
    (hwf : (Instr.vleHdr counts alphabet).wellFormed = true) :
    StepAgree (exec (.vleHdr counts alphabet) s) (exec (.vleHdr counts alphabet) t) := by
  rw [execVleHdr_eq, execVleHdr_eq]
  refine h.finish ?_
  rcases withDirect_cases (s.vle.withCounts counts alphabet) counts with ⟨hfits, v, hv, -⟩ | ⟨hfits, hv⟩ <;>
    rcases withDirect_cases (t.vle.withCounts counts alphabet) counts with ⟨hfits', w, hw, -⟩ | ⟨hfits', hw⟩
  · rw [hv, hw]
    refine Twin.initWindow ?_ hp hwf (tablesOf_of_withDirect hv rfl) (tablesOf_of_withDirect hw rfl)
    exact { h with
      cur := by simp [h.cur]
      codes := fun hc => by simp [hp] at hc }
  · exact absurd hfits hfits'
  · exact absurd hfits' hfits
  · rw [hv, hw]
    exact .error _

theorem shiftWindow (hp : s.phase = .vdec) (w : Nat) : Agree Twin (shiftWindow w s) (shiftWindow w t) := by
  obtain ⟨htables, hword, hbr⟩ := h.codes hp
  unfold Machine.shiftWindow
  rw [hbr, hword]
  split
  · refine (h.readByte_agree (by rw [hp]; rfl)).bind fun ⟨b, u⟩ ⟨b', v⟩ ⟨hbyte, hu, hv⟩ => ?_
    simp only at hbyte hu hv
    subst hbyte hu hv
    exact .ok { h.advance 1 with codes := fun _ => ⟨htables, rfl, rfl⟩ }
  · exact .ok { h with codes := fun _ => ⟨htables, rfl, rfl⟩ }

theorem shortCode (hp : s.phase = .vdec) (w : Nat) (pfx : Byte) :
    StepAgree (shortCode w pfx s) (shortCode w pfx t) := by
  have hin : s.phase.inPass = true := by rw [hp]; rfl
  obtain ⟨⟨counts, alphabet, hwf, hs, ht⟩, -⟩ := h.codes hp
  refine h.finish ?_
  rw [(hs.direct_eq hwf ht pfx.toNat pfx.isLt).2]
  refine (h.emit_agree hin _).bind fun u v ⟨hu, hv⟩ => ?_
  have happ := h.append hin [s.vle.symbols[pfx.toNat]'pfx.isLt]
  obtain ⟨-, hwr, hlen⟩ := happ.dest hin
  rw [hu, hv, hwr, hlen]
  split
  · exact .ok happ
  · exact happ.shiftWindow hp w

end Twin

/-! ### The escape loop -/

theorem countAt_of_length_le {counts : List Byte} {n : Nat} (h : counts.length ≤ n) : countAt counts n = 0 := by
  rw [countAt, List.getElem?_eq_none h]
  rfl

theorem codesPast_length_add (counts : List Byte) (k : Nat) :
    codesPast counts (counts.length + k) = codesPast counts counts.length * 2 ^ k := by
  induction k with
  | zero => rw [Nat.pow_zero, Nat.mul_one, Nat.add_zero]
  | succ k ih =>
    rw [← Nat.add_assoc, codesPast_succ, firstCode_eq, countAt_of_length_le (Nat.le_add_right _ _), ih, Nat.add_zero,
      Nat.pow_succ', Nat.mul_left_comm]

/-- The direct table's short codes end where those of width 8 do. -/
theorem directEnd_min_length (counts : List Byte) : directEnd counts (min counts.length 8) = codesPast counts 8 := by
  rcases Nat.le_total counts.length 8 with h | h
  · rw [Nat.min_eq_left h, directEnd, ← codesPast_length_add, Nat.add_sub_cancel' h]
  · rw [Nat.min_eq_right h, directEnd, Nat.sub_self, Nat.pow_zero, Nat.mul_one]

/-- No shorter width takes the code that is being read, and it is as long as the widths tried. -/
structure Reached (counts : List Byte) (w : Window) : Prop where
  low : codesPast counts (w.escIndex + 1) ≤ w.word.toNat
  lt : w.word.toNat < 2 ^ (w.escIndex + 1)

/-- Twin states within a long code, where the whole window agrees. -/
structure LongTwin (counts alphabet : List Byte) (s t : State) : Prop where
  twin : Twin s t
  phase : s.phase = .vdec
  win : t.win = s.win
  left : s.vle.TablesOf counts alphabet
  right : t.vle.TablesOf counts alphabet

namespace LongTwin

variable {counts alphabet : List Byte} {s t : State}

theorem escRefill (h : LongTwin counts alphabet s t) (hr : Reached counts s.win) :
    Agree (fun u v => LongTwin counts alphabet u v ∧ Reached counts u.win)
      (escRefill s) (escRefill t) := by
  unfold Machine.escRefill
  rw [h.win]
  split
  · refine (h.twin.readByte_agree (by rw [h.phase]; rfl)).bind fun ⟨b, u⟩ ⟨b', v⟩ ⟨hbyte, hu, hv⟩ => ?_
    simp only at hbyte hu hv
    subst hbyte hu hv
    exact .ok ⟨{ h with
      twin := { h.twin.advance 1 with codes := fun _ => { h.twin.codes h.phase with br := rfl, word := by simp [h.win] } }
      win := by simp [h.win] }, ⟨hr.low, hr.lt⟩⟩
  · exact .ok ⟨h, hr⟩

theorem escBit (h : LongTwin counts alphabet s t) : LongTwin counts alphabet (escBit s) (escBit t) :=
  { h with
    twin := { h.twin with codes := fun _ => { h.twin.codes h.phase with br := by simp [h.win], word := by simp [h.win] } }
    win := by simp [Machine.escBit, h.win] }

end LongTwin

/-- The bit step doubles the code. -/
theorem Reached.escBit {counts : List Byte} {s : State} (h : Reached counts s.win) (h15 : s.win.escIndex < 15) :
    2 * codesPast counts (s.win.escIndex + 1) ≤ (escBit s).win.word.toNat ∧
      (escBit s).win.word.toNat < 2 ^ (s.win.escIndex + 2) := by
  have hlow := h.low
  have hlt := h.lt
  have hpow : 2 ^ (s.win.escIndex + 1) ≤ 2 ^ 15 := Nat.pow_le_pow_right (by decide) (by omega)
  have hbit : (highBit s.win.cs).toNat < 2 := Bool.toNat_lt _
  have hsucc : 2 ^ (s.win.escIndex + 2) = 2 ^ (s.win.escIndex + 1) * 2 := Nat.pow_succ ..
  have hword : (Machine.escBit s).win.word.toNat = 2 * s.win.word.toNat + (highBit s.win.cs).toNat :=
    word_escBit _ _ (by omega)
  omega

namespace LongTwin

variable {counts alphabet : List Byte} {s t : State}

/-- Twin states with the same window. -/
def After (s t : State) : Prop :=
  Twin s t ∧ s.phase = .vdec ∧ t.win = s.win

theorem emit (h : LongTwin counts alphabet s t) (b : Byte) : Agree After (emit [b] s) (emit [b] t) := by
  have hin : s.phase.inPass = true := by rw [h.phase]; rfl
  have he := h.twin.emit_agree hin [b]
  generalize Machine.emit [b] s = r, Machine.emit [b] t = q at he
  cases he with
  | ok hs => exact .ok ⟨hs.1 ▸ hs.2 ▸ h.twin.append hin [b], by rw [hs.1]; exact h.phase, by rw [hs.1, hs.2]; exact h.win⟩
  | error e => exact .error e

/-- After a bit: both match at this width and select the same byte, or neither does. -/
theorem escJudge (h : LongTwin counts alphabet s t) (hwf : (Instr.vleHdr counts alphabet).wellFormed = true) {m fuel : Nat}
    (hm : s.win.escIndex = m) (h16 : m < 16) (hlow : 2 * codesPast counts m ≤ s.win.word.toNat)
    (hlt : s.win.word.toNat < 2 ^ (m + 1))
    (hnext : Reached counts s.win → Agree After (escapeLoop fuel s) (escapeLoop fuel t)) :
    Agree After (escJudge fuel s) (escJudge fuel t) := by
  obtain ⟨hlen, hsum, hal⟩ := wellFormed_vleHdr_iff.1 hwf
  have hm' : t.win.escIndex = m := by rw [h.win, hm]
  have hword : t.win.word = s.win.word := by rw [h.win]
  have hlimit : t.vle.escLimit[m] = s.vle.escLimit[m] := by rw [h.left.counted.escLimit, h.right.counted.escLimit]
  have hbase : t.vle.escBase[m] = s.vle.escBase[m] := by rw [h.left.counted.escBase, h.right.counted.escBase]
  by_cases hmatch : (s.win.word.toNat : Int) < (s.vle.escLimit[m]).toInt
  · obtain ⟨hcount, heq⟩ := h.left.index_of_matched h16 hmatch hlen hlow
    have htotal := symbolsBefore_le_countSum (n := m + 1) (h.left.lt_length_of_matched h16 hmatch)
    rw [symbolsBefore_succ] at htotal
    have hidx : symbolsBefore counts m + (s.win.word.toNat - 2 * codesPast counts m) < alphabet.length := by omega
    have h256 := hidx.trans_le (hal ▸ hsum)
    rw [escJudge_matched hm h16 fuel h256 hmatch heq,
      escJudge_matched hm' h16 fuel h256 (by rw [hword, hlimit]; exact hmatch) (by rw [hword, hbase]; exact heq)]
    have hsym : t.vle.alphabet[symbolsBefore counts m + (s.win.word.toNat - 2 * codesPast counts m)] =
        s.vle.alphabet[symbolsBefore counts m + (s.win.word.toNat - 2 * codesPast counts m)] :=
      Option.some.inj ((h.right.symbol _ h256 hidx).trans (h.left.symbol _ h256 hidx).symm)
    rw [hsym]
    exact h.emit _
  · have hle := Int.not_lt.1 hmatch
    rw [escJudge_unmatched hm h16 fuel hle, escJudge_unmatched hm' h16 fuel (by rw [hword, hlimit]; exact hle)]
    refine hnext ⟨?_, hm ▸ hlt⟩
    rw [hm, codesPast_succ, firstCode_eq]
    by_cases hin : m < counts.length
    · rw [h.left.counted.escLimit_toInt hlen h16 hin, codesPast_succ, firstCode_eq] at hle
      exact_mod_cast hle
    · have hcount := countAt_of_length_le (Nat.not_lt.1 hin)
      omega

theorem escapeLoop (fuel : Nat) (h : LongTwin counts alphabet s t)
    (hwf : (Instr.vleHdr counts alphabet).wellFormed = true) (hr : Reached counts s.win) :
    Agree After (escapeLoop fuel s) (escapeLoop fuel t) := by
  induction fuel generalizing s t with
  | zero => exact .error _
  | succ fuel ih =>
    rw [escapeLoop_succ, escapeLoop_succ]
    refine (h.escRefill hr).bind fun u v ⟨huv, hru⟩ => ?_
    have hbit := huv.escBit
    by_cases h15 : u.win.escIndex < 15
    · obtain ⟨hlow, hlt⟩ := hru.escBit h15
      exact hbit.escJudge hwf (m := u.win.escIndex + 1) rfl (by omega) hlow hlt fun hr' => ih hbit hr'
    · have hge : 16 ≤ (Machine.escBit u).win.escIndex := by simp only [escBit_win]; omega
      rw [escJudge_limit rfl fuel hge, escJudge_limit (m := (Machine.escBit u).win.escIndex) (by rw [hbit.win]) fuel hge]
      exact .error _

theorem reloadWindow (h : After s t) : Agree Twin (reloadWindow s) (reloadWindow t) := by
  obtain ⟨htwin, hp, hwin⟩ := h
  refine (htwin.readByte_agree (by rw [hp]; rfl)).bind fun ⟨b, u⟩ ⟨b', v⟩ ⟨hbyte, hu, hv⟩ => ?_
  simp only at hbyte hu hv
  subst hbyte hu hv
  exact .ok { htwin.advance 1 with codes := fun _ => ⟨(htwin.codes hp).tables, by simp [hwin], by simp [hwin]⟩ }

end LongTwin

/-! ### A step -/

namespace Twin

variable {s t : State} (h : Twin s t)
include h

theorem vleLong (hp : s.phase = .vdec) (hw : s.vle.widths[(prefixOf s.win.word).toNat]'(prefixOf s.win.word).isLt =
    vleEscapeWidth) : StepAgree (exec (.vleLong (prefixOf s.win.word)) s) (exec (.vleLong (prefixOf s.win.word)) t) := by
  obtain ⟨⟨counts, alphabet, hwf, hs, ht⟩, hword, hbr⟩ := h.codes hp
  obtain ⟨hlen, -⟩ := wellFormed_vleHdr_iff.1 hwf
  have hlong : LongTwin counts alphabet (enterLong (prefixOf s.win.word) s) (enterLong (prefixOf s.win.word) t) := {
    twin := { h with codes := fun _ => ⟨⟨counts, alphabet, hwf, hs, ht⟩, rfl, by simpa using hbr⟩ }
    phase := hp
    win := by simp [enterLong, hword, hbr]
    left := hs
    right := ht }
  have hprefix : ((prefixOf s.win.word).setWidth 16).toNat = (prefixOf s.win.word).toNat := by
    rw [BitVec.toNat_setWidth, Nat.mod_eq_of_lt (by have := (prefixOf s.win.word).isLt; omega)]
  have hreached : Reached counts (enterLong (prefixOf s.win.word) s).win := by
    refine ⟨?_, ?_⟩
    · show codesPast counts 8 ≤ ((prefixOf s.win.word).setWidth 16).toNat
      rw [hprefix, ← directEnd_min_length]
      exact hs.directEnd_le (prefixOf s.win.word).isLt hw
    · show ((prefixOf s.win.word).setWidth 16).toNat < 2 ^ 8
      rw [hprefix]
      exact (prefixOf s.win.word).isLt
  rw [execVleLong_eq, execVleLong_eq]
  refine h.finish ((hlong.escapeLoop 9 hwf hreached).bind fun u v hafter => ?_)
  obtain ⟨-, hwr, hlen⟩ := hafter.1.dest (by rw [hafter.2.1]; rfl)
  rw [hwr, hlen]
  split
  · exact .ok hafter.1
  · exact LongTwin.reloadWindow hafter

/-- The token of a context is run alike. -/
theorem exec {c : Ctx} {i : Instr} (hc : s.context = some c) (hd : decode c s.tokenSlots = .ok i) :
    StepAgree (exec i s) (exec i t) := by
  unfold State.context at hc
  cases hp : s.phase with
  | idle | done | error => rw [hp] at hc; cases hc
  | chdr =>
    rw [hp] at hc
    cases hc
    have hsrc := h.inputLen (by rw [hp]; rfl)
    obtain ⟨b, rest, -, ⟨-, rfl⟩ | ⟨-, -, rfl⟩⟩ := decodeChdr_ok hd
    · exact .next (h.enterPasses hsrc 1 0)
    · show StepAgree (execChdrMulti _ s) (execChdrMulti _ t)
      rw [execChdrMulti, execChdrMulti, h.cur]
      exact .next (h.enterPasses hsrc _ _)
  | phdr =>
    rw [hp] at hc
    cases hc
    obtain ⟨tag, s0, s1, s2, rest, -, ⟨-, rfl⟩ | ⟨-, rfl⟩⟩ := decodePhdr_ok hd
    · exact h.enterPass hp _ _ (.inl rfl)
    · exact h.enterPass hp _ _ (.inr rfl)
  | rhdr =>
    rw [hp] at hc
    cases hc
    obtain ⟨escs, -, -, rfl | ⟨rfl, hlen⟩⟩ := decodeRhdr_ok hd
    · exact h.rhdrNoseq hp escs
    · exact h.rhdrSeq hp hlen
  | seq =>
    rw [hp] at hc
    cases hc
    rcases decodeSeq_ok hd with ⟨b, rest, -, -, rfl⟩ | ⟨body, rep, rest, -, rfl, -⟩
    · exact h.finish ((h.advance 1).emit_twin (by rw [State.advance_phase, hp]; rfl) _)
    · exact h.seqBlock hp _ body rep
  | sbr =>
    rw [hp] at hc
    cases hc
    by_cases hfull : s.dest.wr = s.dest.dstLen
    · rw [decide_eq_true hfull] at hd
      cases hd
      exact h.passEnd (by rw [hp]; rfl) (by simp [hp])
    · rw [decide_eq_false hfull] at hd
      obtain ⟨len, n, v, hl, -⟩ := decodeSbr_ok hd
      rw [exec_run hl, exec_run hl]
      exact h.runToken hp len v n
  | vhdr =>
    rw [hp] at hc
    cases hc
    obtain ⟨counts, alphabet, rest, rfl, hlen, hsum, hal, -⟩ := decodeVhdr_ok hd
    exact h.vleHdr hp (wellFormed_vleHdr_iff.2 ⟨hlen, hsum, hal⟩)
  | vdec =>
    rw [hp] at hc
    cases hc
    by_cases hfull : s.dest.wr = s.dest.dstLen
    · rw [decide_eq_true hfull] at hd
      cases hd
      exact h.passEnd (by rw [hp]; rfl) (by simp [hp])
    · rw [decide_eq_false hfull] at hd
      obtain ⟨pfx, rest, hsl, ⟨w, -, -, hi, -⟩ | ⟨rfl, hw⟩⟩ := decodeVdec_ok hd
      · rw [exec_short hi, exec_short hi]
        exact h.shortCode hp w pfx
      · rw [State.tokenSlots, if_pos hp] at hsl
        cases hsl
        exact h.vleLong hp (BitVec.eq_of_toNat_eq hw)
  | pend =>
    rw [hp] at hc
    cases hc
    injection hd with hd
    subst hd
    split
    · exact h.runDone hp
    · exact h.passChain hp

end Twin

/-- Only a block of the pre-pass is rejected as cut (41_rle.md R150). -/
theorem phase_of_reject_blockCut {s : State} {got : Nat} {hole : Bool} (hf : fetch s = .reject (.blockCut got hole)) :
    s.phase = .seq := by
  obtain ⟨c, hc, hd⟩ := decode_of_fetch_reject hf
  have hplain : PlainErrors fun r => ∀ got hole, r ≠ .blockCut got hole := by constructor <;> simp
  have hseq : ∃ brk, c = .seq brk := Classical.byContradiction fun hne =>
    decode_failsOnly hplain (fun brk he => hne ⟨brk, he⟩) (.inr (by simp)) _ hd got hole rfl
  obtain ⟨brk, rfl⟩ := hseq
  unfold State.context at hc
  cases hp : s.phase <;> rw [hp] at hc <;> simp_all

theorem decode_of_fetch_instr {s : State} {i : Instr} (h : fetch s = .instr i) :
    ∃ c, s.context = some c ∧ decode c s.tokenSlots = .ok i := by
  unfold fetch at h
  split at h
  · cases h
  split at h
  · cases h
  split at h
  · cases h
  split at h
  · next hc _ _ _ e hd => injection h with h; exact ⟨_, hc, h ▸ hd⟩
  · cases h

theorem phase_of_fetch_seqEnd {s : State} (h : fetch s = .seqEnd) : s.phase = .seq := by
  unfold fetch at h
  split at h
  · cases h
  split at h
  · next hp => exact hp.1
  split at h
  · cases h
  split at h <;> cases h

/-- What is fetched in twin states is run alike, and an error is raised alike from the states before the step. -/
theorem Twin.runFetched {s t u v : State} (h : Twin s t) (huv : Twin u v) (hp : u.phase = s.phase) :
    StepAgree (Machine.runFetched Machine.exec s u) (Machine.runFetched Machine.exec t v) := by
  unfold Machine.runFetched
  rw [huv.fetch]
  cases hf : Machine.fetch u with
  | instr i =>
    obtain ⟨c, hc, hd⟩ := decode_of_fetch_instr hf
    exact huv.exec hc hd
  | reject r =>
    refine h.rejected fun got hole hr => hp ▸ phase_of_reject_blockCut (hr ▸ hf)
  | underflow => exact .next (h.raise _)
  | seqEnd => exact .next (huv.endPrePass (phase_of_fetch_seqEnd hf))
  | idle => exact .next huv

theorem Twin.step {s t : State} (h : Twin s t) : StepAgree (step s) (step t) := by
  by_cases hchdr : s.phase = .chdr
  · by_cases hlen : s.host.inLen.toNat ≤ maxInLen
    · rw [step_chdr_of_inLen_le hchdr hlen, step_chdr_of_inLen_le (h.phase.trans hchdr) (by rw [h.host]; exact hlen)]
      exact h.runFetched (h.rewound hchdr) rfl
    · have hgt := Nat.not_le.1 hlen
      rw [step_chdr_of_inLen_gt hchdr hgt, step_chdr_of_inLen_gt (h.phase.trans hchdr) (by rw [h.host]; exact hgt)]
      exact .next (h.raise _)
  by_cases hphdr : s.phase = .phdr
  · by_cases hcount : s.pass.passCount = 0
    · rw [step_phdr_of_passCount_eq_zero hphdr hcount,
        step_phdr_of_passCount_eq_zero (h.phase.trans hphdr) (h.passCount.trans hcount)]
      exact .next (h.raise _)
    · rw [step_phdr_of_passCount_ne_zero hphdr hcount,
        step_phdr_of_passCount_ne_zero (h.phase.trans hphdr) (h.passCount.symm ▸ hcount)]
      exact h.runFetched h rfl
  · have hentry : s.entryContext = none := by unfold State.entryContext; split <;> simp_all
    have hentry' : t.entryContext = none := by unfold State.entryContext at hentry ⊢; rw [h.phase]; exact hentry
    rw [step_of_entryContext_none hentry, step_of_entryContext_none hentry']
    exact h.runFetched h rfl

/-! ### A run -/

theorem coreRun_succ_of_fault {M : Host.Core} {s : M.State} {f : M.Fault} (h : M.step s = .fault f) (n : Nat) :
    M.run (n + 1) s = .fault f := by
  rw [Host.Core.run, h]

theorem Twin.run {s t : State} (h : Twin s t) (n : Nat) : StepAgree (core.run n s) (core.run n t) := by
  induction n generalizing s t with
  | zero => exact .next h
  | succ n ih =>
    have hstep := h.step
    generalize hs : Machine.step s = o, ht : Machine.step t = q at hstep
    cases hstep with
    | next huv =>
      rw [run_succ_of_next hs, run_succ_of_next ht]
      exact ih huv
    | fault f =>
      rw [coreRun_succ_of_fault (M := core) hs, coreRun_succ_of_fault (M := core) ht]
      exact .fault f

/-- START leaves nothing of the run before but registers that are written before they are read. -/
theorem twin_startRun {s t : State} (hcfg : s.cfg = t.cfg) (hlen : s.host.inLen = t.host.inLen)
    (hin : ∀ a < s.host.inLen.toNat, s.buf.inMem.read a = t.buf.inMem.read a) : Twin s.startRun t.startRun := by
  constructor <;> simp [State.startRun, State.discardBuffers, hcfg, hlen, Phase.inPass]
  exact fun a ha => (hin a (hlen ▸ ha)).symm

theorem writeCtrl_one {s : State} (hb : s.phase.busy = false) : s.writeCtrl 1 = s.startRun := by
  rw [State.writeCtrl, hb]
  rfl

theorem Twin.regValue {s t : State} (h : Twin s t) (r : HostReg) : s.regValue r = t.regValue r := by
  cases r <;> simp only [State.regValue, h.phase, h.host, h.passCount, h.passIndex]

theorem Twin.readResult {s t : State} (h : Twin s t) (pos : Nat) : readResult pos s = readResult pos t := by
  simp only [Machine.readResult, h.phase, h.host, h.result]

/-- Settles O51: START makes the two states twins, and twins run alike. -/
theorem outcomeDependsOnlyOnInput : Obligations.OutcomeDependsOnlyOnInput := by
  intro s1 s2 n _ _ hb1 hb2 hcfg hlen hin
  rw [writeCtrl_one hb1, writeCtrl_one hb2]
  have hrun := (twin_startRun hcfg hlen hin).run n
  generalize core.run n s1.startRun = o, core.run n s2.startRun = q at hrun
  cases hrun with
  | next h => exact .inl ⟨_, _, rfl, rfl, h.regValue, h.phase.symm, h.readResult⟩
  | fault f => exact .inr ⟨f, rfl, rfl⟩

end Sys2Proof.Machine
end
